-- ==== Sys2Proof/Word.lean ====
section
/-! DEFINITION. Word.lean: the bit-vector types of the request port, the source port and the colour operands
(20_memory.md R37, R55; 30_encoding.md R69, R83). -/

namespace Sys2Proof

/-- A word of the request port or of the status port: 32 bits (R37). -/
abbrev Word := BitVec 32

/-- A 16-bit field: a coordinate or extent operand, a colour, a window register of the reference consumer. -/
abbrev Half := BitVec 16

/-- A byte of the source port, of the font table or of a transfer. -/
abbrev Byte := BitVec 8

/-- An RGB565 colour (R83). The block sends it as two bytes and never looks inside it. -/
abbrev Color := BitVec 16

end Sys2Proof
end

