-- ==== Sys2Proof/Bus.lean ====
section
/-! DEFINITION. Bus.lean: the event alphabet of the output port (20_memory.md R43) and the state of the reference
consumer, the test observer of 20_memory.md section 8 (R64). Types only: what the consumer does stands in
Machine/Consumer.lean. -/

namespace Sys2Proof

/-- The two levels of the data/command line, the argument of a `DC` event (R43, R44). -/
inductive Level where
  | cmd
  | data
  deriving DecidableEq, Repr, Inhabited

/-- One output event (R43): exactly these five kinds. -/
inductive Event where
  /-- `SEL`: assert chip-select. -/
  | sel
  /-- `DESEL`: deassert chip-select. -/
  | desel
  /-- `DC(CMD)` or `DC(DATA)`: set the framing line. -/
  | dc (l : Level)
  /-- `XFER(b)`: one transport byte exchange sending `b`. -/
  | xfer (b : Byte)
  deriving DecidableEq, Repr, Inhabited

/-- The consumer's mode (R64). The argument of the two `Args` modes is the number of argument bytes already taken. -/
inductive ConsumerMode where
  | idle
  | casetArgs (n : Fin 4)
  | pasetArgs (n : Fin 4)
  | write
  deriving DecidableEq, Repr, Inhabited

/-- The consumer's pixel memory (R64): the pixels written so far, as pairs of a pixel index
`page * SURF_W + column` and a colour, the indices strictly rising. A pixel not listed still has the value it had at
power-up, which the spec leaves unspecified (`Config.initialPixel`). -/
abbrev Gram := List (Nat × Color)

/-- The reference consumer (R64): the four window registers, the write position, the mode, the pending high byte and
the pixel memory. -/
structure Consumer where
  /-- GRAM. -/
  gram : Gram
  /-- SC: column start. -/
  sc : Half
  /-- EC: column end. -/
  ec : Half
  /-- SP: page start. -/
  sp : Half
  /-- EP: page end. -/
  ep : Half
  /-- COLP: the column of the write position. -/
  colp : Nat
  /-- PAGEP: the page of the write position. -/
  pagep : Nat
  mode : ConsumerMode
  /-- The pending high byte of a pixel, when one is held. -/
  pending : Option Byte
  deriving DecidableEq, Repr, Inhabited

end Sys2Proof
end

