-- ==== Sys2Proof/Config.lean ====
section
/-! DEFINITION. Config.lean: the values the spec fixes (00_scope.md R6), the parameters it leaves open (R7), and the
free values: constants without a body, for what the spec calls unspecified (93_implementation_defined.md). -/

namespace Sys2Proof.Config

/-- SURF_W: surface width, the clipping bound for x (R6). -/
abbrev surfW : Nat := 240
/-- SURF_H: surface height, the clipping bound for y (R6). -/
abbrev surfH : Nat := 320
/-- WRAP_X: the line layout's wrap bound for the cursor x (R6; not the surface's width, R134). -/
abbrev wrapX : Nat := 320
/-- WRAP_Y: the line layout's stop bound for the cursor y (R6; not the surface's height, R134). -/
abbrev wrapY : Nat := 240
/-- GLYPH_FIRST: the first character code with a glyph (R6). -/
abbrev glyphFirst : Nat := 32
/-- GLYPH_END: the first code past the glyph range (R6). -/
abbrev glyphEnd : Nat := 127
/-- GLYPH_COLS (R6). -/
abbrev glyphCols : Nat := 5
/-- GLYPH_ROWS (R6). -/
abbrev glyphRows : Nat := 5
/-- GLYPH_ROW_BIT: the bit of a column byte that holds glyph row 0 (R6, R88). -/
abbrev glyphRowBit : Nat := 2
/-- BYTES_PER_PIXEL (R6). -/
abbrev bytesPerPixel : Nat := 2
/-- The number of bytes of the font table: 95 entries of 5 bytes (R30, R40). -/
abbrev fontBytes : Nat := 475

/-- FONT (R7): the contents of the font table are not in the source. A free value (DEDUCED, assumption 2: safe). -/
opaque font : Vector Byte fontBytes

/-- A font read outside the font table (R31: FontRead is defined only inside it), by character and column. A free value; no
rule reads it (DEDUCED, assumption 17: safe). -/
opaque outsideFont : Nat → Nat → Byte

/-- How many words beyond the required five the request queue holds (R7: REQ_FIFO_DEPTH >= 5). A free value
(DEDUCED, assumption 4: safe). -/
opaque reqFifoExtra : Nat

/-- How many bytes beyond the required one the source queue holds (R7: SRC_FIFO_DEPTH >= 1). A free value
(DEDUCED, assumption 4: safe). -/
opaque srcFifoExtra : Nat

/-- The value a working register takes at a reset that the host asserts (R34: unspecified): the first argument counts
the free values drawn so far, the second is the register's number. A free value
(DEDUCED, assumption 6: safe). -/
opaque resetRegister : Nat → Nat → Nat

/-- The state of the consumer after a reset in the middle of a request (R159, R161: unspecified; any value of the mode and
the window, and of the GRAM when an exchange was in progress). A free value
(DEDUCED, assumption 7: safe). -/
opaque tornConsumer : Nat → Consumer

/-- The consumer's pixel memory at power-up (R64: initial contents unspecified), by column and page. A free value
(DEDUCED, assumption 8: safe). -/
opaque initialPixel : Nat → Nat → Color

/-- The consumer's pixel memory after a pixel sent past the window's last page or outside the array (R66:
unspecified), from the memory before, the column, the page and the pixel. A free value
(DEDUCED, assumption 9: safe). -/
opaque overrunGram : Gram → Nat → Nat → Color → Gram

end Sys2Proof.Config

namespace Sys2Proof

/-- The open parameters of 00_scope.md R7, fixed for the block's life (R160). The state carries them so that every
statement over all states is a statement over all parameter values ("a model takes each as an argument"). -/
structure Params where
  /-- CMD_CASET: the controller's column address set command. -/
  cmdCaset : Byte
  /-- CMD_PASET: the controller's page address set command. -/
  cmdPaset : Byte
  /-- CMD_RAMWR: the controller's memory write command. -/
  cmdRamwr : Byte
  /-- FONT: entry byte (c, col) stands at index `(c - 32) * 5 + col` (R40). -/
  font : Vector Byte Config.fontBytes
  /-- REQ_FIFO_DEPTH, in words. -/
  reqDepth : Nat
  /-- SRC_FIFO_DEPTH, in bytes. -/
  srcDepth : Nat
  deriving DecidableEq, Repr

/-- The parameters the reset state carries: the default command values of R7 (PRESUMED, assumption 3: unsafe), and free
values for the rest. -/
def Config.params : Params where
  cmdCaset := 0x2A
  cmdPaset := 0x2B
  cmdRamwr := 0x2C
  font := Config.font
  reqDepth := Config.reqFifoExtra + 5
  srcDepth := Config.srcFifoExtra + 1

/-- What R7 asks of the queue depths: room for one descriptor and for one source byte. -/
abbrev Params.wf (p : Params) : Prop := 5 ≤ p.reqDepth ∧ 1 ≤ p.srcDepth

/-- The three command values differ, as three different commands of one controller do. The block itself never compares
them; only the consumer does (R65). -/
abbrev Params.distinctCommands (p : Params) : Prop :=
  p.cmdCaset ≠ p.cmdPaset ∧ p.cmdCaset ≠ p.cmdRamwr ∧ p.cmdPaset ≠ p.cmdRamwr

end Sys2Proof
end

