-- ==== Sys2Proof/Syntax.lean ====
section
/-! DEFINITION. Syntax.lean: the six requests of 30_encoding.md R72, one constructor per row of opcode_table.json, with
the operands of R73. Coordinates, extents, the scale, the character code and the byte count are natural numbers (00_scope.md
R8); colours are 16-bit words. -/

namespace Sys2Proof

/-- A request. The operand order is the assembler's (R79), the character or string data apart. -/
inductive Instr where
  /-- FILL_RECT x, y, w, h, color (R104). -/
  | fillRect (x y w h : Nat) (c : Color)
  /-- DRAW_PIXEL x, y, color (R106). -/
  | drawPixel (x y : Nat) (c : Color)
  /-- FILL_SCREEN color (R108). -/
  | fillScreen (c : Color)
  /-- DRAW_IMAGE x, y, w, h with LEN source bytes (R111). -/
  | drawImage (x y w h len : Nat)
  /-- DRAW_CHAR c, x, y, fg, bg, scale (R126). -/
  | drawChar (chr x y : Nat) (fg bg : Color) (scale : Nat)
  /-- DRAW_STRING at x, y in fg, bg, scale, with LEN source bytes (R131). -/
  | drawString (x y : Nat) (fg bg : Color) (scale len : Nat)
  deriving DecidableEq, Repr

/-- The opcodes of R72. -/
inductive Opcode where
  | fillRect | drawPixel | fillScreen | drawImage | drawChar | drawString
  deriving DecidableEq, Repr

/-- The opcode of a request. -/
def Instr.opcode : Instr → Opcode
  | .fillRect .. => .fillRect
  | .drawPixel .. => .drawPixel
  | .fillScreen .. => .fillScreen
  | .drawImage .. => .drawImage
  | .drawChar .. => .drawChar
  | .drawString .. => .drawString

/-- One request descriptor: the five 32-bit words of R68. -/
structure Desc where
  w0 : Word
  w1 : Word
  w2 : Word
  w3 : Word
  w4 : Word
  deriving DecidableEq, Repr

/-- The fields of a descriptor (R69), each with its width. -/
structure Fields where
  op : Byte
  scale : Byte
  chr : Byte
  rsv0 : Byte
  x : Half
  y : Half
  w : Half
  h : Half
  c0 : Color
  c1 : Color
  len : Word
  deriving DecidableEq, Repr

end Sys2Proof
end

