-- ==== Sys2Proof/WellFormed.lean ====
section
/-! DEFINITION. WellFormed.lean: the operand widths of 00_scope.md R8 (X, Y, W, H 16 bits, SCALE and the character code
8 bits, LEN 32 bits): an operand fits its field. No value of a used field is illegal (30_encoding.md R75), so nothing else
is checked. -/

namespace Sys2Proof

/-- A coordinate or an extent fits its 16-bit field. -/
abbrev fits16 (n : Nat) : Bool := n < 2 ^ 16

/-- A scale or a character code fits its 8-bit field. -/
abbrev fits8 (n : Nat) : Bool := n < 2 ^ 8

/-- A source byte count fits its 32-bit field. -/
abbrev fits32 (n : Nat) : Bool := n < 2 ^ 32

/-- Every operand of the request fits its field. -/
def Instr.wf : Instr → Bool
  | .fillRect x y w h _ => fits16 x && fits16 y && fits16 w && fits16 h
  | .drawPixel x y _ => fits16 x && fits16 y
  | .fillScreen _ => true
  | .drawImage x y w h len => fits16 x && fits16 y && fits16 w && fits16 h && fits32 len
  | .drawChar chr x y _ _ scale => fits8 chr && fits16 x && fits16 y && fits8 scale
  | .drawString x y _ _ scale len => fits16 x && fits16 y && fits8 scale && fits32 len

end Sys2Proof
end

