-- ==== Sys2Proof/Decode.lean ====
section
/-! DEFINITION. Decode.lean: the DESC5 format (30_encoding.md R68 to R78): the fields of a descriptor, the opcode map,
the table of used and reserved fields, the decoder, which is total and rejects by name, and the encoder, from the same
tables. -/

namespace Sys2Proof

/-- The fields of a descriptor by bit position (R69, R70): each is `Wn[hi:lo]`. -/
def Desc.fields (d : Desc) : Fields where
  op := d.w0.extractLsb' 0 8
  scale := d.w0.extractLsb' 8 8
  chr := d.w0.extractLsb' 16 8
  rsv0 := d.w0.extractLsb' 24 8
  x := d.w1.extractLsb' 0 16
  y := d.w1.extractLsb' 16 16
  w := d.w2.extractLsb' 0 16
  h := d.w2.extractLsb' 16 16
  c0 := d.w3.extractLsb' 0 16
  c1 := d.w3.extractLsb' 16 16
  len := d.w4

/-- The descriptor with the given fields (R69): the higher field stands to the left. -/
def Fields.desc (f : Fields) : Desc where
  w0 := f.rsv0 ++ f.chr ++ f.scale ++ f.op
  w1 := f.y ++ f.x
  w2 := f.h ++ f.w
  w3 := f.c1 ++ f.c0
  w4 := f.len

/-- The OP value of an opcode (R72). -/
def Opcode.value : Opcode → Byte
  | .fillRect => 0x01
  | .drawPixel => 0x02
  | .fillScreen => 0x03
  | .drawImage => 0x04
  | .drawChar => 0x05
  | .drawString => 0x06

/-- The opcode an OP value selects (R72); none for 0x00 and 0x07..0xFF (R74). -/
def Opcode.ofValue (v : Byte) : Option Opcode :=
  if v = 0x01 then some .fillRect
  else if v = 0x02 then some .drawPixel
  else if v = 0x03 then some .fillScreen
  else if v = 0x04 then some .drawImage
  else if v = 0x05 then some .drawChar
  else if v = 0x06 then some .drawString
  else none

/-- The fields that R73 marks 0 for the opcode (RSV0 for every opcode), in the field order of R69, zero-extended. -/
def Fields.reserved (f : Fields) : Opcode → List Nat
  | .fillRect => [f.scale.toNat, f.chr.toNat, f.rsv0.toNat, f.c1.toNat, f.len.toNat]
  | .drawPixel => [f.scale.toNat, f.chr.toNat, f.rsv0.toNat, f.w.toNat, f.h.toNat, f.c1.toNat, f.len.toNat]
  | .fillScreen => [f.scale.toNat, f.chr.toNat, f.rsv0.toNat, f.x.toNat, f.y.toNat, f.w.toNat, f.h.toNat, f.c1.toNat, f.len.toNat]
  | .drawImage => [f.scale.toNat, f.chr.toNat, f.rsv0.toNat, f.c0.toNat, f.c1.toNat]
  | .drawChar => [f.rsv0.toNat, f.w.toNat, f.h.toNat, f.len.toNat]
  | .drawString => [f.chr.toNat, f.rsv0.toNat, f.w.toNat, f.h.toNat]

/-- Every reserved field of the opcode is zero (R75). -/
def Fields.reservedClear (f : Fields) (o : Opcode) : Bool := (f.reserved o).all (· == 0)

/-- The request a legal descriptor stands for: the U fields of R73, zero-extended (R70). -/
def Fields.request (f : Fields) : Opcode → Instr
  | .fillRect => .fillRect f.x.toNat f.y.toNat f.w.toNat f.h.toNat f.c0
  | .drawPixel => .drawPixel f.x.toNat f.y.toNat f.c0
  | .fillScreen => .fillScreen f.c0
  | .drawImage => .drawImage f.x.toNat f.y.toNat f.w.toNat f.h.toNat f.len.toNat
  | .drawChar => .drawChar f.chr.toNat f.x.toNat f.y.toNat f.c0 f.c1 f.scale.toNat
  | .drawString => .drawString f.x.toNat f.y.toNat f.c0 f.c1 f.scale.toNat f.len.toNat

/-- Why the decoder rejects a descriptor (R74, R75). -/
inductive DecodeFault where
  | illegalOp
  | reservedField
  deriving DecidableEq, Repr

/-- The decoder (R78): the opcode is checked first, then the reserved fields (R146). -/
def decode (d : Desc) : Except DecodeFault Instr :=
  match Opcode.ofValue d.fields.op with
  | none => .error .illegalOp
  | some o => if d.fields.reservedClear o then .ok (d.fields.request o) else .error .reservedField

/-- The fields of an encoded request (R81): the used fields from the operands, every reserved field 0. -/
def Instr.fields : Instr → Fields
  | .fillRect x y w h c =>
    { op := Opcode.fillRect.value, scale := 0, chr := 0, rsv0 := 0, x := BitVec.ofNat 16 x, y := BitVec.ofNat 16 y,
      w := BitVec.ofNat 16 w, h := BitVec.ofNat 16 h, c0 := c, c1 := 0, len := 0 }
  | .drawPixel x y c =>
    { op := Opcode.drawPixel.value, scale := 0, chr := 0, rsv0 := 0, x := BitVec.ofNat 16 x, y := BitVec.ofNat 16 y,
      w := 0, h := 0, c0 := c, c1 := 0, len := 0 }
  | .fillScreen c =>
    { op := Opcode.fillScreen.value, scale := 0, chr := 0, rsv0 := 0, x := 0, y := 0, w := 0, h := 0, c0 := c, c1 := 0,
      len := 0 }
  | .drawImage x y w h len =>
    { op := Opcode.drawImage.value, scale := 0, chr := 0, rsv0 := 0, x := BitVec.ofNat 16 x, y := BitVec.ofNat 16 y,
      w := BitVec.ofNat 16 w, h := BitVec.ofNat 16 h, c0 := 0, c1 := 0, len := BitVec.ofNat 32 len }
  | .drawChar chr x y fg bg scale =>
    { op := Opcode.drawChar.value, scale := BitVec.ofNat 8 scale, chr := BitVec.ofNat 8 chr, rsv0 := 0,
      x := BitVec.ofNat 16 x, y := BitVec.ofNat 16 y, w := 0, h := 0, c0 := fg, c1 := bg, len := 0 }
  | .drawString x y fg bg scale len =>
    { op := Opcode.drawString.value, scale := BitVec.ofNat 8 scale, chr := 0, rsv0 := 0, x := BitVec.ofNat 16 x,
      y := BitVec.ofNat 16 y, w := 0, h := 0, c0 := fg, c1 := bg, len := BitVec.ofNat 32 len }

/-- The encoder: the five words of a request (R81). -/
def encode (i : Instr) : Desc := i.fields.desc

/-- The words of a descriptor in the order they are written to the request port (R68). -/
def Desc.words (d : Desc) : List Word := [d.w0, d.w1, d.w2, d.w3, d.w4]

/-- The descriptor whose bits are those of `v`: bit 0 is the least significant bit of W0, and W1 to W4 count on from
there, as opcode_table.json numbers a row's bits. -/
def Desc.ofNat (v : Nat) : Desc where
  w0 := BitVec.ofNat 32 v
  w1 := BitVec.ofNat 32 (v >>> 32)
  w2 := BitVec.ofNat 32 (v >>> 64)
  w3 := BitVec.ofNat 32 (v >>> 96)
  w4 := BitVec.ofNat 32 (v >>> 128)

/-- The request the decoder reads from a descriptor whose low `nbits` bits are `w` and whose other bits are 0. -/
def decodeTableWord (nbits w : Nat) : Option Instr :=
  match decode (Desc.ofNat (w % 2 ^ nbits)) with
  | .ok i => some i
  | .error _ => none

end Sys2Proof
end

