-- ==== Sys2Proof/Machine/State.lean ====
section
/-! DEFINITION. Machine/State.lean: every piece of state the spec gives the machine and its four agents (10_state.md,
20_memory.md R64, R37), as plain data; the reasons a step can stop; and the machine right after reset (R34). -/

namespace Sys2Proof.Machine

/-- ENG_STATE (R18). -/
inductive EngState where
  /-- No request is in progress. -/
  | idle
  /-- A request is in progress. -/
  | run
  /-- A fault has been raised: no descriptor is taken and no event emitted until reset. -/
  | faulted
  deriving DecidableEq, Repr

/-- The values FCODE can hold (60_exceptions.md R142). Codes 4 to 15 are reserved and never produced, so they have no
constructor. -/
inductive FaultCode where
  | none
  | illegalOp
  | reservedField
  | imageShort
  deriving DecidableEq, Repr

/-- The statements of a request's program (00_scope.md R11) that the engine still has to execute stand in the state as a
list of these. Each is one statement of the pseudocode, or one of its loops: the position in the program is state the
spec implies (R27: "so that a model can hold an interrupted request's state"). Operands are the values the request was
decoded to. -/
inductive Micro where
  /-- `Emit(e)`. -/
  | emit (e : Event)
  /-- `SetWindow(x, y, w, h)` (R90). -/
  | setWindow (x y w h : Nat)
  /-- `FillRect(x, y, w, h, v)` (R102). -/
  | fillRect (x y w h : Nat) (v : Color)
  /-- `PCNT <- n`. -/
  | loadPcnt (n : Nat)
  /-- FillStream's loop: `while PCNT > 0` (R99). -/
  | pixels (v : Color)
  /-- `PCNT <- PCNT - 1`, at the end of an iteration of FillStream's loop. -/
  | pixelSent
  /-- DRAW_IMAGE's first loop: `while PCNT > 0` (R111). -/
  | imageBytes
  /-- `PCNT <- PCNT - 1 ; SREM <- SREM - 1`, at the end of an iteration of DRAW_IMAGE's first loop. -/
  | imageByteSent
  /-- `SREM <- n`. -/
  | loadSrem (n : Nat)
  /-- DRAW_IMAGE's second loop: `while SREM > 0`, discarding (R111, R113). -/
  | drain
  /-- `DrawGlyph(c, x, y, fg, bg, s)` (R123). -/
  | glyph (c x y : Nat) (fg bg : Color) (s : Nat)
  /-- One iteration of DrawGlyph's COL loop. -/
  | column (c x y : Nat) (fg bg : Color) (s col : Nat)
  /-- One iteration of DrawGlyph's ROW loop, in the column COL. -/
  | cell (x y : Nat) (fg bg : Color) (s row : Nat)
  /-- The first two lines of DRAW_STRING (R131). -/
  | beginString (x y len : Nat)
  /-- DRAW_STRING's loop: `while SREM > 0`. -/
  | chars (fg bg : Color) (s : Nat)
  /-- `CX <- CX + ax ; FIRSTG <- 0`, after a character is drawn. -/
  | advance (ax : Nat)
  deriving DecidableEq, Repr

/-- What can happen to the block from outside (10_state.md R15), as entries of a list the step reads. -/
inductive Input where
  /-- HOST writes a word to the request port (R24, R37(a)). -/
  | writeRequest (w : Word)
  /-- HOST writes a byte to the source port (R26, R37(b)). -/
  | writeSource (b : Byte)
  /-- HOST reads the status port: index 0 is STATUS, index 1 is FAULT_W0 (R38). -/
  | readStatus (index : Fin 2)
  /-- HOST asserts the reset input (R158) and releases it at once (DESIGN CHOICE, assumption 20: unsafe). -/
  | reset
  /-- HOST runs the Controller Sequencer to `Ready` (R162 step 2). -/
  | bootSequencer
  /-- ENGINE and TRANSPORT go on: `some n`, for `n` more micro-operations; `none`, until they wait of themselves. A
  transport exchange that never completes (R49) is a held one that no `resume` follows. -/
  | resume (n : Option Nat)
  deriving DecidableEq, Repr

/-- Why the machine stops with a fault. There is no constructor: no rule of the spec stops the machine. Each fault of
60_exceptions.md is a next state (ENG_STATE FAULTED, R144), and each hang of R147 is a state that stays as it is. Raised
by nobody; safe. -/
inductive Fault where
  deriving DecidableEq, Repr

/-- Why a step has no meaning. -/
inductive Refusal where
  /-- Raised by an arm of `exec` whose instruction has no meaning yet. Safe: nothing can be proved of it. -/
  | notModelled (mnemonic : String)
  /-- Raised by a HOST write to the request port before the Controller Sequencer has reached `Ready`: R162, R164 and
  93_implementation_defined.md section 1 give such a write no meaning ("`refuse`"). Safe. -/
  | descriptorBeforeReady
  /-- Raised when HOST runs the Controller Sequencer while BUSY = 1: R164 and 93_implementation_defined.md section 1 give
  it no meaning ("`refuse`: the spec gives no meaning to a trace with sequencer bytes inside a request"). Safe. -/
  | sequencerWhileBusy
  /-- Raised when HOST runs the Controller Sequencer a second time: R162 ("must be called exactly once per power cycle")
  gives a second run no meaning. Safe. -/
  | sequencerTwice
  deriving DecidableEq, Repr

/-- The machine: ENGINE's registers and queues, the output port, and what HOST, TRANSPORT and CONSUMER hold. -/
structure State where
  /-- The open parameters, FONT among them (R7, R30, R160). Nothing writes them. -/
  params : Params
  /-- ENG_STATE (R18). -/
  engState : EngState
  /-- STATUS.FCODE (R19, R21). The other fields of STATUS are computed, in Flags.lean. -/
  fcode : FaultCode
  /-- FAULT_W0 (R22). -/
  faultW0 : Word
  /-- REQ_INDEX: the number of descriptors taken since reset (R17). -/
  reqIndex : Nat
  /-- REQQ, oldest word first (R24). -/
  reqq : List Word
  /-- SRCQ, oldest byte first (R26). -/
  srcq : List Byte
  /-- REQ.W0 to REQ.W4: the latched descriptor (R25, R27). -/
  req : Desc
  /-- WX: clipped window x (R27). -/
  wx : Nat
  /-- WY: clipped window y (R27). -/
  wy : Nat
  /-- WW: clipped window width (R27). -/
  ww : Nat
  /-- WH: clipped window height (R27). -/
  wh : Nat
  /-- PCNT: pixels or bytes still to send in the open stream (R27). -/
  pcnt : Nat
  /-- SREM: source bytes still to consume for this request (R27). -/
  srem : Nat
  /-- CX: DRAW_STRING cursor x (R27). -/
  cx : Nat
  /-- CY: DRAW_STRING cursor y (R27). -/
  cy : Nat
  /-- X0: DRAW_STRING origin x (R27). -/
  x0 : Nat
  /-- FIRSTG: true until the first glyph of a DRAW_STRING is drawn (R27). -/
  firstg : Bool
  /-- STOPPED: DRAW_STRING has stopped drawing and is draining (R27). -/
  stopped : Bool
  /-- COL: the glyph column being painted (R27). -/
  col : Nat
  /-- ROW: the glyph row being painted (R27). -/
  row : Nat
  /-- GB: the font byte of the current glyph column (R27). -/
  gb : Byte
  /-- SEL_OPEN: true between a `SEL` and the following `DESEL` (R29). -/
  selOpen : Bool
  /-- DC_LEVEL: the level last set by a `DC` event (R29). -/
  dcLevel : Level
  /-- The output trace (R43), held newest event first; `State.trace` reads it oldest first. -/
  out : List Event
  /-- What is left of the program of the request in progress (R11); empty between requests. -/
  todo : List Micro
  /-- An exchange is in progress: its `XFER` is in the trace and TRANSPORT has not completed it (R49, R159). -/
  xferBusy : Bool
  /-- The reference consumer (R64). -/
  consumer : Consumer
  /-- What HOST and the outside do next, oldest first (R15). The model's own. -/
  inputs : List Input
  /-- How many more micro-operations ENGINE and TRANSPORT perform before the next input lands; `none`: no input lands
  until they wait of themselves. The model's own: it says which agent moves next. -/
  credit : Option Nat
  /-- What HOST's reads of the status port have returned, oldest first (R23). The model's own record. -/
  hostReads : List Word
  /-- The Controller Sequencer has reached `Ready` (R162). Outside the block: a precondition of request writes. -/
  seqReady : Bool
  /-- How many free values have been drawn (assumption 6). The model's own. -/
  freeCount : Nat
  deriving DecidableEq, Repr

/-- The output trace in the order the events were emitted (R43). -/
def State.trace (s : State) : List Event := s.out.reverse

/-- The consumer at reset: mode IDLE (R64). The values R64 leaves unspecified are zero here (DESIGN CHOICE,
assumption 8: unsafe); no pixel has
been written, so each reads as `Config.initialPixel`. -/
def consumerReset : Consumer where
  gram := []
  sc := 0
  ec := 0
  sp := 0
  ep := 0
  colp := 0
  pagep := 0
  mode := .idle
  pending := none

/-- The machine right after reset: the values of R34. A working register and DC_LEVEL, which R34 leaves unspecified, are
zero, false or CMD (DESIGN CHOICE, assumption 5: unsafe); the sequencer is at `Ready` (DESIGN CHOICE, assumption 10: unsafe);
no input is pending and nothing holds the engine (DESIGN CHOICE, assumption 1: safe). -/
def State.reset : State where
  params := Config.params
  engState := .idle
  fcode := .none
  faultW0 := 0
  reqIndex := 0
  reqq := []
  srcq := []
  req := ⟨0, 0, 0, 0, 0⟩
  wx := 0
  wy := 0
  ww := 0
  wh := 0
  pcnt := 0
  srem := 0
  cx := 0
  cy := 0
  x0 := 0
  firstg := false
  stopped := false
  col := 0
  row := 0
  gb := 0
  selOpen := false
  dcLevel := .cmd
  out := []
  todo := []
  xferBusy := false
  consumer := consumerReset
  inputs := []
  credit := none
  hostReads := []
  seqReady := true
  freeCount := 0

end Sys2Proof.Machine
end

