-- ==== Sys2Proof/Machine/Consumer.lean ====
section
/-! DEFINITION. Machine/Consumer.lean: the reference consumer of 20_memory.md section 8 (R64 to R67), the test observer
that turns the transferred bytes into screen contents. Nothing in the block reads it. -/

namespace Sys2Proof

/-- The number of pixels of the array (R64). -/
def gramSize : Nat := Config.surfW * Config.surfH

/-- The index of the pixel at a column and a page. -/
def pixelIndex (col page : Nat) : Nat := page * Config.surfW + col

/-- Store a pixel at an index, keeping the indices strictly rising. -/
def Gram.set (k : Nat) (v : Color) : Gram → Gram
  | [] => [(k, v)]
  | p :: g => if k < p.1 then (k, v) :: p :: g else if k = p.1 then (k, v) :: g else p :: Gram.set k v g

/-- The pixel stored at an index, if one has been written. -/
def Gram.lookup (k : Nat) : Gram → Option Color
  | [] => none
  | p :: g => if p.1 = k then some p.2 else Gram.lookup k g

/-- The pixel at a column and a page: what was stored there last, or its unspecified initial contents (R64). -/
def Gram.read (g : Gram) (col page : Nat) : Color :=
  (Gram.lookup (pixelIndex col page) g).getD (Config.initialPixel col page)

/-- The canonical form of a pixel memory: indices strictly rising from at least `lo`, all of them inside the array. -/
def Gram.wfFrom (lo : Nat) : Gram → Bool
  | [] => true
  | p :: g => lo ≤ p.1 && p.1 < gramSize && Gram.wfFrom (p.1 + 1) g

/-- The canonical form of a pixel memory. -/
abbrev Gram.wf (g : Gram) : Bool := Gram.wfFrom 0 g

/-- A list of pixels brought into the canonical form: entries outside the array are dropped. -/
def Gram.ofList (l : Gram) : Gram := l.foldr (fun p g => if p.1 < gramSize then Gram.set p.1 p.2 g else g) []

/-- `v` with its high byte replaced. -/
def setHi (v : Half) (b : Byte) : Half := b ++ v.extractLsb' 0 8

/-- `v` with its low byte replaced. -/
def setLo (v : Half) (b : Byte) : Half := v.extractLsb' 8 8 ++ b

/-- The mode after argument `n` of an address-set command: the next argument, and IDLE after the fourth (R65). -/
def argsAfter (next : Fin 4 → ConsumerMode) (n : Fin 4) : ConsumerMode := if n = 3 then .idle else next (n + 1)

/-- Argument `n` of the column address set command (R65): SC high, SC low, EC high, EC low. -/
def Consumer.casetArg (c : Consumer) (n : Fin 4) (b : Byte) : Consumer :=
  { c with
    sc := if n = 0 then setHi c.sc b else if n = 1 then setLo c.sc b else c.sc
    ec := if n = 2 then setHi c.ec b else if n = 3 then setLo c.ec b else c.ec
    mode := argsAfter .casetArgs n }

/-- Argument `n` of the page address set command (R65): SP high, SP low, EP high, EP low. -/
def Consumer.pasetArg (c : Consumer) (n : Fin 4) (b : Byte) : Consumer :=
  { c with
    sp := if n = 0 then setHi c.sp b else if n = 1 then setLo c.sp b else c.sp
    ep := if n = 2 then setHi c.ep b else if n = 3 then setLo c.ep b else c.ep
    mode := argsAfter .pasetArgs n }

/-- The write position lies inside the array and on no page past the window's last (R66). -/
def Consumer.inWindow (c : Consumer) : Bool :=
  c.pagep ≤ c.ep.toNat && c.colp < Config.surfW && c.pagep < Config.surfH

/-- Store a pixel and advance (R65, R66): the column first, the page when a column range is complete. A pixel past the
window leaves the pixel memory unspecified (`Config.overrunGram`). -/
def Consumer.storePixel (c : Consumer) (v : Color) : Consumer :=
  { c with
    gram :=
      if c.inWindow then Gram.set (pixelIndex c.colp c.pagep) v c.gram
      else Gram.ofList (Config.overrunGram c.gram c.colp c.pagep v)
    pending := none
    colp := if c.ec.toNat < c.colp + 1 then c.sc.toNat else c.colp + 1
    pagep := if c.ec.toNat < c.colp + 1 then c.pagep + 1 else c.pagep }

/-- A byte with framing CMD (R65). -/
def Consumer.command (p : Params) (b : Byte) (c : Consumer) : Consumer :=
  if b = p.cmdCaset then { c with mode := .casetArgs 0 }
  else if b = p.cmdPaset then { c with mode := .pasetArgs 0 }
  else if b = p.cmdRamwr then { c with colp := c.sc.toNat, pagep := c.sp.toNat, pending := none, mode := .write }
  else { c with mode := .idle }

/-- A byte with framing DATA (R65). -/
def Consumer.dataByte (b : Byte) (c : Consumer) : Consumer :=
  match c.mode with
  | .idle => c
  | .casetArgs n => c.casetArg n b
  | .pasetArgs n => c.pasetArg n b
  | .write =>
    match c.pending with
    | none => { c with pending := some b }
    | some hi => c.storePixel (hi ++ b)

/-- A transferred byte, with the framing of the line level (R65). `SEL` and `DESEL` do not reach the consumer (R67). -/
def Consumer.receive (p : Params) (l : Level) (b : Byte) (c : Consumer) : Consumer :=
  match l with
  | .cmd => c.command p b
  | .data => c.dataByte b

/-- A consumer of any value, for a reset in the middle of a request (R159, R161). The pixel memory is brought into its
canonical form. -/
def Consumer.torn (n : Nat) : Consumer :=
  { Config.tornConsumer n with gram := Gram.ofList (Config.tornConsumer n).gram }

end Sys2Proof
end

