-- ==== Sys2Proof/Machine/Flags.lean ====
section
/-! DEFINITION. Machine/Flags.lean: the STATUS register, the only status flags of the block (10_state.md R19 to R21, R33),
and the status port (20_memory.md R38). The block has no condition codes. -/

namespace Sys2Proof.Machine

/-- BUSY (R20): a request is in progress or the request queue holds a word. -/
def State.busy (s : State) : Bool := s.engState == .run || !s.reqq.isEmpty

/-- FAULT (R21). -/
def State.faultFlag (s : State) : Bool := s.engState == .faulted

/-- The number of a fault code (60_exceptions.md R142). -/
def FaultCode.number : FaultCode → BitVec 4
  | .none => 0
  | .illegalOp => 1
  | .reservedField => 2
  | .imageShort => 3

/-- FCODE as STATUS shows it (R21): the code of the raised fault while FAULT is 1, and 0 while it is 0. -/
def State.fcodeField (s : State) : BitVec 4 := if s.faultFlag then s.fcode.number else 0

/-- STATUS (R19): bit 0 BUSY, bit 1 FAULT, bits 3:2 read 0, bits 7:4 FCODE, bits 31:8 read 0. -/
def State.status (s : State) : Word :=
  0#24 ++ s.fcodeField ++ 0#2 ++ BitVec.ofBool s.faultFlag ++ BitVec.ofBool s.busy

/-- What a read of the status port returns (R38): register 0 is STATUS, register 1 is FAULT_W0. -/
def State.statusPort (s : State) (index : Fin 2) : Word := if index = 0 then s.status else s.faultW0

end Sys2Proof.Machine
end

