-- ==== Sys2Proof/Machine/Operands.lean ====
section
/-! DEFINITION. Machine/Operands.lean: the operand forms and data formats: byte slices (00_scope.md R9), the RGB565 colour
(30_encoding.md R83 to R85), the clip of a rectangle to the surface (40_clipper.md R89, R90), the byte count of an image
(41_pixel_stream.md R110), glyph lookup (10_state.md R31, 42_glyph.md R119, R120) and the cursor advances (R130). -/

namespace Sys2Proof.Machine

/-- `hi8(v) = v[15:8]` (R9). -/
def hi8 (v : Nat) : Byte := BitVec.ofNat 8 (v / 256)

/-- `lo8(v) = v[7:0]` (R9). -/
def lo8 (v : Nat) : Byte := BitVec.ofNat 8 v

/-- The high byte of a colour, the first sent (20_memory.md R51). -/
def colorHi (v : Color) : Byte := v.extractLsb' 8 8

/-- The low byte of a colour, the second sent (20_memory.md R51). -/
def colorLo (v : Color) : Byte := v.extractLsb' 0 8

/-- `rgb565(r, g, b)` (R84): each channel is truncated to its width. -/
def rgb565 (r g b : Byte) : Color := r.extractLsb' 3 5 ++ g.extractLsb' 2 6 ++ b.extractLsb' 3 5

/-- `rgb565_decode(v)` (R85): the low bits of each channel are filled with zero. -/
def rgb565Decode (v : Color) : Byte × Byte × Byte :=
  (v.extractLsb' 11 5 ++ 0#3, v.extractLsb' 5 6 ++ 0#2, v.extractLsb' 0 5 ++ 0#3)

/-- The outcome of a clip: the address window, or nothing to draw (R89, R90). -/
inductive Clip where
  | noOp
  | window (x y w h : Nat)
  deriving DecidableEq, Repr

/-- The clip of SetWindow (R90): a rectangle whose origin is off the surface or that has no extent is rejected; any other
keeps its origin and loses its far columns and pages (R93). -/
def clip (x y w h : Nat) : Clip :=
  if Config.surfW ≤ x ∨ Config.surfH ≤ y ∨ w = 0 ∨ h = 0 then .noOp
  else .window x y (min w (Config.surfW - x)) (min h (Config.surfH - y))

/-- DRAW_IMAGE's needed byte count (R110): twice the clipped area, 0 when nothing is drawn. -/
def imageNeed (x y w h : Nat) : Nat :=
  match clip x y w h with
  | .noOp => 0
  | .window _ _ w' h' => Config.bytesPerPixel * w' * h'

/-- `HasGlyph(c)` (R119). -/
def hasGlyph (c : Nat) : Bool := Config.glyphFirst ≤ c && c < Config.glyphEnd

/-- `FontRead(c, col)` (R31): the byte at the font index of R40. The spec defines it only for a character that has a glyph
and a column 0 to 4, which is where the rules call it (R121); the index is inside the table there, and a byte outside it is a
free value (DEDUCED, assumption 17: safe). -/
def fontRead (p : Params) (c col : Nat) : Byte :=
  p.font[(c - Config.glyphFirst) * Config.glyphCols + col]?.getD (Config.outsideFont c col)

/-- Glyph row `row` of a column byte is lit (R88, R120): bit `row + 2`. -/
def lit (gb : Byte) (row : Nat) : Bool := gb.getLsbD (row + Config.glyphRowBit)

/-- ADV_X(s): the cursor's advance after a character (R6, R130). -/
def advX (s : Nat) : Nat := 5 * s + 1

/-- ADV_Y(s): the cursor's advance on a wrap (R6, R130). -/
def advY (s : Nat) : Nat := 5 * s + 2

end Sys2Proof.Machine
end

