-- ==== Sys2Proof/Machine/Ops.lean ====
section
/-! DEFINITION. Machine/Ops.lean: the primitives of 00_scope.md R10 over the state (Emit, SrcRead, raise Fault), the
transactions of 20_memory.md R45 and R46, the reset of the block (70_reset_and_hazards.md R159), which is also the only
way out of a fault (60_exceptions.md R148), and the taking of a descriptor (10_state.md R25). -/

namespace Sys2Proof.Machine

/-- `Emit(e)` (R10, R43): the event goes to the end of the trace; the output line state follows it (R29); a transferred
byte reaches the consumer (DEDUCED, assumption 13: unsafe), and its exchange is in progress until TRANSPORT completes it
(R49). -/
def State.emit (e : Event) (s : State) : State :=
  match e with
  | .sel => { s with out := .sel :: s.out, selOpen := true }
  | .desel => { s with out := .desel :: s.out, selOpen := false }
  | .dc l => { s with out := .dc l :: s.out, dcLevel := l }
  | .xfer b =>
    { s with out := .xfer b :: s.out, xferBusy := true, consumer := s.consumer.receive s.params s.dcLevel b }

/-- TRANSPORT completes the exchange in progress (R49). The byte it returns is discarded (R36; DEDUCED, assumption 15:
safe). -/
def State.completeXfer (s : State) : State := { s with xferBusy := false }

/-- `CmdTxn(b)` (R45). -/
def cmdTxn (b : Byte) : List Event := [.sel, .dc .cmd, .xfer b, .desel]

/-- `DataTxn(b)` (R45). -/
def dataTxn (b : Byte) : List Event := [.sel, .dc .data, .xfer b, .desel]

/-- `BurstOpen()` (R46). -/
def burstOpen : List Event := [.sel, .dc .data]

/-- `BurstClose()` (R46). -/
def burstClose : List Event := [.desel]

/-- What is left of the program becomes `ms`. -/
def State.withTodo (ms : List Micro) (s : State) : State := { s with todo := ms }

/-- ENG_STATE takes a value (R18). -/
def State.withEngState (e : EngState) (s : State) : State := { s with engState := e }

/-- Put statements in front of what is left of the program. -/
def State.push (ms : List Micro) (s : State) : State := s.withTodo (ms ++ s.todo)

/-- The statements that emit the given events in order. -/
def emits (es : List Event) : List Micro := es.map .emit

/-- `SrcRead()` (R41): the oldest byte of the source queue and the state without it; none while the queue is empty, when
the engine waits. -/
def State.srcRead (s : State) : Option (Byte × State) :=
  match s.srcq with
  | [] => none
  | b :: q => some (b, { s with srcq := q })

/-- `raise Fault(code)` (60_exceptions.md R144): FAULT_W0 takes W0, FCODE the code, ENG_STATE is FAULTED, and the request
ends. FAULT itself is read from ENG_STATE (R21). -/
def State.raiseFault (code : FaultCode) (s : State) : State :=
  { s with faultW0 := s.req.w0, fcode := code, engState := .faulted, todo := [] }

/-- The fault code of a rejected descriptor (R142). -/
def decodeFaultCode : DecodeFault → FaultCode
  | .illegalOp => .illegalOp
  | .reservedField => .reservedField

/-- A working register's unspecified value after a reset (R34), cut to the register's width (R27). -/
def freeRegister (n number width : Nat) : Nat := Config.resetRegister n number % 2 ^ width

/-- The working registers and DC_LEVEL after a reset: unspecified (R34, R159), so free values. -/
def State.freeRegisters (s : State) : State :=
  let r := freeRegister s.freeCount
  { s with
    req := ⟨BitVec.ofNat 32 (r 0 32), BitVec.ofNat 32 (r 1 32), BitVec.ofNat 32 (r 2 32), BitVec.ofNat 32 (r 3 32),
      BitVec.ofNat 32 (r 4 32)⟩
    wx := r 5 16
    wy := r 6 16
    ww := r 7 16
    wh := r 8 16
    pcnt := r 9 32
    srem := r 10 32
    cx := r 11 32
    cy := r 12 32
    x0 := r 13 32
    firstg := r 14 1 == 1
    stopped := r 15 1 == 1
    col := r 16 3
    row := r 17 3
    gb := BitVec.ofNat 8 (r 18 8)
    dcLevel := if r 19 1 = 0 then .cmd else .data
    freeCount := s.freeCount + 1 }

/-- The reset of the block (R159): an open bracket is closed by one `DESEL`, the request in progress is abandoned, the
queues are emptied, STATUS, FAULT_W0, REQ_INDEX and SEL_OPEN are cleared and ENG_STATE is IDLE. The parameters are kept
(R160). If an exchange is in progress the consumer may take any value (R159). If a request is in progress but no exchange,
the consumer's mode, window and write position may take any value until the next memory write (R161,
93_implementation_defined.md section 2), and its pixel memory is untouched. Otherwise the consumer is untouched. -/
def State.resetBlock (s : State) : State :=
  { (if s.selOpen then s.emit .desel else s).freeRegisters with
    consumer :=
      if s.xferBusy then Consumer.torn s.freeCount
      else if s.engState = .run then { Consumer.torn s.freeCount with gram := s.consumer.gram }
      else s.consumer
    xferBusy := false
    todo := []
    reqq := []
    srcq := []
    fcode := .none
    faultW0 := 0
    reqIndex := 0
    selOpen := false
    engState := .idle }

/-- One micro-operation of the credit is spent. -/
def State.spend (s : State) : State := { s with credit := s.credit.map (· - 1) }

/-- The schedule holds ENGINE and TRANSPORT: the next thing to happen is an input. -/
def State.held (s : State) : Bool := s.credit == some 0

/-- The engine takes a descriptor (R25): when it is idle and the request queue holds at least five words, it removes the
oldest five, latches them, increments REQ_INDEX and enters RUN. The decoding follows in the same move (DESIGN CHOICE,
assumption 21: unsafe). -/
def State.takeDescriptor (s : State) : Option State :=
  match s.engState, s.reqq with
  | .idle, w0 :: w1 :: w2 :: w3 :: w4 :: rest =>
    if s.held then none
    else some { s.spend with req := ⟨w0, w1, w2, w3, w4⟩, reqq := rest, reqIndex := s.reqIndex + 1, engState := .run }
  | _, _ => none

end Sys2Proof.Machine
end

