-- ==== Sys2Proof/Machine/Clipper.lean ====
section
/-! DEFINITION. Machine/Clipper.lean: the address window clipper (40_clipper.md): the commands of SetWindow and its
micro-operation. -/

namespace Sys2Proof.Machine

/-- The events of a SetWindow call that returns `Window(x, y, w, h)` (R90): three commands, the column and page addresses
high byte first, each byte its own transaction. -/
def windowEvents (p : Params) (x y w h : Nat) : List Event :=
  cmdTxn p.cmdCaset
    ++ dataTxn (hi8 x) ++ dataTxn (lo8 x) ++ dataTxn (hi8 (x + w - 1)) ++ dataTxn (lo8 (x + w - 1))
    ++ cmdTxn p.cmdPaset
    ++ dataTxn (hi8 y) ++ dataTxn (lo8 y) ++ dataTxn (hi8 (y + h - 1)) ++ dataTxn (lo8 (y + h - 1))
    ++ cmdTxn p.cmdRamwr

/-- `WX <- x ; WY <- y ; WW <- w ; WH <- h` (R90). -/
def State.loadWindow (x y w h : Nat) (s : State) : State := { s with wx := x, wy := y, ww := w, wh := h }

/-- `SetWindow(x, y, w, h)` (R90) followed by `next n` when it returns a Window of area `n`; when it returns NoOp, nothing
is emitted and nothing follows (R89, R101). -/
def State.setWindow (x y w h : Nat) (next : Nat → List Micro) (s : State) : State :=
  match clip x y w h with
  | .noOp => s
  | .window x y w h => (s.loadWindow x y w h).push (emits (windowEvents s.params x y w h) ++ next (w * h))

end Sys2Proof.Machine
end

