-- ==== Sys2Proof/Machine/Engine.lean ====
section
/-! DEFINITION. Machine/Engine.lean: the engine's micro-operations, one per statement of the pseudocode of 40_clipper.md,
41_pixel_stream.md and 42_glyph.md, and the run of a request's program up to its end or to a point where ENGINE waits: for
a source byte (20_memory.md R41), or, when the schedule holds it, for TRANSPORT or an input. -/

namespace Sys2Proof.Machine

/-- `FillStream(n, v)` (R99). -/
def fillStream (v : Color) (n : Nat) : List Micro :=
  emits burstOpen ++ [.loadPcnt n, .pixels v] ++ emits burstClose

/-- One test of FillStream's loop (R99): while PCNT > 0 the colour is sent, high byte first. -/
def State.pixels (v : Color) (s : State) : State :=
  if s.pcnt = 0 then s else s.push [.emit (.xfer (colorHi v)), .emit (.xfer (colorLo v)), .pixelSent, .pixels v]

/-- One test of DRAW_IMAGE's first loop (R111): while PCNT > 0 a source byte is read and sent verbatim. -/
def State.imageBytes (s : State) : State :=
  if s.pcnt = 0 then s
  else match s.srcRead with
    | none => s.push [.imageBytes]
    | some (b, s') => s'.push [.emit (.xfer b), .imageByteSent, .imageBytes]

/-- One test of DRAW_IMAGE's second loop (R111, R113): while SREM > 0 a source byte is read and discarded. -/
def State.drain (s : State) : State :=
  if s.srem = 0 then s
  else match s.srcRead with
    | none => s.push [.drain]
    | some (_, s') => { s' with srem := s'.srem - 1 }.push [.drain]

/-- `DrawGlyph(c, x, y, fg, bg, s)` (R123): COL is the outer loop. -/
def State.glyph (c x y : Nat) (fg bg : Color) (sc : Nat) (s : State) : State :=
  s.push ((List.range Config.glyphCols).map (.column c x y fg bg sc ·))

/-- One iteration of the COL loop (R123): `GB <- FontRead(c, COL)`, then the ROW loop. -/
def State.column (c x y : Nat) (fg bg : Color) (sc col : Nat) (s : State) : State :=
  { s with col := col, gb := fontRead s.params c col }.push ((List.range Config.glyphRows).map (.cell x y fg bg sc ·))

/-- One iteration of the ROW loop (R122, R123): the cell's rectangle is filled in the foreground when the row is lit, in
the background otherwise. -/
def State.cell (x y : Nat) (fg bg : Color) (sc row : Nat) (s : State) : State :=
  { s with row := row }.push [.fillRect (x + s.col * sc) (y + row * sc) sc sc (if lit s.gb row then fg else bg)]

/-- DRAW_STRING's first lines (R131). -/
def State.beginString (x y len : Nat) (s : State) : State :=
  { s with x0 := x, cx := x, cy := y, firstg := true, stopped := false, srem := len }

/-- Draw a character at the cursor, then advance (R131). -/
def State.drawAtCursor (c : Nat) (fg bg : Color) (sc : Nat) (s : State) : State :=
  s.push [.glyph c s.cx s.cy fg bg sc, .advance (advX sc), .chars fg bg sc]

/-- The body of DRAW_STRING's loop for the character `c` just read (R131): drained after a stop (R137), end of text at
0x00 (R136), skipped without a glyph (R135), wrapped when it is not the first and would reach WRAP_X (R132), stopped when
the wrap reaches WRAP_Y (R133), and otherwise drawn. -/
def State.char (c : Nat) (fg bg : Color) (sc : Nat) (s : State) : State :=
  if s.stopped then s.push [.chars fg bg sc]
  else if c = 0 then { s with stopped := true }.push [.chars fg bg sc]
  else if !hasGlyph c then s.push [.chars fg bg sc]
  else if !s.firstg && Config.wrapX ≤ s.cx + advX sc then
    if Config.wrapY ≤ s.cy + advY sc then
      { s with cx := s.x0, cy := s.cy + advY sc, stopped := true }.push [.chars fg bg sc]
    else { s with cx := s.x0, cy := s.cy + advY sc }.drawAtCursor c fg bg sc
  else s.drawAtCursor c fg bg sc

/-- One test of DRAW_STRING's loop (R131): while SREM > 0 a source byte is read and laid out. -/
def State.chars (fg bg : Color) (sc : Nat) (s : State) : State :=
  if s.srem = 0 then s
  else match s.srcRead with
    | none => s.push [.chars fg bg sc]
    | some (b, s') => { s' with srem := s'.srem - 1 }.char b.toNat fg bg sc

/-- The effect of one statement, already taken off the program. -/
def State.micro (m : Micro) (s : State) : State :=
  match m with
  | .emit e => s.emit e
  | .setWindow x y w h => s.setWindow x y w h (fun _ => [])
  | .fillRect x y w h v => s.setWindow x y w h (fillStream v)
  | .loadPcnt n => { s with pcnt := n }
  | .pixels v => s.pixels v
  | .pixelSent => { s with pcnt := s.pcnt - 1 }
  | .imageBytes => s.imageBytes
  | .imageByteSent => { s with pcnt := s.pcnt - 1, srem := s.srem - 1 }
  | .loadSrem n => { s with srem := n }
  | .drain => s.drain
  | .glyph c x y fg bg sc => s.glyph c x y fg bg sc
  | .column c x y fg bg sc col => s.column c x y fg bg sc col
  | .cell x y fg bg sc row => s.cell x y fg bg sc row
  | .beginString x y len => s.beginString x y len
  | .chars fg bg sc => s.chars fg bg sc
  | .advance ax => { s with cx := s.cx + ax, firstg := false }

/-- The engine's next statement is a SrcRead and the source queue is empty (R41). -/
def State.waitsForSource (s : State) : Bool :=
  s.srcq.isEmpty && !s.xferBusy &&
    match s.todo with
    | .imageBytes :: _ => s.pcnt != 0
    | .drain :: _ => s.srem != 0
    | .chars _ _ _ :: _ => s.srem != 0
    | _ => false

/-- ENGINE or TRANSPORT can perform a micro-operation: a request is in progress (R18), the schedule does not hold it, and
the engine does not wait for a source byte. -/
def State.canRun (s : State) : Bool := s.engState == .run && !s.held && !s.waitsForSource

/-- One micro-operation: TRANSPORT completes the exchange in progress, which the engine waits for (R49); or else the engine
executes the next statement; or, when none is left, the request ends and ENG_STATE is IDLE (R18). -/
def State.microStep (s : State) : State :=
  if s.xferBusy then s.completeXfer
  else match s.todo with
    | [] => s.withEngState .idle
    | m :: rest => (s.withTodo rest).micro m

/-- At most `n` micro-operations, as long as one can be performed. -/
def State.runFor : Nat → State → State
  | 0, s => s
  | n + 1, s => if s.canRun then runFor n s.microStep.spend else s

/-- How many micro-operations one step performs at most: the credit, or, where there is no limit, a number large enough for
every request that does not wait (DESIGN CHOICE, assumption 1). A larger number would change no state a step ends in
there. -/
def State.patience (s : State) : Nat :=
  match s.credit with
  | some n => n
  | none => 2 ^ 24 * (s.srcq.length + 2) + 8 * s.pcnt

/-- ENGINE and TRANSPORT go on with the request in progress until it ends or waits. -/
def State.goOn (s : State) : State := s.runFor s.patience

/-- A request's program (R11) is started and run until it ends or waits. -/
def State.request (program : List Micro) (s : State) : State :=
  ((s.withEngState .run).withTodo program).goOn

end Sys2Proof.Machine
end

