-- ==== Sys2Proof/Machine/Glyph.lean ====
section
/-! DEFINITION. Machine/Glyph.lean: the requests of the glyph rasterizer and line layout (42_glyph.md): DRAW_CHAR and
DRAW_STRING. -/

namespace Sys2Proof.Machine

/-- DRAW_CHAR (R126): a character without a glyph has no effect. -/
def execDrawChar (chr x y : Nat) (fg bg : Color) (scale : Nat) (s : State) : Host.Outcome State Fault Refusal :=
  .next (s.request (if hasGlyph chr then [.glyph chr x y fg bg scale] else []))

/-- DRAW_STRING (R131). -/
def execDrawString (x y : Nat) (fg bg : Color) (scale len : Nat) (s : State) : Host.Outcome State Fault Refusal :=
  .next (s.request [.beginString x y len, .chars fg bg scale])

end Sys2Proof.Machine
end

