-- ==== Sys2Proof/Machine/PixelStream.lean ====
section
/-! DEFINITION. Machine/PixelStream.lean: the requests of the pixel stream writer (41_pixel_stream.md): FILL_RECT,
DRAW_PIXEL, FILL_SCREEN and DRAW_IMAGE. -/

namespace Sys2Proof.Machine

/-- FILL_RECT (R104). -/
def execFillRect (x y w h : Nat) (c : Color) (s : State) : Host.Outcome State Fault Refusal :=
  .next (s.request [.fillRect x y w h c])

/-- DRAW_PIXEL (R106): FillRect of a 1 x 1 rectangle. -/
def execDrawPixel (x y : Nat) (c : Color) (s : State) : Host.Outcome State Fault Refusal :=
  .next (s.request [.fillRect x y 1 1 c])

/-- FILL_SCREEN (R108): FillRect of the whole surface. -/
def execFillScreen (c : Color) (s : State) : Host.Outcome State Fault Refusal :=
  .next (s.request [.fillRect 0 0 Config.surfW Config.surfH c])

/-- The program of a DRAW_IMAGE that has enough bytes (R111): the window and one burst of `need` source bytes, when the
rectangle is drawn, then the drain of the rest. -/
def imageProgram (x y w h len : Nat) : List Micro :=
  [.loadSrem len]
    ++ (if 0 < imageNeed x y w h then
          [.setWindow x y w h] ++ emits burstOpen ++ [.loadPcnt (imageNeed x y w h), .imageBytes] ++ emits burstClose
        else [])
    ++ [.drain]

/-- DRAW_IMAGE (R111): IMAGE_SHORT before any effect when the window needs more bytes than LEN (R114); the fault is in one
move with the taking of the descriptor (DESIGN CHOICE, assumption 21: unsafe). -/
def execDrawImage (x y w h len : Nat) (s : State) : Host.Outcome State Fault Refusal :=
  if len < imageNeed x y w h then .next (s.raiseFault .imageShort) else .next (s.request (imageProgram x y w h len))

end Sys2Proof.Machine
end

