-- ==== Sys2Proof/Machine/Dispatch.lean ====
section
/-! DEFINITION. Machine/Dispatch.lean: the request an opcode selects (30_encoding.md R72), one arm per constructor. -/

namespace Sys2Proof.Machine

def exec (i : Instr) (s : State) : Host.Outcome State Fault Refusal :=
  match i with
  | .fillRect x y w h c => Sys2Proof.Machine.execFillRect x y w h c s
  | .drawPixel x y c => Sys2Proof.Machine.execDrawPixel x y c s
  | .fillScreen c => Sys2Proof.Machine.execFillScreen c s
  | .drawImage x y w h len => Sys2Proof.Machine.execDrawImage x y w h len s
  | .drawChar chr x y fg bg scale => Sys2Proof.Machine.execDrawChar chr x y fg bg scale s
  | .drawString x y fg bg scale len => Sys2Proof.Machine.execDrawString x y fg bg scale len s

end Sys2Proof.Machine
end

