-- ==== Sys2Proof/Machine/Descriptor.lean ====
section
/-! DEFINITION. Machine/Descriptor.lean: what becomes of a descriptor just taken (30_encoding.md R78). -/

namespace Sys2Proof.Machine

/-- A descriptor just taken is decoded (30_encoding.md R78): a legal one is executed, an illegal one raises its fault
before any effect (R74, R75). That the taking, the decoding and a fault that the descriptor raises are one move, within which
no input lands, is the model's choice (DESIGN CHOICE, assumption 21: unsafe). -/
def runDescriptor (s : State) : Host.Outcome State Fault Refusal :=
  match decode s.req with
  | .ok i => exec i s
  | .error e => .next (s.raiseFault (decodeFaultCode e))

end Sys2Proof.Machine
end

