-- ==== Sys2Proof/Machine/Ports.lean ====
section
/-! DEFINITION. Machine/Ports.lean: what the outside does to the block (10_state.md R15): the request, source and status
ports and the reset input (20_memory.md R37, R38), the boot order (70_reset_and_hazards.md R162, R164), and which pending
input lands next. -/

namespace Sys2Proof.Machine

/-- The write waits, because the queue it appends to is full (R24, R26). No other input ever waits (R152). -/
def Input.waits (s : State) : Input → Bool
  | .writeRequest _ => s.params.reqDepth ≤ s.reqq.length
  | .writeSource _ => s.params.srcDepth ≤ s.srcq.length
  | _ => false

/-- The first pending input that does not wait, and the inputs without it. A write waiting on one port holds back the later
writes to that port, which wait too, and nothing else: the ports are independent (R59; DEDUCED, assumption 12: unsafe). -/
def nextInput (s : State) : List Input → Option (Input × List Input)
  | [] => none
  | i :: is =>
    if i.waits s then
      match nextInput s is with
      | none => none
      | some (j, js) => some (j, i :: js)
    else some (i, is)

/-- The effect of an input. A reset is one instantaneous event: the reset input is asserted and released at once (DESIGN
CHOICE, assumption 20: unsafe), because the spec gives no effect of a reset held asserted (R158, R162 step 3). -/
def Input.land (i : Input) (s : State) : Host.Outcome State Fault Refusal :=
  match i with
  | .writeRequest w => if s.seqReady then .next { s with reqq := s.reqq ++ [w] } else .refused .descriptorBeforeReady
  | .writeSource b => .next { s with srcq := s.srcq ++ [b] }
  | .readStatus index => .next { s with hostReads := s.hostReads ++ [s.statusPort index] }
  | .reset => .next s.resetBlock
  | .bootSequencer =>
    if s.busy then .refused .sequencerWhileBusy
    else if s.seqReady then .refused .sequencerTwice
    else .next { s with seqReady := true }
  | .resume n => .next { s with credit := n }

/-- The next input lands; when there is none that does not wait, nothing happens and the state stays as it is (DESIGN CHOICE,
assumption 14: safe). -/
def State.landInput (s : State) : Host.Outcome State Fault Refusal :=
  match nextInput s s.inputs with
  | none => .next s
  | some (i, rest) => i.land { s with inputs := rest }

end Sys2Proof.Machine
end

