-- ==== Sys2Proof/Machine/Step.lean ====
section
/-! DEFINITION. Machine/Step.lean: one step of the machine. -/

namespace Sys2Proof.Machine

/-- One step: the request in progress goes on if it can; or else the engine takes a descriptor if it can (10_state.md R25)
and executes it until it ends or waits; or else the next input lands. -/
def step (s : State) : Host.Outcome State Fault Refusal :=
  if s.canRun then .next s.goOn
  else match s.takeDescriptor with
    | some t => runDescriptor t
    | none => s.landInput

/-- `s` with the descriptor whose low `nbits` bits are `w`, and whose other bits are 0, at the head of the request queue,
and the engine idle and not held, so that the next step takes and runs exactly that descriptor. -/
def State.withFetchWord (s : State) (nbits w : Nat) : State :=
  { s with
    reqq := (Desc.ofNat (w % 2 ^ nbits)).words ++ s.reqq.drop 5
    engState := .idle
    todo := []
    xferBusy := false
    credit := none }

end Sys2Proof.Machine
end

