-- ==== Sys2Proof/Machine/Assembler.lean ====
section
/-! DEFINITION. Machine/Assembler.lean: the assembler of 30_encoding.md section 4 (R79 to R82) and its pseudo-instructions
(R86): the tokens and lines of the text, what each line yields for the two ports, and a program as the host writes it. It
is notation: nothing in the block reads it. -/

namespace Sys2Proof.Machine

/-- What a program yields: words for the request port and bytes for the source port, each in the order written (R81). -/
structure AsmOutput where
  words : List Word
  bytes : List Byte
  deriving DecidableEq, Repr

/-- The tokens of a line. -/
inductive Token where
  /-- A mnemonic, a directive or `RGB`. -/
  | name (cs : List Char)
  /-- A decimal or hexadecimal number (R80). -/
  | num (n : Nat)
  /-- A character operand `'A'`: its ASCII code (R80). -/
  | chr (n : Nat)
  /-- A `"text"` operand: byte values (R80). -/
  | text (bs : List Byte)
  | comma
  | lparen
  | rparen
  | lbrace
  | rbrace
  deriving DecidableEq, Repr

/-- The value of a hexadecimal digit. -/
def hexDigit (c : Char) : Option Nat :=
  if '0' ≤ c ∧ c ≤ '9' then some (c.toNat - 48)
  else if 'a' ≤ c ∧ c ≤ 'f' then some (c.toNat - 87)
  else if 'A' ≤ c ∧ c ≤ 'F' then some (c.toNat - 55)
  else none

/-- The value of a decimal digit. -/
def decDigit (c : Char) : Option Nat := if '0' ≤ c ∧ c ≤ '9' then some (c.toNat - 48) else none

/-- Digits of a base, most significant first, after the value `acc`. -/
def digits (digit : Char → Option Nat) (base : Nat) : List Char → Nat → Option Nat
  | [], acc => some acc
  | c :: cs, acc => (digit c).bind fun d => digits digit base cs (acc * base + d)

/-- A number: decimal or hexadecimal (R80). -/
def number : List Char → Option Nat
  | [] => none
  | [c] => decDigit c
  | c :: d :: cs =>
    if c = '0' ∧ d = 'x' then if cs.isEmpty then none else digits hexDigit 16 cs 0 else digits decDigit 10 (c :: d :: cs) 0

/-- A character of a name or of a number. -/
def isWordChar (c : Char) : Bool := c.isAlphanum || c == '_' || c == '.'

/-- The token a run of word characters stands for: a number when it begins with a digit. -/
def wordToken (cs : List Char) : Option Token :=
  match cs with
  | [] => none
  | c :: _ => if (decDigit c).isSome then (number cs).map .num else some (.name cs)

/-- The bytes of a text after its opening quote, and what follows the closing quote (R80): ASCII characters, with `\xHH`
for any byte. -/
def textBytes : List Char → Option (List Byte × List Char)
  | [] => none
  | c :: cs =>
    if c = '"' then some ([], cs)
    else if c = '\\' then
      match cs with
      | x :: h :: l :: rest =>
        if x = 'x' then
          (hexDigit h).bind fun a => (hexDigit l).bind fun b => (textBytes rest).map fun (bs, r) =>
            (BitVec.ofNat 8 (a * 16 + b) :: bs, r)
        else none
      | _ => none
    else if c.toNat < 128 then (textBytes cs).map fun (bs, r) => (BitVec.ofNat 8 c.toNat :: bs, r)
    else none

/-- The punctuation tokens; the braces are written by their codes. -/
def punctuation (c : Char) : Option Token :=
  if c = ',' then some .comma
  else if c = '(' then some .lparen
  else if c = ')' then some .rparen
  else if c.toNat = 123 then some .lbrace
  else if c.toNat = 125 then some .rbrace
  else none

/-- The tokens of a line (R79): a `;` starts a comment to the end of the line. Inside a text or a character operand a `;`
stands for itself (DESIGN CHOICE, assumption 11: unsafe). The first argument bounds the number of tokens. -/
def tokens : Nat → List Char → Option (List Token)
  | _, [] => some []
  | 0, _ :: _ => none
  | n + 1, c :: cs =>
    if c = ';' then some []
    else if c.isWhitespace then tokens n cs
    else if c = '"' then (textBytes cs).bind fun (bs, rest) => (tokens n rest).map (Token.text bs :: ·)
    else if c = '\'' then
      match cs with
      | a :: q :: rest => if q = '\'' ∧ a.toNat < 128 then (tokens n rest).map (Token.chr a.toNat :: ·) else none
      | _ => none
    else if isWordChar c then
      (wordToken ((c :: cs).takeWhile isWordChar)).bind fun t =>
        (tokens n ((c :: cs).dropWhile isWordChar)).map (t :: ·)
    else (punctuation c).bind fun t => (tokens n cs).map (t :: ·)

/-- An operand of a line (R79, R80). -/
inductive Operand where
  | num (n : Nat)
  | chr (n : Nat)
  | rgb (r g b : Nat)
  | text (bs : List Byte)
  | bytes (ns : List Nat)
  deriving DecidableEq, Repr

/-- Numbers separated by commas up to a closing brace, and what follows it. -/
def braceNumbers : List Token → Option (List Nat × List Token)
  | .rbrace :: ts => some ([], ts)
  | .num n :: .rbrace :: ts => some ([n], ts)
  | .num n :: .comma :: .num m :: ts => (braceNumbers (.num m :: ts)).map fun (ns, r) => (n :: ns, r)
  | _ => none

/-- One operand and the tokens after it. -/
def operand : List Token → Option (Operand × List Token)
  | .num n :: ts => some (.num n, ts)
  | .chr n :: ts => some (.chr n, ts)
  | .text bs :: ts => some (.text bs, ts)
  | .name cs :: .lparen :: .num r :: .comma :: .num g :: .comma :: .num b :: .rparen :: ts =>
    if cs = ['R', 'G', 'B'] then some (.rgb r g b, ts) else none
  | .lbrace :: ts => (braceNumbers ts).map fun (ns, r) => (.bytes ns, r)
  | _ => none

/-- Operands separated by commas up to the end of the line. The first argument bounds their number. -/
def operands : Nat → List Token → Option (List Operand)
  | _, [] => some []
  | 0, _ :: _ => none
  | n + 1, ts =>
    (operand ts).bind fun (o, rest) =>
      match rest with
      | [] => some [o]
      | .comma :: t :: rest' => (operands n (t :: rest')).map (o :: ·)
      | _ => none

/-- A number that fits a width; one that does not is an assembly error, with no truncation (R80). -/
def numIn (width : Nat) : Operand → Option Nat
  | .num n => if n < 2 ^ width then some n else none
  | _ => none

/-- A colour operand: a 16-bit number, or `RGB(r, g, b)` of three bytes (R80, R84; that a channel must fit is DEDUCED,
assumption 19: unsafe). -/
def colorIn : Operand → Option Color
  | .num n => if n < 2 ^ 16 then some (BitVec.ofNat 16 n) else none
  | .rgb r g b =>
    if r < 2 ^ 8 ∧ g < 2 ^ 8 ∧ b < 2 ^ 8 then some (rgb565 (BitVec.ofNat 8 r) (BitVec.ofNat 8 g) (BitVec.ofNat 8 b)) else none
  | _ => none

/-- A character operand: an 8-bit number or `'A'` (R80). -/
def charIn : Operand → Option Nat
  | .chr n => if n < 2 ^ 8 then some n else none
  | .num n => if n < 2 ^ 8 then some n else none
  | _ => none

/-- Byte values, each of which fits 8 bits. -/
def byteList : List Nat → Option (List Byte)
  | [] => some []
  | n :: ns => if n < 2 ^ 8 then (byteList ns).map (BitVec.ofNat 8 n :: ·) else none

/-- The numbers among the operands of a `.src` line. -/
def numberList : List Operand → Option (List Nat)
  | [] => some []
  | .num n :: os => (numberList os).map (n :: ·)
  | _ => none

/-- The output of a request with the source bytes it carries: its descriptor's five words (R81). -/
def requestOutput (i : Instr) (bytes : List Byte) : AsmOutput := ⟨(encode i).words, bytes⟩

/-- `HLINE x, y, len, color` is `FILL_RECT x, y, len, 1, color` (R86). -/
def hline (x y len : Nat) (c : Color) : Instr := .fillRect x y len 1 c

/-- `VLINE x, y, len, color` is `FILL_RECT x, y, 1, len, color` (R86). -/
def vline (x y len : Nat) (c : Color) : Instr := .fillRect x y 1 len c

/-- The lines of the assembler (R79, R82, R86): what a mnemonic or a directive with its operands yields; none is an assembly
error. A raw word must fit 32 bits and the number of bytes of a line its LEN field (DEDUCED, assumption 19: unsafe). -/
def assembleLine (name : List Char) (os : List Operand) : Option AsmOutput :=
  match os with
  | [x, y, w, h, c] =>
    if name = "FILL_RECT".toList then do
      return requestOutput (.fillRect (← numIn 16 x) (← numIn 16 y) (← numIn 16 w) (← numIn 16 h) (← colorIn c)) []
    else if name = "DRAW_IMAGE".toList then
      match c with
      | .bytes ns => do
        let bs ← byteList ns
        if bs.length < 2 ^ 32 then
          return requestOutput (.drawImage (← numIn 16 x) (← numIn 16 y) (← numIn 16 w) (← numIn 16 h) bs.length) bs
        else none
      | _ => none
    else srcLine name os
  | [x, y, c] =>
    if name = "DRAW_PIXEL".toList then do return requestOutput (.drawPixel (← numIn 16 x) (← numIn 16 y) (← colorIn c)) []
    else srcLine name os
  | [c] =>
    if name = "FILL_SCREEN".toList then do return requestOutput (.fillScreen (← colorIn c)) []
    else if name = ".word".toList then do return ⟨[BitVec.ofNat 32 (← numIn 32 c)], []⟩
    else srcLine name os
  | [c, x, y, fg, bg, sc] =>
    if name = "DRAW_CHAR".toList then do
      return requestOutput
        (.drawChar (← charIn c) (← numIn 16 x) (← numIn 16 y) (← colorIn fg) (← colorIn bg) (← numIn 8 sc)) []
    else if name = "DRAW_STRING".toList then
      match c with
      | .text bs =>
        if bs.length < 2 ^ 32 then do
          return requestOutput
            (.drawString (← numIn 16 x) (← numIn 16 y) (← colorIn fg) (← colorIn bg) (← numIn 8 sc) bs.length) bs
        else none
      | _ => none
    else srcLine name os
  | [x, y, len, c] =>
    if name = "HLINE".toList then do
      return requestOutput (hline (← numIn 16 x) (← numIn 16 y) (← numIn 16 len) (← colorIn c)) []
    else if name = "VLINE".toList then do
      return requestOutput (vline (← numIn 16 x) (← numIn 16 y) (← numIn 16 len) (← colorIn c)) []
    else srcLine name os
  | _ => srcLine name os
where
  /-- `.src b0, b1, ...`: bytes for the source port without a descriptor (R82). -/
  srcLine (name : List Char) (os : List Operand) : Option AsmOutput :=
    if name = ".src".toList ∧ os ≠ [] then do return ⟨[], ← byteList (← numberList os)⟩ else none

/-- The output of one line of text; an empty line yields nothing. -/
def assembleText (line : List Char) : Option AsmOutput :=
  match tokens line.length line with
  | some [] => some ⟨[], []⟩
  | some (.name cs :: ts) => (operands ts.length ts).bind (assembleLine cs)
  | _ => none

/-- The output of a program: the concatenation, in line order, of what its lines yield (R81). -/
def assemble : List (List Char) → Option AsmOutput
  | [] => some ⟨[], []⟩
  | l :: ls =>
    (assembleText l).bind fun a => (assemble ls).map fun b => ⟨a.words ++ b.words, a.bytes ++ b.bytes⟩

/-- The host's writes of a program's output: first the words, then the bytes. Any order that keeps each port's own order
gives the same trace (R59). -/
def AsmOutput.writes (a : AsmOutput) : List Input := a.words.map .writeRequest ++ a.bytes.map .writeSource

end Sys2Proof.Machine
end

