-- ==== Sys2Proof/Safety.lean ====
section
/-! DEFINITION. Safety.lean: the terms the claims are stated in. The traces a request has to emit, written from the byte
sequences of the spec and not from the engine's micro-operations; where a string's characters are drawn; what each
kind of request may change; how an interrupted request goes on; the lines of the assembler; the bracket discipline of a trace (20_memory.md R47); and the
invariant of the machine. -/

namespace Sys2Proof.Machine

/-! ### What reaches the transport -/

/-- The transferred bytes of a trace (R48): the values of its `XFER` events, in order. -/
def transferred : List Event → List Byte
  | [] => []
  | .xfer b :: es => b :: transferred es
  | _ :: es => transferred es

/-- One-byte transactions, one per framed byte (R45). -/
def transactions (bs : List (Level × Byte)) : List Event :=
  bs.flatMap fun lb => [.sel, .dc lb.1, .xfer lb.2, .desel]

/-- The eleven framed bytes of a window (R90, R94): three commands, and start and end of the columns and of the pages, high
byte first (R50). -/
def windowBytes (p : Params) (x y w h : Nat) : List (Level × Byte) :=
  [(.cmd, p.cmdCaset), (.data, hi8 x), (.data, lo8 x), (.data, hi8 (x + w - 1)), (.data, lo8 (x + w - 1)),
   (.cmd, p.cmdPaset), (.data, hi8 y), (.data, lo8 y), (.data, hi8 (y + h - 1)), (.data, lo8 (y + h - 1)),
   (.cmd, p.cmdRamwr)]

/-- A pixel burst (R46). -/
def burst (bs : List Byte) : List Event := [.sel, .dc .data] ++ bs.map .xfer ++ [.desel]

/-- `n` pixels of one colour, each high byte first (R51). -/
def pixelBytes (n : Nat) (v : Color) : List Byte := (List.replicate n [colorHi v, colorLo v]).flatten

/-- The events of a rectangle filled with one colour (R102): none when the clip is a NoOp; otherwise the window and one
burst of exactly the window's area. -/
def fillTrace (p : Params) (x y w h : Nat) (v : Color) : List Event :=
  match clip x y w h with
  | .noOp => []
  | .window x y w h => transactions (windowBytes p x y w h) ++ burst (pixelBytes (w * h) v)

/-- The events of an image (R111): the window and one burst of the first `need` source bytes. -/
def imageTrace (p : Params) (x y w h : Nat) (src : List Byte) : List Event :=
  match clip x y w h with
  | .noOp => []
  | .window x' y' w' h' => transactions (windowBytes p x' y' w' h') ++ burst (src.take (imageNeed x y w h))

/-- The events of a glyph (R122, R123): its 25 cells, columns outer and rows inner (R124), each in the foreground or the
background (R125). -/
def glyphTrace (p : Params) (c x y : Nat) (fg bg : Color) (sc : Nat) : List Event :=
  [0, 1, 2, 3, 4].flatMap fun col => [0, 1, 2, 3, 4].flatMap fun row =>
    fillTrace p (x + col * sc) (y + row * sc) sc sc (if lit (fontRead p c col) row then fg else bg)

/-- The command bytes of a trace (R98): the bytes transferred with framing CMD, in order. The first argument is the framing
before the trace. -/
def commandBytes : Level → List Event → List Byte
  | _, [] => []
  | _, .dc l :: es => commandBytes l es
  | .cmd, .xfer b :: es => b :: commandBytes .cmd es
  | l, _ :: es => commandBytes l es

/-- A reserved field of the descriptor is not zero, by the table of R73, for a legal OP. The fields of W0 are OP in bits 7:0,
SCALE in 15:8, CHR in 23:16 and RSV0 in 31:24; C1 is the high half of W3 (R69). -/
def reservedNonzero (d : Desc) : Prop :=
  (d.w0.toNat % 256 = 1 ∧ (256 ≤ d.w0.toNat ∨ 65536 ≤ d.w3.toNat ∨ d.w4 ≠ 0)) ∨
  (d.w0.toNat % 256 = 2 ∧ (256 ≤ d.w0.toNat ∨ d.w2 ≠ 0 ∨ 65536 ≤ d.w3.toNat ∨ d.w4 ≠ 0)) ∨
  (d.w0.toNat % 256 = 3 ∧ (256 ≤ d.w0.toNat ∨ d.w1 ≠ 0 ∨ d.w2 ≠ 0 ∨ 65536 ≤ d.w3.toNat ∨ d.w4 ≠ 0)) ∨
  (d.w0.toNat % 256 = 4 ∧ (256 ≤ d.w0.toNat ∨ d.w3 ≠ 0)) ∨
  (d.w0.toNat % 256 = 5 ∧ (2 ^ 24 ≤ d.w0.toNat ∨ d.w2 ≠ 0 ∨ d.w4 ≠ 0)) ∨
  (d.w0.toNat % 256 = 6 ∧ (65536 ≤ d.w0.toNat ∨ d.w2 ≠ 0))

/-! ### The line layout -/

/-- The cursor of a string (R129), with the flags of R27. -/
structure Cursor where
  x0 : Nat
  cx : Nat
  cy : Nat
  firstg : Bool
  stopped : Bool
  deriving DecidableEq, Repr

/-- The cursor at the start of a string (R129, R131). -/
def Cursor.start (x y : Nat) : Cursor := ⟨x, x, y, true, false⟩

/-- Where the character would be drawn, after the wrap test (R132), which the first drawn character is exempt from. -/
def Cursor.wrapped (sc : Nat) (k : Cursor) : Cursor :=
  if !k.firstg && 320 ≤ k.cx + (5 * sc + 1) then { k with cx := k.x0, cy := k.cy + (5 * sc + 2) } else k

/-- A character wraps the cursor to the stop bound (R133). -/
def Cursor.stops (sc : Nat) (k : Cursor) : Bool :=
  !k.firstg && 320 ≤ k.cx + (5 * sc + 1) && 240 ≤ k.cy + (5 * sc + 2)

/-- The cursor after one character of the string (R131): unchanged after a stop (R137); stopped at 0x00 (R136); unchanged by
a character without a glyph (R135); stopped by a wrap to the stop bound (R133); otherwise past the drawn character (R130). -/
def Cursor.after (sc : Nat) (k : Cursor) (c : Byte) : Cursor :=
  if k.stopped then k
  else if c = 0 then { k with stopped := true }
  else if !hasGlyph c.toNat then k
  else if k.stops sc then { k.wrapped sc with stopped := true }
  else { k.wrapped sc with cx := (k.wrapped sc).cx + (5 * sc + 1), firstg := false }

/-- The character is drawn (R131). -/
def Cursor.draws (sc : Nat) (k : Cursor) (c : Byte) : Bool :=
  !k.stopped && c != 0 && hasGlyph c.toNat && !k.stops sc

/-- The cursor after the characters of a string. -/
def Cursor.afterAll (sc : Nat) (k : Cursor) (cs : List Byte) : Cursor := cs.foldl (Cursor.after sc) k

/-- The characters of a string that are drawn, each with the origin passed to DrawGlyph, in order. -/
def layout (sc : Nat) : Cursor → List Byte → List (Byte × Nat × Nat)
  | _, [] => []
  | k, c :: cs =>
    if k.draws sc c then (c, (k.wrapped sc).cx, (k.wrapped sc).cy) :: layout sc (k.after sc c) cs
    else layout sc (k.after sc c) cs

/-- The events of a string: the glyphs of its layout, in order (R131). -/
def stringTrace (p : Params) (x y : Nat) (fg bg : Color) (sc : Nat) (cs : List Byte) : List Event :=
  (layout sc (.start x y) cs).flatMap fun g => glyphTrace p g.1.toNat g.2.1 g.2.2 fg bg sc

/-! ### What a request may change -/

/-- The consumer, with the level of the data/command line, after an event (R65, R67). -/
def observe (p : Params) (lc : Level × Consumer) (e : Event) : Level × Consumer :=
  match e with
  | .dc l => (l, lc.2)
  | .xfer b => (lc.1, lc.2.receive p lc.1 b)
  | _ => lc

/-- The consumer of a state, with the line level, after the events of a trace. -/
def State.observed (s : State) (es : List Event) : Level × Consumer := es.foldl (observe s.params) (s.dcLevel, s.consumer)

/-- `t` is `s` after a request that has ended: everything but the output and the working registers of the clipper and of
the pixel stream is as it was. -/
def FillFrame (s t : State) : Prop :=
  t = { s with
    engState := .idle, todo := [], out := t.out, dcLevel := t.dcLevel, consumer := t.consumer
    wx := t.wx, wy := t.wy, ww := t.ww, wh := t.wh, pcnt := t.pcnt }

/-- As `FillFrame`, and the glyph registers COL, ROW and GB may have changed. -/
def GlyphFrame (s t : State) : Prop :=
  t = { s with
    engState := .idle, todo := [], out := t.out, dcLevel := t.dcLevel, consumer := t.consumer
    wx := t.wx, wy := t.wy, ww := t.ww, wh := t.wh, pcnt := t.pcnt
    col := t.col, row := t.row, gb := t.gb }

/-- As `FillFrame`, and the source queue and SREM may have changed. -/
def ImageFrame (s t : State) : Prop :=
  t = { s with
    engState := .idle, todo := [], out := t.out, dcLevel := t.dcLevel, consumer := t.consumer
    wx := t.wx, wy := t.wy, ww := t.ww, wh := t.wh, pcnt := t.pcnt
    srcq := t.srcq, srem := t.srem }

/-- As `GlyphFrame`, and the source queue, SREM and the cursor registers may have changed. -/
def StringFrame (s t : State) : Prop :=
  t = { s with
    engState := .idle, todo := [], out := t.out, dcLevel := t.dcLevel, consumer := t.consumer
    wx := t.wx, wy := t.wy, ww := t.ww, wh := t.wh, pcnt := t.pcnt
    col := t.col, row := t.row, gb := t.gb
    srcq := t.srcq, srem := t.srem
    cx := t.cx, cy := t.cy, x0 := t.x0, firstg := t.firstg, stopped := t.stopped }

/-- The state a request starts from when nothing interrupts it: no input is scheduled inside it, no exchange is in progress,
and no bracket is open, as between requests (R29). -/
abbrev State.free (s : State) : Prop := s.credit = none ∧ s.xferBusy = false ∧ s.selOpen = false

/-- `t` differs from `s` in the working registers of R27 (the latched descriptor apart) and in nothing else. -/
def SameButWorkingRegisters (s t : State) : Prop :=
  t = { s with
    wx := t.wx, wy := t.wy, ww := t.ww, wh := t.wh, pcnt := t.pcnt, srem := t.srem, cx := t.cx, cy := t.cy, x0 := t.x0
    firstg := t.firstg, stopped := t.stopped, col := t.col, row := t.row, gb := t.gb }

/-- The source bytes a request consumes when it does not fault (R42): LEN for DRAW_IMAGE and DRAW_STRING, none for the
others. -/
def sourceBytes : Instr → Nat
  | .drawImage _ _ _ _ len => len
  | .drawString _ _ _ _ _ len => len
  | _ => 0

/-- The request does not raise IMAGE_SHORT (R114), and the source queue holds the bytes it consumes. -/
def supplied (i : Instr) (s : State) : Prop :=
  sourceBytes i ≤ s.srcq.length ∧ ∀ x y w h len, i = .drawImage x y w h len → imageNeed x y w h ≤ len

/-! ### Interrupted requests -/

/-- What becomes of a request that has been interrupted: if it is still in progress, one step runs it to its end in `t` (R18);
if it had ended, the state is `t`. -/
def State.endsIn (s t : State) : Prop := (s.engState = .run → step s = .next t) ∧ (s.engState ≠ .run → s = t)

/-- HOST's source bytes come in bunches (R26, R59): each is added to SRCQ, and the request, if it is still in progress, goes on
with it by one step, until it ends or waits for the next (R41). -/
def State.refill : List (List Byte) → State → Host.Outcome State Fault Refusal
  | [], s => .next s
  | b :: bs, s =>
    if s.engState = .run then
      match step { s with srcq := s.srcq ++ b } with
      | .next t => t.refill bs
      | o => o
    else { s with srcq := s.srcq ++ b }.refill bs

/-- `n` steps of the machine. -/
def State.stepsFor : Nat → State → Host.Outcome State Fault Refusal
  | 0, s => .next s
  | n + 1, s =>
    match step s with
    | .next t => t.stepsFor n
    | o => o

/-! ### The assembler's lines -/

/-- A colour operand and the colour it means (30_encoding.md R80): a 16-bit number, or `RGB(r, g, b)` of 8-bit channels
(R84). -/
inductive ColorOperand : Operand → Color → Prop where
  | num {n : Nat} (fits : n < 65536) : ColorOperand (.num n) (BitVec.ofNat 16 n)
  | rgb {r g b : Nat} (fitsR : r < 256) (fitsG : g < 256) (fitsB : b < 256) :
    ColorOperand (.rgb r g b) (BitVec.ofNat 16 (r / 8 * 2048 + g / 4 * 32 + b / 8))

/-- A character operand and the code it means (R80): an 8-bit number, or a character. -/
inductive CharOperand : Operand → Nat → Prop where
  | num {n : Nat} (fits : n < 256) : CharOperand (.num n) n
  | chr {n : Nat} (fits : n < 256) : CharOperand (.chr n) n

/-- The lines of the assembler and what each yields (R79 to R82, R86): the words of the request that the operands spell, in
the operand order of R79, and the source bytes that the line lists. Every operand fits its field (R80). -/
inductive Assembles : List Char → List Operand → AsmOutput → Prop where
  | fillRect {x y w h : Nat} {c : Operand} {v : Color} (hx : x < 65536) (hy : y < 65536) (hw : w < 65536) (hh : h < 65536)
    (hc : ColorOperand c v) :
    Assembles "FILL_RECT".toList [.num x, .num y, .num w, .num h, c] ⟨(encode (.fillRect x y w h v)).words, []⟩
  | drawPixel {x y : Nat} {c : Operand} {v : Color} (hx : x < 65536) (hy : y < 65536) (hc : ColorOperand c v) :
    Assembles "DRAW_PIXEL".toList [.num x, .num y, c] ⟨(encode (.drawPixel x y v)).words, []⟩
  | fillScreen {c : Operand} {v : Color} (hc : ColorOperand c v) :
    Assembles "FILL_SCREEN".toList [c] ⟨(encode (.fillScreen v)).words, []⟩
  | drawImage {x y w h : Nat} {ns : List Nat} (hx : x < 65536) (hy : y < 65536) (hw : w < 65536) (hh : h < 65536)
    (hb : ∀ n ∈ ns, n < 256) (hl : ns.length < 2 ^ 32) :
    Assembles "DRAW_IMAGE".toList [.num x, .num y, .num w, .num h, .bytes ns]
      ⟨(encode (.drawImage x y w h ns.length)).words, ns.map (BitVec.ofNat 8)⟩
  | drawChar {x y sc k : Nat} {c fg bg : Operand} {f b : Color} (hk : CharOperand c k) (hx : x < 65536) (hy : y < 65536)
    (hf : ColorOperand fg f) (hb : ColorOperand bg b) (hs : sc < 256) :
    Assembles "DRAW_CHAR".toList [c, .num x, .num y, fg, bg, .num sc] ⟨(encode (.drawChar k x y f b sc)).words, []⟩
  | drawString {x y sc : Nat} {bs : List Byte} {fg bg : Operand} {f b : Color} (hl : bs.length < 2 ^ 32) (hx : x < 65536)
    (hy : y < 65536) (hf : ColorOperand fg f) (hb : ColorOperand bg b) (hs : sc < 256) :
    Assembles "DRAW_STRING".toList [.text bs, .num x, .num y, fg, bg, .num sc]
      ⟨(encode (.drawString x y f b sc bs.length)).words, bs⟩
  | hline {x y len : Nat} {c : Operand} {v : Color} (hx : x < 65536) (hy : y < 65536) (hl : len < 65536)
    (hc : ColorOperand c v) :
    Assembles "HLINE".toList [.num x, .num y, .num len, c] ⟨(encode (.fillRect x y len 1 v)).words, []⟩
  | vline {x y len : Nat} {c : Operand} {v : Color} (hx : x < 65536) (hy : y < 65536) (hl : len < 65536)
    (hc : ColorOperand c v) :
    Assembles "VLINE".toList [.num x, .num y, .num len, c] ⟨(encode (.fillRect x y 1 len v)).words, []⟩
  | src {ns : List Nat} (hn : ns ≠ []) (hb : ∀ n ∈ ns, n < 256) :
    Assembles ".src".toList (ns.map .num) ⟨[], ns.map (BitVec.ofNat 8)⟩
  | word {v : Nat} (hv : v < 2 ^ 32) : Assembles ".word".toList [.num v] ⟨[BitVec.ofNat 32 v], []⟩

/-! ### The bracket discipline and the invariant -/

/-- Where a trace stands with respect to chip-select brackets (R47). -/
inductive Bracket where
  /-- Outside a bracket. -/
  | closed
  /-- After `SEL`, before the bracket's `DC`. -/
  | selected
  /-- After the bracket's `DC`. -/
  | framed (l : Level)
  /-- The discipline has been broken. -/
  | broken
  deriving DecidableEq, Repr

/-- The bracket position after an event. A bracket may be closed before its `DC`, as by a reset (R159). -/
def Bracket.after : Bracket → Event → Bracket
  | .closed, .sel => .selected
  | .selected, .dc l => .framed l
  | .selected, .desel => .closed
  | .framed l, .xfer _ => .framed l
  | .framed _, .desel => .closed
  | _, _ => .broken

/-- The bracket position at the end of a trace. -/
def bracketOf (es : List Event) : Bracket := es.foldl Bracket.after .closed

/-- The bracket position after a statement has been executed to its end: a loop over pixel bytes runs inside a burst,
register loads run anywhere, and every other statement runs between brackets. -/
def Bracket.afterMicro (b : Bracket) (m : Micro) : Bracket :=
  match m with
  | .emit e => b.after e
  | .pixels _ | .imageBytes => if b = .framed .data then b else .broken
  | .loadPcnt _ | .pixelSent | .imageByteSent | .loadSrem _ | .beginString .. | .advance _ => b
  | .setWindow .. | .fillRect .. | .drain | .glyph .. | .column .. | .cell .. | .chars .. => if b = .closed then b else .broken

/-- Inside a bracket. -/
def Bracket.isOpen : Bracket → Bool
  | .selected | .framed _ => true
  | .closed | .broken => false

/-- The invariant of the machine. -/
structure State.Inv (s : State) : Prop where
  /-- The queue depths are legal (R7). -/
  params : s.params.wf
  /-- REQQ holds at most REQ_FIFO_DEPTH words (R24). -/
  reqq : s.reqq.length ≤ s.params.reqDepth
  /-- SRCQ holds at most SRC_FIFO_DEPTH bytes (R26). -/
  srcq : s.srcq.length ≤ s.params.srcDepth
  /-- Outside RUN no program is in progress and no exchange either (R16, R18). -/
  quiet : s.engState ≠ .run → s.todo = [] ∧ s.xferBusy = false
  /-- A fault code is held exactly in FAULTED (R21). -/
  code : s.fcode = .none ↔ s.engState ≠ .faulted
  /-- FAULT_W0 is 0 until a fault is raised (R22). -/
  w0 : s.engState ≠ .faulted → s.faultW0 = 0
  /-- The trace obeys the bracket discipline, and what is left of the program ends outside a bracket (R47). -/
  brackets : s.todo.foldl Bracket.afterMicro (bracketOf s.trace) = .closed
  /-- SEL_OPEN is 1 exactly inside a bracket (R29). -/
  selOpen : s.selOpen = (bracketOf s.trace).isOpen
  /-- DC_LEVEL is the level of the open bracket (R29). -/
  level : ∀ l, bracketOf s.trace = .framed l → s.dcLevel = l
  /-- An exchange in progress is that of the last event of the trace (R49). -/
  exchange : s.xferBusy = true → ∃ b, s.trace.getLast? = some (.xfer b)
  /-- The consumer's pixel memory is in its canonical form (R64). -/
  gram : Gram.wf s.consumer.gram = true

/-- A result is an invariant state whenever it is a next state. -/
def keepsInv (o : Host.Outcome State Fault Refusal) : Prop := ∀ t, o = .next t → t.Inv

end Sys2Proof.Machine
end

