-- ==== Sys2Proof/Certificates/Slice0/Obligations.lean ====
section
/-! DEFINITION. Certificates/Slice0/Obligations.lean: the statements about this model. Each docstring names the rules of
spec/ the statement formalises. -/

open Sys2Proof Sys2Proof.Machine

/-! ### Encoding -/

/-- One descriptor of each opcode decodes to its request, and an illegal and a reserved one are rejected. The words are those
of 95_test_vectors.md: FILL_RECT and DRAW_PIXEL of section 2.2, FILL_SCREEN of section 3 (P4), DRAW_IMAGE of sections 2.3 and
3 (P3), DRAW_CHAR of section 2.4 (W0 and W1; the later words by R69), DRAW_STRING of section 3 (P5), the two rejected ones of
section 2.6 (R74, R75). -/
def Obligations.SpecDescriptorsDecode : Prop :=
  decode ⟨0x00000001, 0x013600E6, 0x00140014, 0x000007E0, 0x00000000⟩ = .ok (.fillRect 230 310 20 20 0x07E0) ∧
  decode ⟨0x00000002, 0x01340012, 0x00000000, 0x0000F800, 0x00000000⟩ = .ok (.drawPixel 18 308 0xF800) ∧
  decode ⟨0x00000003, 0x00000000, 0x00000000, 0x0000F800, 0x00000000⟩ = .ok (.fillScreen 0xF800) ∧
  decode ⟨0x00000004, 0x000000EE, 0x00020004, 0x00000000, 0x00000010⟩ = .ok (.drawImage 238 0 4 2 16) ∧
  decode ⟨0x00410305, 0x000000EE, 0x00000000, 0x0000FFFF, 0x00000000⟩ = .ok (.drawChar 65 238 0 0xFFFF 0x0000 3) ∧
  decode ⟨0x00000106, 0x00000136, 0x00000000, 0xFFFF0000, 0x00000006⟩ = .ok (.drawString 310 0 0x0000 0xFFFF 1 6) ∧
  decode ⟨0x01000007, 0x00000000, 0x00000000, 0x00000000, 0x00000000⟩ = .error .illegalOp ∧
  decode ⟨0x00410106, 0x00000000, 0x00000000, 0x00000000, 0x00000001⟩ = .error .reservedField

/-- Every request whose operands fit their fields decodes back from its encoding, with every operand as it was
(30_encoding.md sections 1 and 2, R69, R70, R73). -/
def Obligations.EncodedRequestDecodesBack : Prop :=
  ∀ i : Instr, i.wf = true → decode (encode i) = .ok i

/-- Every descriptor that decodes is the encoding of the request it decodes to, and that request's operands fit their
fields: no bit of a legal descriptor is ignored (R69, R70, R73, R75). -/
def Obligations.DecodedDescriptorEncodesBack : Prop :=
  ∀ (d : Desc) (i : Instr), decode d = .ok i → encode i = d ∧ i.wf = true

/-! ### The step -/

/-- When the engine is idle and not held and the request queue begins with the five words of a legal descriptor, a step takes
it (R25: the words are latched, REQ_INDEX advances by one, ENG_STATE is RUN) and executes the request it decodes to. That the
taking and the decoding are one move, which counts as one micro-operation, is the model's choice, log entry 21. -/
def Obligations.StepExecutesDecodedRequest : Prop :=
  ∀ (s : State) (d : Desc) (rest : List Word) (i : Instr),
    s.engState = .idle → s.credit ≠ some 0 → s.reqq = d.words ++ rest → decode d = .ok i →
    step s = exec i { s with
      req := d, reqq := rest, reqIndex := s.reqIndex + 1, engState := .run, credit := s.credit.map (· - 1) }

/-- A descriptor of fewer than five words waits (R25): an idle engine without five words takes nothing, and the step is the
next input's, or, when there is none, leads the state back to itself (that it does is the model's way to wait, log entry
14). -/
def Obligations.IncompleteDescriptorWaits : Prop :=
  ∀ s : State, s.engState = .idle → s.reqq.length < 5 → step s = s.landInput ∧ (s.inputs = [] → step s = .next s)

/-- An OP value outside 1 to 6 raises ILLEGAL_OP at the step that takes the descriptor, whatever its other fields (R74,
R146), and nothing else happens: the fault registers are written and ENG_STATE is FAULTED (R144), no event is emitted and no
source byte consumed. That the taking and the fault are one move, within which no input lands, is the model's choice, log
entry 21. -/
def Obligations.IllegalOpRaisesFault : Prop :=
  ∀ (s : State) (d : Desc) (rest : List Word),
    s.engState = .idle → s.credit ≠ some 0 → s.reqq = d.words ++ rest →
    (d.w0.toNat % 256 = 0 ∨ 6 < d.w0.toNat % 256) →
    step s = .next { s with
      req := d, reqq := rest, reqIndex := s.reqIndex + 1, credit := s.credit.map (· - 1)
      engState := .faulted, fcode := .illegalOp, faultW0 := d.w0, todo := [] }

/-- A legal OP with a nonzero reserved field raises RESERVED_FIELD at the step that takes the descriptor (R75), and nothing
else happens. That the taking and the fault are one move, within which no input lands, is the model's choice, log entry 21. -/
def Obligations.ReservedFieldRaisesFault : Prop :=
  ∀ (s : State) (d : Desc) (rest : List Word),
    s.engState = .idle → s.credit ≠ some 0 → s.reqq = d.words ++ rest → reservedNonzero d →
    step s = .next { s with
      req := d, reqq := rest, reqIndex := s.reqIndex + 1, credit := s.credit.map (· - 1)
      engState := .faulted, fcode := .reservedField, faultW0 := d.w0, todo := [] }

/-- A descriptor that is neither illegal nor has a nonzero reserved field is executed: no value of a used field is illegal
(R75, R76). -/
def Obligations.EveryOtherDescriptorIsLegal : Prop :=
  ∀ d : Desc, 1 ≤ d.w0.toNat % 256 → d.w0.toNat % 256 ≤ 6 → ¬ reservedNonzero d → ∃ i, decode d = .ok i

/-- In FAULTED the engine takes no descriptor and emits no event until reset, and the fault registers keep the first fault's
values (R144, R148, R149): a step whose next input is a reset is that reset, and every other step changes nothing of these;
words and bytes stay queued. -/
def Obligations.OnlyResetLeavesFaulted : Prop :=
  ∀ s t : State, s.engState = .faulted → step s = .next t →
    (∀ rest, nextInput s s.inputs = some (.reset, rest) → t = { s with inputs := rest }.resetBlock) ∧
    ((∀ rest, nextInput s s.inputs ≠ some (.reset, rest)) →
      t.engState = .faulted ∧ t.fcode = s.fcode ∧ t.faultW0 = s.faultW0 ∧ t.trace = s.trace ∧
        t.reqIndex = s.reqIndex ∧ t.consumer = s.consumer ∧ s.reqq <+: t.reqq ∧ s.srcq <+: t.srcq)

/-! ### Reset -/

/-- The state after reset has the values R34 gives. The registers R34 leaves unspecified are not spoken of. -/
def Obligations.ResetValues : Prop :=
  State.reset.engState = .idle ∧ State.reset.status = 0 ∧ State.reset.faultW0 = 0 ∧ State.reset.reqIndex = 0 ∧
  State.reset.reqq = [] ∧ State.reset.srcq = [] ∧ State.reset.selOpen = false ∧ State.reset.params.font = Config.font

/-- The reset of the block (R159): an open bracket is closed by one DESEL and no other event is emitted, the request in
progress is abandoned, the queues and registers of R159 take their values, and the parameters are kept (R160). The two clauses
about the consumer are the model's choice: that it is untouched when no request was in progress (log entry 18), and that its
pixel memory is when no exchange was, a reset in the middle of a request included (log entry 7; 93_implementation_defined.md
section 2 says `any value` of the consumer there). So is that a reset is one instantaneous event (log entry 20). -/
def Obligations.ResetEffect : Prop :=
  ∀ s : State,
    s.resetBlock.trace = (if s.selOpen then s.trace ++ [.desel] else s.trace) ∧
    s.resetBlock.todo = [] ∧ s.resetBlock.xferBusy = false ∧
    s.resetBlock.reqq = [] ∧ s.resetBlock.srcq = [] ∧
    s.resetBlock.status = 0 ∧ s.resetBlock.faultW0 = 0 ∧ s.resetBlock.reqIndex = 0 ∧ s.resetBlock.selOpen = false ∧
    s.resetBlock.engState = .idle ∧ s.resetBlock.params = s.params ∧
    (s.xferBusy = false → s.engState ≠ .run → s.resetBlock.consumer = s.consumer) ∧
    (s.xferBusy = false → s.resetBlock.consumer.gram = s.consumer.gram) ∧
    (∀ rest, s.canRun = false → s.takeDescriptor = none → s.inputs = .reset :: rest →
      step s = .next { s with inputs := rest }.resetBlock)

/-! ### The ports -/

/-- The fields of STATUS (R19), with the codes of R142, and what the two registers of the status port read (R38). -/
def Obligations.StatusFields : Prop :=
  ∀ s : State,
    (s.status.getLsbD 0 = true ↔ s.engState = .run ∨ s.reqq ≠ []) ∧
    (s.status.getLsbD 1 = true ↔ s.engState = .faulted) ∧
    s.status.extractLsb' 2 2 = 0 ∧
    s.status.extractLsb' 4 4 =
      (if s.engState = .faulted then
        match s.fcode with
        | .none => 0
        | .illegalOp => 1
        | .reservedField => 2
        | .imageShort => 3
      else 0) ∧
    s.status.extractLsb' 8 24 = 0 ∧
    s.statusPort 0 = s.status ∧ s.statusPort 1 = s.faultW0

/-- Reading the status port has no side effect and never waits, whatever ENG_STATE is (R23): the host obtains the register's
current value (R38), and everything else stays as it is. -/
def Obligations.StatusReadHasNoSideEffect : Prop :=
  ∀ (s : State) (index : Fin 2) (rest : List Input),
    s.canRun = false → s.takeDescriptor = none → s.inputs = .readStatus index :: rest →
    step s = .next { s with
      inputs := rest, hostReads := s.hostReads ++ [if index = 0 then s.status else s.faultW0] }

/-- A request-port write appends one word while REQQ is not full, and waits while it is full, neither dropped nor an error
(R24). The sequencer has reached `Ready`, as R162 requires. That a machine in which nothing but the waiting write is left
steps to itself is the model's way to wait (log entry 14). -/
def Obligations.RequestWriteAppendsOrWaits : Prop :=
  ∀ (s : State) (w : Word) (rest : List Input),
    s.canRun = false → s.takeDescriptor = none → s.seqReady = true → s.inputs = .writeRequest w :: rest →
    (s.reqq.length < s.params.reqDepth → step s = .next { s with inputs := rest, reqq := s.reqq ++ [w] }) ∧
    (s.params.reqDepth ≤ s.reqq.length → rest = [] → step s = .next s)

/-- A source-port write appends one byte while SRCQ is not full, and waits while it is full (R26; that the machine then steps
to itself is the model's way to wait, log entry 14). The third clause, that it passes a request write that waits, is the
model's choice, log entry 12: it takes R59's independence of the two ports so, and a host that can do nothing else while its
write waits behaves otherwise. -/
def Obligations.SourceWriteAppendsOrWaits : Prop :=
  ∀ (s : State) (b : Byte) (rest : List Input),
    s.canRun = false → s.takeDescriptor = none →
    (s.inputs = .writeSource b :: rest → s.srcq.length < s.params.srcDepth →
      step s = .next { s with inputs := rest, srcq := s.srcq ++ [b] }) ∧
    (s.inputs = [.writeSource b] → s.params.srcDepth ≤ s.srcq.length → step s = .next s) ∧
    (∀ w, s.inputs = .writeRequest w :: .writeSource b :: rest → s.params.reqDepth ≤ s.reqq.length →
      s.srcq.length < s.params.srcDepth →
      step s = .next { s with inputs := .writeRequest w :: rest, srcq := s.srcq ++ [b] })

/-- Out of boot order the machine refuses: a request word before the sequencer is at `Ready`, and the sequencer while BUSY is 1
(R162, R164; `refuse` in 93_implementation_defined.md section 1). The other two clauses are the model's choice, log entry 10:
a second run of the sequencer is refused (R162 says `exactly once per power cycle` and no more), and its one run is a single
input that reaches `Ready` at once. -/
def Obligations.BootOrder : Prop :=
  ∀ (s : State) (rest : List Input), s.canRun = false → s.takeDescriptor = none →
    (∀ w, s.seqReady = false → s.reqq.length < s.params.reqDepth → s.inputs = .writeRequest w :: rest →
      step s = .refused .descriptorBeforeReady) ∧
    (s.busy = true → s.inputs = .bootSequencer :: rest → step s = .refused .sequencerWhileBusy) ∧
    (s.busy = false → s.seqReady = true → s.inputs = .bootSequencer :: rest → step s = .refused .sequencerTwice) ∧
    (s.busy = false → s.seqReady = false → s.inputs = .bootSequencer :: rest →
      step s = .next { s with inputs := rest, seqReady := true })

/-! ### The clipper -/

/-- SetWindow returns NoOp, and emits no event, exactly when the origin is off the surface or an extent is zero (R89). -/
def Obligations.NoOpExactlyOffSurfaceOrEmpty : Prop :=
  ∀ (x y w h : Nat) (s : State),
    (clip x y w h = .noOp ↔ 240 ≤ x ∨ 320 ≤ y ∨ w = 0 ∨ h = 0) ∧
    (240 ≤ x ∨ 320 ≤ y ∨ w = 0 ∨ h = 0 → s.micro (.setWindow x y w h) = s) ∧
    (¬(240 ≤ x ∨ 320 ≤ y ∨ w = 0 ∨ h = 0) → clip x y w h = .window x y (min w (240 - x)) (min h (320 - y)))

/-- The window invariants (R91): the origin is kept, the extents are never increased and never zero, and the window lies on
the surface. -/
def Obligations.WindowLiesOnSurface : Prop :=
  ∀ x y w h x' y' w' h' : Nat, clip x y w h = .window x' y' w' h' →
    x' = x ∧ y' = y ∧ x < 240 ∧ y < 320 ∧ 1 ≤ w' ∧ w' ≤ w ∧ 1 ≤ h' ∧ h' ≤ h ∧ x + w' ≤ 240 ∧ y + h' ≤ 320 ∧
    x + w' - 1 < 240 ∧ y + h' - 1 < 320

/-- What SetWindow emits (R90, R94). When it returns a Window: eleven one-byte transactions, 44 events, whose bytes are the
three commands and the start and end addresses, high byte first, columns before pages (R92); the column high bytes are 0 and
the page high bytes 0 or 1. When it returns NoOp: nothing. -/
def Obligations.WindowTransactions : Prop :=
  ∀ (x y w h : Nat) (s : State),
    (∀ x' y' w' h', clip x y w h = .window x' y' w' h' →
      (s.micro (.setWindow x y w h)).todo = (transactions (windowBytes s.params x y w' h')).map .emit ++ s.todo ∧
      (transactions (windowBytes s.params x y w' h')).length = 44 ∧
      transferred (transactions (windowBytes s.params x y w' h')) =
        [s.params.cmdCaset, 0, BitVec.ofNat 8 x, 0, BitVec.ofNat 8 (x + w' - 1),
         s.params.cmdPaset, BitVec.ofNat 8 (y / 256), BitVec.ofNat 8 y, BitVec.ofNat 8 ((y + h' - 1) / 256),
         BitVec.ofNat 8 (y + h' - 1), s.params.cmdRamwr] ∧
      y / 256 ≤ 1 ∧ (y + h' - 1) / 256 ≤ 1) ∧
    (clip x y w h = .noOp → (s.micro (.setWindow x y w h)).todo = s.todo)

/-! ### The requests from beginning to end -/

/-- FILL_RECT (R104, R102): from every state in which nothing interrupts it, whatever the operands, it ends in IDLE with
exactly the events of the filled rectangle emitted, and changes nothing else but the working registers of the clipper and
the pixel stream. -/
def Obligations.FillRectResult : Prop :=
  ∀ (x y w h : Nat) (c : Color) (s : State), s.free →
    ∃ t, exec (.fillRect x y w h c) s = .next t ∧ FillFrame s t ∧
      t.trace = s.trace ++ fillTrace s.params x y w h c ∧
      (t.dcLevel, t.consumer) = s.observed (fillTrace s.params x y w h c)

/-- DRAW_PIXEL (R106) is the fill of a 1 x 1 rectangle. -/
def Obligations.DrawPixelResult : Prop :=
  ∀ (x y : Nat) (c : Color) (s : State), s.free →
    ∃ t, exec (.drawPixel x y c) s = .next t ∧ FillFrame s t ∧
      t.trace = s.trace ++ fillTrace s.params x y 1 1 c ∧
      (t.dcLevel, t.consumer) = s.observed (fillTrace s.params x y 1 1 c)

/-- FILL_SCREEN (R108) is the fill of the whole surface. -/
def Obligations.FillScreenResult : Prop :=
  ∀ (c : Color) (s : State), s.free →
    ∃ t, exec (.fillScreen c) s = .next t ∧ FillFrame s t ∧
      t.trace = s.trace ++ fillTrace s.params 0 0 240 320 c ∧
      (t.dcLevel, t.consumer) = s.observed (fillTrace s.params 0 0 240 320 c)

/-- DRAW_IMAGE (R111): when LEN suffices and LEN bytes are queued, it ends in IDLE with the window and the first `need`
source bytes sent verbatim, exactly LEN bytes consumed (the excess drained, R113), and nothing else changed but working
registers. -/
def Obligations.DrawImageResult : Prop :=
  ∀ (x y w h len : Nat) (s : State), s.free → imageNeed x y w h ≤ len → len ≤ s.srcq.length →
    ∃ t, exec (.drawImage x y w h len) s = .next t ∧ ImageFrame s t ∧
      t.trace = s.trace ++ imageTrace s.params x y w h s.srcq ∧
      (t.dcLevel, t.consumer) = s.observed (imageTrace s.params x y w h s.srcq) ∧
      t.srcq = s.srcq.drop len ∧ t.srem = 0

/-- DRAW_IMAGE with fewer bytes than the window needs raises IMAGE_SHORT before any effect (R114), in every state: the
fault registers are written, ENG_STATE is FAULTED, no event is emitted and no source byte consumed. That this is so in a state
held by the schedule too, so that no input lands before the fault, is the model's choice, log entry 21. -/
def Obligations.ShortImageRaisesFault : Prop :=
  ∀ (x y w h len : Nat) (s : State), x < 240 → y < 320 → len < 2 * min w (240 - x) * min h (320 - y) →
    exec (.drawImage x y w h len) s =
      .next { s with faultW0 := s.req.w0, fcode := .imageShort, engState := .faulted, todo := [] }

/-- DRAW_CHAR (R126): a character with a glyph paints its 25 cells; one without has no effect. -/
def Obligations.DrawCharResult : Prop :=
  ∀ (chr x y : Nat) (fg bg : Color) (sc : Nat) (s : State), s.free →
    ∃ t, exec (.drawChar chr x y fg bg sc) s = .next t ∧ GlyphFrame s t ∧
      t.trace = s.trace ++ (if 32 ≤ chr ∧ chr < 127 then glyphTrace s.params chr x y fg bg sc else []) ∧
      (t.dcLevel, t.consumer) = s.observed (if 32 ≤ chr ∧ chr < 127 then glyphTrace s.params chr x y fg bg sc else [])

/-- DRAW_STRING (R131): when LEN bytes are queued, it ends in IDLE with the glyphs of the layout of those bytes drawn in
order, exactly LEN bytes consumed, and the cursor registers as the layout leaves them. -/
def Obligations.DrawStringResult : Prop :=
  ∀ (x y : Nat) (fg bg : Color) (sc len : Nat) (s : State), s.free → len ≤ s.srcq.length →
    ∃ t, exec (.drawString x y fg bg sc len) s = .next t ∧ StringFrame s t ∧
      t.trace = s.trace ++ stringTrace s.params x y fg bg sc (s.srcq.take len) ∧
      (t.dcLevel, t.consumer) = s.observed (stringTrace s.params x y fg bg sc (s.srcq.take len)) ∧
      t.srcq = s.srcq.drop len ∧ t.srem = 0 ∧
      (⟨t.x0, t.cx, t.cy, t.firstg, t.stopped⟩ : Cursor) = (Cursor.start x y).afterAll sc (s.srcq.take len)

/-! ### Counts and corner cases -/

/-- Event and byte counts of a filled rectangle (R103): with a window of area n, 2n + 47 events, 11 + 2n bytes and 12
brackets; none with NoOp. -/
def Obligations.FillCounts : Prop :=
  ∀ (p : Params) (x y w h : Nat) (c : Color),
    (∀ x' y' w' h', clip x y w h = .window x' y' w' h' →
      (fillTrace p x y w h c).length = 2 * (w' * h') + 47 ∧
      (transferred (fillTrace p x y w h c)).length = 11 + 2 * (w' * h') ∧
      (fillTrace p x y w h c).count .sel = 12) ∧
    (clip x y w h = .noOp → fillTrace p x y w h c = [])

/-- The pixel bytes of an image (R117, R112): when the source has them, 11 + 2 * WW * WH bytes are transferred, and those
after the memory write command are the first 2 * WW * WH source bytes in order, whatever the requested width; a NoOp transfers
none. -/
def Obligations.ImageBytes : Prop :=
  ∀ (p : Params) (x y w h : Nat) (src : List Byte), imageNeed x y w h ≤ src.length →
    (∀ x' y' w' h', clip x y w h = .window x' y' w' h' →
      (transferred (imageTrace p x y w h src)).length = 11 + 2 * w' * h' ∧
      (transferred (imageTrace p x y w h src)).drop 11 = src.take (2 * w' * h')) ∧
    (clip x y w h = .noOp → imageTrace p x y w h src = [])

/-- Counts of DRAW_CHAR (R127): 25 * (2 s^2 + 47) events and 25 * (11 + 2 s^2) bytes when the glyph lies wholly on the
surface (c), none at scale 0 (b), and a trace that does not depend on the font when both colours are equal (f). -/
def Obligations.GlyphCounts : Prop :=
  ∀ (p : Params) (c x y : Nat) (fg bg : Color) (sc : Nat),
    (1 ≤ sc → x + 5 * sc ≤ 240 → y + 5 * sc ≤ 320 →
      (glyphTrace p c x y fg bg sc).length = 25 * (2 * sc ^ 2 + 47) ∧
      (transferred (glyphTrace p c x y fg bg sc)).length = 25 * (11 + 2 * sc ^ 2)) ∧
    glyphTrace p c x y fg bg 0 = [] ∧
    (∀ (font : Vector Byte Config.fontBytes) (c' : Nat),
      glyphTrace { p with font := font } c' x y fg fg sc = glyphTrace p c x y fg fg sc)

/-- Cursor bounds of a string (R138): every glyph is drawn with its cursor at most 65535 (its x is the origin's or below
320 - ADV_X, its y the origin's or below 240), and after any number of characters the cursor is at most (66811, 66812). -/
def Obligations.CursorBounds : Prop :=
  ∀ (x y sc : Nat) (cs : List Byte), x < 2 ^ 16 → y < 2 ^ 16 → sc < 2 ^ 8 →
    (∀ g ∈ layout sc (.start x y) cs,
      g.2.1 ≤ 65535 ∧ g.2.2 ≤ 65535 ∧ (g.2.1 = x ∨ g.2.1 + (5 * sc + 1) < 320) ∧ (g.2.2 = y ∨ g.2.2 < 240)) ∧
    ((Cursor.start x y).afterAll sc cs).cx ≤ 66811 ∧ ((Cursor.start x y).afterAll sc cs).cy ≤ 66812

/-- A 0x00 byte ends the text (R136) and the rest is drained (R137): the trace is that of the characters before it, and all
LEN bytes are consumed. -/
def Obligations.ZeroByteEndsText : Prop :=
  ∀ (x y : Nat) (fg bg : Color) (sc : Nat) (before after rest : List Byte) (s : State),
    s.free → s.srcq = before ++ 0 :: after ++ rest →
    ∃ t, exec (.drawString x y fg bg sc (before.length + 1 + after.length)) s = .next t ∧
      t.trace = s.trace ++ stringTrace s.params x y fg bg sc before ∧ t.srcq = rest

/-- Characters without a glyph are skipped entirely (R135): taking them out of a string (0x00 apart) changes neither what is
drawn nor where. -/
def Obligations.NoGlyphCharactersAreSkipped : Prop :=
  ∀ (x y sc : Nat) (cs : List Byte),
    layout sc (.start x y) cs = layout sc (.start x y) (cs.filter fun c => c == 0 || hasGlyph c.toNat) ∧
    (Cursor.start x y).afterAll sc cs =
      (Cursor.start x y).afterAll sc (cs.filter fun c => c == 0 || hasGlyph c.toNat)

/-- Every command byte of a request belongs to a triple CASET, PASET, RAMWR in that order (R98). -/
def Obligations.CommandsComeAsTriples : Prop :=
  ∀ (i : Instr) (s : State), s.free → supplied i s →
    ∃ t es n, exec i s = .next t ∧ t.trace = s.trace ++ es ∧
      commandBytes .data es =
        (List.replicate n [s.params.cmdCaset, s.params.cmdPaset, s.params.cmdRamwr]).flatten

/-! ### Waiting -/

/-- An exchange in progress (R49): while TRANSPORT has not completed it, the engine takes no further step of the request, and a
transport that never completes it leaves the engine where it is (R147; that the state steps to itself is the model's way to
wait, log entry 14). That the completion itself changes nothing else is the model's choice: the consumer has taken the byte
at the XFER event (log entry 13), and the byte returned is not represented (log entry 15; R36 says that it changes no
state). -/
def Obligations.EngineWaitsForTransport : Prop :=
  ∀ s : State, s.engState = .run → s.xferBusy = true →
    s.microStep = { s with xferBusy := false } ∧
    (s.credit = some 0 → s.inputs = [] → step s = .next s)

/-- DRAW_IMAGE whose source bytes have not all been written waits in SrcRead with its burst open (R41, R147, R167): the
window, `SEL`, `DC(DATA)` and the queued bytes have been emitted, ENG_STATE is RUN, BUSY is 1, nothing is recorded, and
without an input it waits forever (it steps to itself: log entry 14). -/
def Obligations.ImageWaitsForSource : Prop :=
  ∀ (x y w h len x' y' w' h' : Nat) (s : State), s.free → clip x y w h = .window x' y' w' h' →
    imageNeed x y w h ≤ len → s.srcq.length < imageNeed x y w h →
    ∃ t, exec (.drawImage x y w h len) s = .next t ∧
      t.trace = s.trace ++ transactions (windowBytes s.params x' y' w' h') ++ [.sel, .dc .data] ++ s.srcq.map .xfer ∧
      t.srcq = [] ∧ t.pcnt = imageNeed x y w h - s.srcq.length ∧ t.srem = len - s.srcq.length ∧
      t.engState = .run ∧ t.status.getLsbD 0 = true ∧ t.selOpen = true ∧ t.xferBusy = false ∧
      t.fcode = s.fcode ∧ t.faultW0 = s.faultW0 ∧
      (s.inputs = [] → step t = .next t)

/-- DRAW_IMAGE whose pixel bytes are all queued but not its excess waits in the drain (R41, R113): everything it draws has
been emitted and its burst is closed, ENG_STATE is RUN and BUSY 1, and without an input it waits forever (it steps
to itself: log entry 14). -/
def Obligations.ImageDrainWaitsForSource : Prop :=
  ∀ (x y w h len : Nat) (s : State), s.free → imageNeed x y w h ≤ s.srcq.length → s.srcq.length < len →
    ∃ t, exec (.drawImage x y w h len) s = .next t ∧
      t.trace = s.trace ++ imageTrace s.params x y w h s.srcq ∧
      t.srcq = [] ∧ t.srem = len - s.srcq.length ∧ t.engState = .run ∧ t.status.getLsbD 0 = true ∧ t.selOpen = false ∧
      t.xferBusy = false ∧ (s.inputs = [] → step t = .next t)

/-- DRAW_STRING whose source bytes have not all been written waits between characters (R41, R131): the characters queued
have been laid out and drawn, no bracket is open, ENG_STATE is RUN and BUSY 1, and without an input it waits forever (it steps
to itself: log entry 14). -/
def Obligations.StringWaitsForSource : Prop :=
  ∀ (x y : Nat) (fg bg : Color) (sc len : Nat) (s : State), s.free → s.srcq.length < len →
    ∃ t, exec (.drawString x y fg bg sc len) s = .next t ∧
      t.trace = s.trace ++ stringTrace s.params x y fg bg sc s.srcq ∧
      (⟨t.x0, t.cx, t.cy, t.firstg, t.stopped⟩ : Cursor) = (Cursor.start x y).afterAll sc s.srcq ∧
      t.srcq = [] ∧ t.srem = len - s.srcq.length ∧ t.engState = .run ∧ t.status.getLsbD 0 = true ∧ t.selOpen = false ∧
      t.xferBusy = false ∧ (s.inputs = [] → step t = .next t)

/-- A request that is held after any number of micro-operations (an input is to land, or TRANSPORT is late; the hold is the
model's schedule, log entry 1) ends, by one step once it goes on, exactly as if it had not been held (R18, R49, R167). When a
request write, a source write or a status read lands during the hold, it ends in the same way but for the word at the end of
REQQ, the byte at the end of SRCQ, or the value that HOST has read, which is that of the moment of the read (R23). And when
it goes on for some more micro-operations only, a step brings it to where it would be had it been held that much later. -/
def Obligations.PausesChangeNothing : Prop :=
  ∀ (i : Instr) (s t u : State) (n : Nat),
    exec i { s with credit := none } = .next t → t.engState = .idle →
    exec i { s with credit := some n } = .next u →
    { u with credit := none }.endsIn t ∧
    (∀ (w : Word) (v : State), (Input.writeRequest w).land u = .next v →
      { v with credit := none }.endsIn { t with reqq := t.reqq ++ [w] }) ∧
    (∀ (b : Byte) (v : State), (Input.writeSource b).land u = .next v →
      { v with credit := none }.endsIn { t with srcq := t.srcq ++ [b] }) ∧
    (∀ (index : Fin 2) (v : State), (Input.readStatus index).land u = .next v →
      { v with credit := none }.endsIn
        { t with hostReads := t.hostReads ++ [if index = 0 then u.status else u.faultW0] }) ∧
    (∀ (m : Nat) (v : State), exec i { s with credit := some (n + m) } = .next v → u.engState = .run → 0 < m →
      step { u with credit := some m } = .next v)

/-- A request whose source bytes come late, in any number of bunches of any size (so whatever SRC_FIFO_DEPTH is), comes to
exactly the state it comes to when all of them are queued at the start: it goes on with each bunch by one step, and waits
for the next where it needs it (R18, R26, R41, R59, R167: "The trace is the same whatever the delay"). This holds of a
request that ends, of one that faults, and of one that waits because even all the bytes are too few. -/
def Obligations.LateSourceBytesChangeNothing : Prop :=
  ∀ (i : Instr) (s t u : State) (early : List Byte) (bunches : List (List Byte)), s.credit = none →
    (∀ b ∈ bunches, b ≠ []) →
    exec i { s with srcq := early ++ bunches.flatten } = .next t →
    exec i { s with srcq := early } = .next u →
    u.refill bunches = .next t

/-! ### Rules about the whole machine -/

/-- The invariant holds after reset. -/
def Obligations.InvariantHoldsAtReset : Prop := State.reset.Inv

/-- Every step keeps the invariant: the queues within their depths, the bracket discipline of the trace (R47) with SEL_OPEN
and DC_LEVEL following it (R29), the fault registers consistent (R21, R22), no program outside RUN (R16), and the consumer's
memory in its canonical form. -/
def Obligations.StepKeepsInvariant : Prop :=
  ∀ s t : State, s.Inv → step s = .next t → t.Inv

/-- Outside RUN no bracket is open and none is left open in the trace (R29: between requests SEL_OPEN is 0; R118), no
program is in progress, and STATUS shows BUSY only for queued words (R20). The invariant rules out states no run reaches. -/
def Obligations.NothingOpenOutsideRun : Prop :=
  ∀ s : State, s.Inv → s.engState ≠ .run →
    s.selOpen = false ∧ bracketOf s.trace = .closed ∧ s.todo = [] ∧ s.xferBusy = false ∧
      (s.status.getLsbD 0 = true ↔ s.reqq ≠ [])

/-- Nothing changes the parameters: neither a step nor a reset (R30, R160). -/
def Obligations.ParametersNeverChange : Prop :=
  ∀ s t : State, step s = .next t → t.params = s.params

/-- The trace only grows: an emitted event is never taken back (R43, R57). -/
def Obligations.TraceOnlyGrows : Prop :=
  ∀ s t : State, step s = .next t → s.trace <+: t.trace

/-- Source bytes are consumed only by DRAW_IMAGE and DRAW_STRING, in every state and however the request is interrupted, and
each of these that does not fault and finds its bytes queued consumes exactly LEN; a request that faults consumes none
(R42). -/
def Obligations.SourceConsumption : Prop :=
  (∀ (i : Instr) (s t : State), sourceBytes i = 0 → exec i s = .next t → t.srcq = s.srcq) ∧
  (∀ (i : Instr) (s : State), s.free → supplied i s →
    ∃ t, exec i s = .next t ∧ t.srcq = s.srcq.drop (sourceBytes i)) ∧
  (∀ (i : Instr) (s t : State), exec i s = .next t → t.engState = .faulted → t.srcq = s.srcq)

/-- The frame of every request in every state, however it is interrupted: the parameters, the request queue, REQ_INDEX, the
latched descriptor and the host's side are unchanged, and the fault registers too unless it faults (R11, R144). -/
def Obligations.RequestFrame : Prop :=
  ∀ (i : Instr) (s t : State), exec i s = .next t →
    t.params = s.params ∧ t.reqq = s.reqq ∧ t.reqIndex = s.reqIndex ∧ t.req = s.req ∧ t.inputs = s.inputs ∧
    t.hostReads = s.hostReads ∧ t.seqReady = s.seqReady ∧ t.freeCount = s.freeCount ∧
    (t.engState ≠ .faulted → t.fcode = s.fcode ∧ t.faultW0 = s.faultW0)

/-- The only fault a legal request can raise is IMAGE_SHORT, by DRAW_IMAGE, and then nothing has been emitted or consumed
(R143). No geometric operand ever faults (R141). -/
def Obligations.OnlyShortImagesFault : Prop :=
  ∀ (i : Instr) (s t : State), exec i s = .next t → t.engState = .faulted →
    (∃ x y w h len, i = .drawImage x y w h len ∧ len < imageNeed x y w h) ∧ t.fcode = .imageShort ∧
    t.faultW0 = s.req.w0 ∧ t.trace = s.trace ∧ t.srcq = s.srcq

/-- No working register carries information from one request to the next (R28): two states that differ in them only give the
same trace, line level, consumer, source queue and status. -/
def Obligations.WorkingRegistersCarryNothing : Prop :=
  ∀ (i : Instr) (s s' : State), s.free → supplied i s → SameButWorkingRegisters s s' →
    ∃ t t', exec i s = .next t ∧ exec i s' = .next t' ∧ t'.trace = t.trace ∧ t'.dcLevel = t.dcLevel ∧
      t'.consumer = t.consumer ∧ t'.srcq = t.srcq ∧ t'.status = t.status ∧ t'.faultW0 = t.faultW0 ∧
      t'.reqIndex = t.reqIndex

/-! ### The screen -/

/-- FILL_RECT paints exactly the part of the rectangle that lies on the surface, whatever the consumer held before (R100,
R64 to R66): each pixel of the array inside the rectangle takes the colour, every other keeps its value. -/
def Obligations.FillRectPaintsScreen : Prop :=
  ∀ (x y w h : Nat) (c : Color) (s : State), s.free → s.params.distinctCommands →
    ∃ t, exec (.fillRect x y w h c) s = .next t ∧
      ∀ col page, col < 240 → page < 320 →
        Gram.read t.consumer.gram col page =
          (if x ≤ col ∧ col < x + w ∧ y ≤ page ∧ page < y + h then c else Gram.read s.consumer.gram col page)

/-- DRAW_IMAGE is read linearly (R112): pixel k of the clipped window, counted along its columns first, takes source bytes
2k and 2k + 1, high byte first, whatever the requested width; every pixel outside the window keeps its value. A rectangle
that clips to a NoOp has no pixel inside: nothing is emitted and nothing changes on the screen (R115). In both cases LEN
source bytes are consumed (R113). -/
def Obligations.DrawImagePaintsLinearly : Prop :=
  ∀ (x y w h len : Nat) (s : State), s.free → s.params.distinctCommands →
    imageNeed x y w h ≤ len → len ≤ s.srcq.length →
    ∃ t, exec (.drawImage x y w h len) s = .next t ∧ t.srcq = s.srcq.drop len ∧
      (clip x y w h = .noOp → t.trace = s.trace ∧ t.consumer = s.consumer) ∧
      ∀ col page, col < 240 → page < 320 →
        Gram.read t.consumer.gram col page =
          (if x ≤ col ∧ col < x + w ∧ y ≤ page ∧ page < y + h then
            s.srcq.getD (2 * ((page - y) * min w (240 - x) + (col - x))) 0 ++
              s.srcq.getD (2 * ((page - y) * min w (240 - x) + (col - x)) + 1) 0
          else Gram.read s.consumer.gram col page)

/-- DRAW_CHAR paints every cell of the glyph's 5s x 5s box, with no transparency (R122, R125), and nothing outside it. The
cell in column `k` and row `r` of the box takes the foreground exactly when bit `r + 2` of the font byte at index
`(c - 32) * 5 + k` is 1 (R40, R88, R120), and the background otherwise: bits 0, 1 and 7 of a font byte make no difference,
and no other byte of the font does. -/
def Obligations.DrawCharPaintsWholeBox : Prop :=
  ∀ (chr x y : Nat) (fg bg : Color) (sc : Nat) (s : State), s.free → s.params.distinctCommands → 32 ≤ chr → chr < 127 →
    ∃ t, exec (.drawChar chr x y fg bg sc) s = .next t ∧
      ∀ col page, col < 240 → page < 320 →
        Gram.read t.consumer.gram col page =
          (if x ≤ col ∧ col < x + 5 * sc ∧ y ≤ page ∧ page < y + 5 * sc then
            (if (s.params.font[(chr - 32) * 5 + (col - x) / sc]?.getD 0).getLsbD ((page - y) / sc + 2) then fg else bg)
          else Gram.read s.consumer.gram col page)

/-! ### Data formats and the assembler -/

/-- RGB565 (R84, R85): encoding truncates each channel to its width, decoding fills the low bits of each channel with zero,
encoding the decoded channels gives the colour back, and so does encoding any three bytes whose top 5, 6 and 5 bits are the
colour's channels. -/
def Obligations.ColourRoundTrip : Prop :=
  (∀ r g b : Byte,
    rgb565 r g b = BitVec.ofNat 16 (r.toNat / 8 * 2048 + g.toNat / 4 * 32 + b.toNat / 8)) ∧
  (∀ v : Color, rgb565Decode v = (BitVec.ofNat 8 (v.toNat / 2048 * 8), BitVec.ofNat 8 (v.toNat / 32 % 64 * 4),
    BitVec.ofNat 8 (v.toNat % 32 * 8))) ∧
  (∀ v : Color, rgb565 (rgb565Decode v).1 (rgb565Decode v).2.1 (rgb565Decode v).2.2 = v) ∧
  (∀ (v : Color) (r g b : Byte), r.toNat / 8 = v.toNat / 2048 → g.toNat / 4 = v.toNat / 32 % 64 → b.toNat / 8 = v.toNat % 32 →
    rgb565 r g b = v)

/-- HLINE and VLINE assemble to FILL_RECT (R86). -/
def Obligations.LinesAssembleToFillRect : Prop :=
  ∀ (x y len : Nat) (c : Operand),
    assembleLine "HLINE".toList [.num x, .num y, .num len, c] =
      assembleLine "FILL_RECT".toList [.num x, .num y, .num len, .num 1, c] ∧
    assembleLine "VLINE".toList [.num x, .num y, .num len, c] =
      assembleLine "FILL_RECT".toList [.num x, .num y, .num 1, .num len, c]

/-- The assembler (R79 to R82, R86) yields for a line exactly what `Assembles` lists: for each mnemonic the words of the
encoding of the request that the operands spell, in the operand order of R79, with the source bytes that the line lists;
and an assembly error for every other line, an operand that does not fit its field included, which is never truncated (R80).
So the words of a line are those of a well-formed request that consumes exactly the line's source bytes, or the line is a
`.word` or a `.src`. Of what must fit, R80 states the operands of its list; that an RGB channel must fit 8 bits, a `.word` value
32 bits and the number of a line's bytes LEN is the model's choice (DEDUCED), log entry 19. So are the spellings in which it
reads text; this statement is about a line already split into its operands. -/
def Obligations.AssembledLinesAreWellFormed : Prop :=
  ∀ (name : List Char) (os : List Operand),
    (∀ out, assembleLine name os = some out ↔ Assembles name os out) ∧
    (∀ out, Assembles name os out →
      (∃ i : Instr, i.wf = true ∧ out.words = (encode i).words ∧ out.bytes.length = sourceBytes i) ∨
      (name = ".word".toList ∧ out.bytes = []) ∨ (name = ".src".toList ∧ out.words = []))

/-! ### The source port feeding a request -/

/-- The machine as it runs, when HOST writes the rest of a request's source bytes one at a time: the request waits, one step
lands the next byte (SRCQ has room for it, because it is empty, R26, R41) and one step goes on with it. After two steps for
each byte the request is exactly where it is when all of them are queued at the start, its bytes consumed, and HOST's later
inputs are still to come (R18, R59, R167). -/
def Obligations.HostWritesFeedWaitingRequest : Prop :=
  ∀ (i : Instr) (s t u : State) (early late : List Byte) (rest : List Input), s.credit = none → s.params.wf →
    s.inputs = late.map .writeSource ++ rest →
    exec i { s with srcq := early ++ late } = .next t → t.srcq = [] →
    exec i { s with srcq := early } = .next u →
    u.stepsFor (2 * late.length) = .next { t with inputs := rest }
end

