-- ==== Sys2Proof/Laws/Assembler.lean ====
section
/-! SUPPORT. Laws/Assembler.lean: what each operand reader and list reader of the assembler accepts, and what it yields. -/

namespace Sys2Proof.Machine

/-- A number operand is read exactly when it fits its width. -/
theorem numIn_eq_some {width n : Nat} {o : Operand} : numIn width o = some n ↔ o = .num n ∧ n < 2 ^ width := by
  unfold numIn
  split
  · split
    · next h =>
      constructor
      · rintro ⟨⟩; exact ⟨rfl, h⟩
      · rintro ⟨⟨⟩, -⟩; rfl
    · next h => simp only [Operand.num.injEq, reduceCtorEq, false_iff]; rintro ⟨rfl, h'⟩; exact h h'
  · next h => simp only [reduceCtorEq, false_iff]; rintro ⟨rfl, -⟩; exact h _ rfl

/-- RGB565 of three byte values (R84). -/
theorem rgb565_ofNat {r g b : Nat} (hr : r < 256) (hg : g < 256) (hb : b < 256) :
    rgb565 (BitVec.ofNat 8 r) (BitVec.ofNat 8 g) (BitVec.ofNat 8 b) =
      BitVec.ofNat 16 (r / 8 * 2048 + g / 4 * 32 + b / 8) := by
  apply BitVec.eq_of_toNat_eq
  have h1 : r / 8 % 32 = r / 8 := Nat.mod_eq_of_lt (by omega)
  have h2 : g / 4 % 64 = g / 4 := Nat.mod_eq_of_lt (by omega)
  have h3 : b / 8 % 32 = b / 8 := Nat.mod_eq_of_lt (by omega)
  simp only [rgb565, BitVec.toNat_append, BitVec.extractLsb'_toNat, BitVec.toNat_ofNat]
  rw [← Nat.shiftLeft_add_eq_or_of_lt (by omega), ← Nat.shiftLeft_add_eq_or_of_lt (by omega)]
  simp only [Nat.shiftRight_eq_div_pow, Nat.shiftLeft_eq]
  omega

/-- A colour operand is read exactly when it is one, as the colour it means. -/
theorem colorIn_eq_some {o : Operand} {v : Color} : colorIn o = some v ↔ ColorOperand o v := by
  constructor
  · intro h
    unfold colorIn at h
    split at h
    · split at h
      · next hn => cases h; exact .num hn
      · cases h
    · split at h
      · next hn => cases h; rw [rgb565_ofNat hn.1 hn.2.1 hn.2.2]; exact .rgb hn.1 hn.2.1 hn.2.2
      · cases h
    · cases h
  · rintro (hn | ⟨hr, hg, hb⟩)
    · exact if_pos hn
    · rw [colorIn, if_pos ⟨hr, hg, hb⟩, rgb565_ofNat hr hg hb]

/-- A character operand is read exactly when it is one, as the code it means. -/
theorem charIn_eq_some {o : Operand} {k : Nat} : charIn o = some k ↔ CharOperand o k := by
  constructor
  · intro h
    unfold charIn at h
    split at h
    · split at h
      · next hn => cases h; exact .chr hn
      · cases h
    · split at h
      · next hn => cases h; exact .num hn
      · cases h
    · cases h
  · rintro (hn | hn) <;> exact if_pos hn

/-- A list of bytes is read exactly when each fits 8 bits. -/
theorem byteList_eq_some {ns : List Nat} {bs : List Byte} :
    byteList ns = some bs ↔ (∀ n ∈ ns, n < 256) ∧ bs = ns.map (BitVec.ofNat 8) := by
  induction ns generalizing bs with
  | nil => simp [byteList, eq_comm]
  | cons n ns ih =>
    unfold byteList
    split
    · next hn =>
      rw [Option.map_eq_some_iff]
      constructor
      · rintro ⟨a, ha, rfl⟩
        obtain ⟨h, rfl⟩ := ih.mp ha
        exact ⟨by simpa using ⟨hn, h⟩, rfl⟩
      · rintro ⟨h, rfl⟩
        exact ⟨_, ih.mpr ⟨fun m hm => h m (List.mem_cons_of_mem _ hm), rfl⟩, rfl⟩
    · next hn =>
      simp only [reduceCtorEq, false_iff]
      rintro ⟨h, -⟩
      exact hn (h n List.mem_cons_self)

/-- The numbers of a `.src` line are read exactly when every operand is a number. -/
theorem numberList_eq_some {os : List Operand} {ns : List Nat} : numberList os = some ns ↔ os = ns.map .num := by
  induction os generalizing ns with
  | nil => cases ns <;> simp [numberList]
  | cons o os ih =>
    cases o with
    | num n =>
      rw [numberList, Option.map_eq_some_iff]
      constructor
      · rintro ⟨a, ha, rfl⟩; rw [ih.mp ha]; rfl
      · intro h
        cases ns with
        | nil => cases h
        | cons m ns => cases h; exact ⟨ns, ih.mpr rfl, rfl⟩
    | _ => cases ns <;> simp [numberList]

/-- A `.src` line is read exactly when it lists bytes (R82). -/
theorem srcLine_eq_some {name : List Char} {os : List Operand} {out : AsmOutput} :
    assembleLine.srcLine name os = some out ↔
      name = ".src".toList ∧ ∃ ns, ns ≠ [] ∧ (∀ n ∈ ns, n < 256) ∧ os = ns.map .num ∧
        out = ⟨[], ns.map (BitVec.ofNat 8)⟩ := by
  unfold assembleLine.srcLine
  split
  · next h =>
    simp only [Option.bind_eq_bind, Option.bind_eq_some_iff, numberList_eq_some, byteList_eq_some, Option.pure_def,
      Option.some.injEq]
    constructor
    · rintro ⟨ns, rfl, bs, ⟨hb, rfl⟩, rfl⟩
      exact ⟨h.1, ns, fun h' => h.2 (by rw [h']; rfl), hb, rfl, rfl⟩
    · rintro ⟨-, ns, -, hb, rfl, rfl⟩
      exact ⟨ns, rfl, _, ⟨hb, rfl⟩, rfl⟩
  · next h =>
    simp only [reduceCtorEq, false_iff]
    rintro ⟨rfl, ns, hn, -, rfl, -⟩
    exact h ⟨rfl, fun e => hn (List.map_eq_nil_iff.mp e)⟩

end Sys2Proof.Machine
end

