-- ==== Sys2Proof/Laws/State.lean ====
section
/-! SUPPORT. Laws/State.lean: one lemma per field of the state for each of its updates, so that no proof unfolds a record
update. -/

namespace Sys2Proof.Machine

/-- SEL_OPEN after an event (R29). -/
def selAfter (b : Bool) : Event → Bool
  | .sel => true
  | .desel => false
  | _ => b

/-- DC_LEVEL after an event (R29). -/
def levelAfter (l : Level) : Event → Level
  | .dc l' => l'
  | _ => l

/-- Whether an exchange is in progress after an event (R49). -/
def busyAfter (b : Bool) : Event → Bool
  | .xfer _ => true
  | _ => b


/-! ### Emit -/

@[simp] theorem State.emit_params (s : State) (e : Event) : (s.emit e).params = s.params := by cases e <;> rfl
@[simp] theorem State.emit_engState (s : State) (e : Event) : (s.emit e).engState = s.engState := by cases e <;> rfl
@[simp] theorem State.emit_fcode (s : State) (e : Event) : (s.emit e).fcode = s.fcode := by cases e <;> rfl
@[simp] theorem State.emit_faultW0 (s : State) (e : Event) : (s.emit e).faultW0 = s.faultW0 := by cases e <;> rfl
@[simp] theorem State.emit_reqIndex (s : State) (e : Event) : (s.emit e).reqIndex = s.reqIndex := by cases e <;> rfl
@[simp] theorem State.emit_reqq (s : State) (e : Event) : (s.emit e).reqq = s.reqq := by cases e <;> rfl
@[simp] theorem State.emit_srcq (s : State) (e : Event) : (s.emit e).srcq = s.srcq := by cases e <;> rfl
@[simp] theorem State.emit_req (s : State) (e : Event) : (s.emit e).req = s.req := by cases e <;> rfl
@[simp] theorem State.emit_wx (s : State) (e : Event) : (s.emit e).wx = s.wx := by cases e <;> rfl
@[simp] theorem State.emit_wy (s : State) (e : Event) : (s.emit e).wy = s.wy := by cases e <;> rfl
@[simp] theorem State.emit_ww (s : State) (e : Event) : (s.emit e).ww = s.ww := by cases e <;> rfl
@[simp] theorem State.emit_wh (s : State) (e : Event) : (s.emit e).wh = s.wh := by cases e <;> rfl
@[simp] theorem State.emit_pcnt (s : State) (e : Event) : (s.emit e).pcnt = s.pcnt := by cases e <;> rfl
@[simp] theorem State.emit_srem (s : State) (e : Event) : (s.emit e).srem = s.srem := by cases e <;> rfl
@[simp] theorem State.emit_cx (s : State) (e : Event) : (s.emit e).cx = s.cx := by cases e <;> rfl
@[simp] theorem State.emit_cy (s : State) (e : Event) : (s.emit e).cy = s.cy := by cases e <;> rfl
@[simp] theorem State.emit_x0 (s : State) (e : Event) : (s.emit e).x0 = s.x0 := by cases e <;> rfl
@[simp] theorem State.emit_firstg (s : State) (e : Event) : (s.emit e).firstg = s.firstg := by cases e <;> rfl
@[simp] theorem State.emit_stopped (s : State) (e : Event) : (s.emit e).stopped = s.stopped := by cases e <;> rfl
@[simp] theorem State.emit_col (s : State) (e : Event) : (s.emit e).col = s.col := by cases e <;> rfl
@[simp] theorem State.emit_row (s : State) (e : Event) : (s.emit e).row = s.row := by cases e <;> rfl
@[simp] theorem State.emit_gb (s : State) (e : Event) : (s.emit e).gb = s.gb := by cases e <;> rfl
@[simp] theorem State.emit_selOpen (s : State) (e : Event) : (s.emit e).selOpen = selAfter s.selOpen e := by cases e <;> rfl
@[simp] theorem State.emit_dcLevel (s : State) (e : Event) : (s.emit e).dcLevel = levelAfter s.dcLevel e := by cases e <;> rfl
@[simp] theorem State.emit_out (s : State) (e : Event) : (s.emit e).out = e :: s.out := by cases e <;> rfl
@[simp] theorem State.emit_todo (s : State) (e : Event) : (s.emit e).todo = s.todo := by cases e <;> rfl
@[simp] theorem State.emit_xferBusy (s : State) (e : Event) : (s.emit e).xferBusy = busyAfter s.xferBusy e := by cases e <;> rfl
@[simp] theorem State.emit_consumer (s : State) (e : Event) : (s.emit e).consumer = (observe s.params (s.dcLevel, s.consumer) e).2 := by cases e <;> rfl
@[simp] theorem State.emit_inputs (s : State) (e : Event) : (s.emit e).inputs = s.inputs := by cases e <;> rfl
@[simp] theorem State.emit_credit (s : State) (e : Event) : (s.emit e).credit = s.credit := by cases e <;> rfl
@[simp] theorem State.emit_hostReads (s : State) (e : Event) : (s.emit e).hostReads = s.hostReads := by cases e <;> rfl
@[simp] theorem State.emit_seqReady (s : State) (e : Event) : (s.emit e).seqReady = s.seqReady := by cases e <;> rfl
@[simp] theorem State.emit_freeCount (s : State) (e : Event) : (s.emit e).freeCount = s.freeCount := by cases e <;> rfl
@[simp] theorem State.emit_trace (s : State) (e : Event) : (s.emit e).trace = s.trace ++ [e] := by simp [State.trace]

/-! ### withTodo -/

@[simp] theorem State.withTodo_params (s : State) (ms : List Micro) : (s.withTodo ms).params = s.params := rfl
@[simp] theorem State.withTodo_engState (s : State) (ms : List Micro) : (s.withTodo ms).engState = s.engState := rfl
@[simp] theorem State.withTodo_fcode (s : State) (ms : List Micro) : (s.withTodo ms).fcode = s.fcode := rfl
@[simp] theorem State.withTodo_faultW0 (s : State) (ms : List Micro) : (s.withTodo ms).faultW0 = s.faultW0 := rfl
@[simp] theorem State.withTodo_reqIndex (s : State) (ms : List Micro) : (s.withTodo ms).reqIndex = s.reqIndex := rfl
@[simp] theorem State.withTodo_reqq (s : State) (ms : List Micro) : (s.withTodo ms).reqq = s.reqq := rfl
@[simp] theorem State.withTodo_srcq (s : State) (ms : List Micro) : (s.withTodo ms).srcq = s.srcq := rfl
@[simp] theorem State.withTodo_req (s : State) (ms : List Micro) : (s.withTodo ms).req = s.req := rfl
@[simp] theorem State.withTodo_wx (s : State) (ms : List Micro) : (s.withTodo ms).wx = s.wx := rfl
@[simp] theorem State.withTodo_wy (s : State) (ms : List Micro) : (s.withTodo ms).wy = s.wy := rfl
@[simp] theorem State.withTodo_ww (s : State) (ms : List Micro) : (s.withTodo ms).ww = s.ww := rfl
@[simp] theorem State.withTodo_wh (s : State) (ms : List Micro) : (s.withTodo ms).wh = s.wh := rfl
@[simp] theorem State.withTodo_pcnt (s : State) (ms : List Micro) : (s.withTodo ms).pcnt = s.pcnt := rfl
@[simp] theorem State.withTodo_srem (s : State) (ms : List Micro) : (s.withTodo ms).srem = s.srem := rfl
@[simp] theorem State.withTodo_cx (s : State) (ms : List Micro) : (s.withTodo ms).cx = s.cx := rfl
@[simp] theorem State.withTodo_cy (s : State) (ms : List Micro) : (s.withTodo ms).cy = s.cy := rfl
@[simp] theorem State.withTodo_x0 (s : State) (ms : List Micro) : (s.withTodo ms).x0 = s.x0 := rfl
@[simp] theorem State.withTodo_firstg (s : State) (ms : List Micro) : (s.withTodo ms).firstg = s.firstg := rfl
@[simp] theorem State.withTodo_stopped (s : State) (ms : List Micro) : (s.withTodo ms).stopped = s.stopped := rfl
@[simp] theorem State.withTodo_col (s : State) (ms : List Micro) : (s.withTodo ms).col = s.col := rfl
@[simp] theorem State.withTodo_row (s : State) (ms : List Micro) : (s.withTodo ms).row = s.row := rfl
@[simp] theorem State.withTodo_gb (s : State) (ms : List Micro) : (s.withTodo ms).gb = s.gb := rfl
@[simp] theorem State.withTodo_selOpen (s : State) (ms : List Micro) : (s.withTodo ms).selOpen = s.selOpen := rfl
@[simp] theorem State.withTodo_dcLevel (s : State) (ms : List Micro) : (s.withTodo ms).dcLevel = s.dcLevel := rfl
@[simp] theorem State.withTodo_out (s : State) (ms : List Micro) : (s.withTodo ms).out = s.out := rfl
@[simp] theorem State.withTodo_todo (s : State) (ms : List Micro) : (s.withTodo ms).todo = ms := rfl
@[simp] theorem State.withTodo_xferBusy (s : State) (ms : List Micro) : (s.withTodo ms).xferBusy = s.xferBusy := rfl
@[simp] theorem State.withTodo_consumer (s : State) (ms : List Micro) : (s.withTodo ms).consumer = s.consumer := rfl
@[simp] theorem State.withTodo_inputs (s : State) (ms : List Micro) : (s.withTodo ms).inputs = s.inputs := rfl
@[simp] theorem State.withTodo_credit (s : State) (ms : List Micro) : (s.withTodo ms).credit = s.credit := rfl
@[simp] theorem State.withTodo_hostReads (s : State) (ms : List Micro) : (s.withTodo ms).hostReads = s.hostReads := rfl
@[simp] theorem State.withTodo_seqReady (s : State) (ms : List Micro) : (s.withTodo ms).seqReady = s.seqReady := rfl
@[simp] theorem State.withTodo_freeCount (s : State) (ms : List Micro) : (s.withTodo ms).freeCount = s.freeCount := rfl
@[simp] theorem State.withTodo_trace (s : State) (ms : List Micro) : (s.withTodo ms).trace = s.trace := rfl

/-! ### withEngState -/

@[simp] theorem State.withEngState_params (s : State) (e : EngState) : (s.withEngState e).params = s.params := rfl
@[simp] theorem State.withEngState_engState (s : State) (e : EngState) : (s.withEngState e).engState = e := rfl
@[simp] theorem State.withEngState_fcode (s : State) (e : EngState) : (s.withEngState e).fcode = s.fcode := rfl
@[simp] theorem State.withEngState_faultW0 (s : State) (e : EngState) : (s.withEngState e).faultW0 = s.faultW0 := rfl
@[simp] theorem State.withEngState_reqIndex (s : State) (e : EngState) : (s.withEngState e).reqIndex = s.reqIndex := rfl
@[simp] theorem State.withEngState_reqq (s : State) (e : EngState) : (s.withEngState e).reqq = s.reqq := rfl
@[simp] theorem State.withEngState_srcq (s : State) (e : EngState) : (s.withEngState e).srcq = s.srcq := rfl
@[simp] theorem State.withEngState_req (s : State) (e : EngState) : (s.withEngState e).req = s.req := rfl
@[simp] theorem State.withEngState_wx (s : State) (e : EngState) : (s.withEngState e).wx = s.wx := rfl
@[simp] theorem State.withEngState_wy (s : State) (e : EngState) : (s.withEngState e).wy = s.wy := rfl
@[simp] theorem State.withEngState_ww (s : State) (e : EngState) : (s.withEngState e).ww = s.ww := rfl
@[simp] theorem State.withEngState_wh (s : State) (e : EngState) : (s.withEngState e).wh = s.wh := rfl
@[simp] theorem State.withEngState_pcnt (s : State) (e : EngState) : (s.withEngState e).pcnt = s.pcnt := rfl
@[simp] theorem State.withEngState_srem (s : State) (e : EngState) : (s.withEngState e).srem = s.srem := rfl
@[simp] theorem State.withEngState_cx (s : State) (e : EngState) : (s.withEngState e).cx = s.cx := rfl
@[simp] theorem State.withEngState_cy (s : State) (e : EngState) : (s.withEngState e).cy = s.cy := rfl
@[simp] theorem State.withEngState_x0 (s : State) (e : EngState) : (s.withEngState e).x0 = s.x0 := rfl
@[simp] theorem State.withEngState_firstg (s : State) (e : EngState) : (s.withEngState e).firstg = s.firstg := rfl
@[simp] theorem State.withEngState_stopped (s : State) (e : EngState) : (s.withEngState e).stopped = s.stopped := rfl
@[simp] theorem State.withEngState_col (s : State) (e : EngState) : (s.withEngState e).col = s.col := rfl
@[simp] theorem State.withEngState_row (s : State) (e : EngState) : (s.withEngState e).row = s.row := rfl
@[simp] theorem State.withEngState_gb (s : State) (e : EngState) : (s.withEngState e).gb = s.gb := rfl
@[simp] theorem State.withEngState_selOpen (s : State) (e : EngState) : (s.withEngState e).selOpen = s.selOpen := rfl
@[simp] theorem State.withEngState_dcLevel (s : State) (e : EngState) : (s.withEngState e).dcLevel = s.dcLevel := rfl
@[simp] theorem State.withEngState_out (s : State) (e : EngState) : (s.withEngState e).out = s.out := rfl
@[simp] theorem State.withEngState_todo (s : State) (e : EngState) : (s.withEngState e).todo = s.todo := rfl
@[simp] theorem State.withEngState_xferBusy (s : State) (e : EngState) : (s.withEngState e).xferBusy = s.xferBusy := rfl
@[simp] theorem State.withEngState_consumer (s : State) (e : EngState) : (s.withEngState e).consumer = s.consumer := rfl
@[simp] theorem State.withEngState_inputs (s : State) (e : EngState) : (s.withEngState e).inputs = s.inputs := rfl
@[simp] theorem State.withEngState_credit (s : State) (e : EngState) : (s.withEngState e).credit = s.credit := rfl
@[simp] theorem State.withEngState_hostReads (s : State) (e : EngState) : (s.withEngState e).hostReads = s.hostReads := rfl
@[simp] theorem State.withEngState_seqReady (s : State) (e : EngState) : (s.withEngState e).seqReady = s.seqReady := rfl
@[simp] theorem State.withEngState_freeCount (s : State) (e : EngState) : (s.withEngState e).freeCount = s.freeCount := rfl
@[simp] theorem State.withEngState_trace (s : State) (e : EngState) : (s.withEngState e).trace = s.trace := rfl

/-! ### push -/

@[simp] theorem State.push_params (s : State) (ms : List Micro) : (s.push ms).params = s.params := rfl
@[simp] theorem State.push_engState (s : State) (ms : List Micro) : (s.push ms).engState = s.engState := rfl
@[simp] theorem State.push_fcode (s : State) (ms : List Micro) : (s.push ms).fcode = s.fcode := rfl
@[simp] theorem State.push_faultW0 (s : State) (ms : List Micro) : (s.push ms).faultW0 = s.faultW0 := rfl
@[simp] theorem State.push_reqIndex (s : State) (ms : List Micro) : (s.push ms).reqIndex = s.reqIndex := rfl
@[simp] theorem State.push_reqq (s : State) (ms : List Micro) : (s.push ms).reqq = s.reqq := rfl
@[simp] theorem State.push_srcq (s : State) (ms : List Micro) : (s.push ms).srcq = s.srcq := rfl
@[simp] theorem State.push_req (s : State) (ms : List Micro) : (s.push ms).req = s.req := rfl
@[simp] theorem State.push_wx (s : State) (ms : List Micro) : (s.push ms).wx = s.wx := rfl
@[simp] theorem State.push_wy (s : State) (ms : List Micro) : (s.push ms).wy = s.wy := rfl
@[simp] theorem State.push_ww (s : State) (ms : List Micro) : (s.push ms).ww = s.ww := rfl
@[simp] theorem State.push_wh (s : State) (ms : List Micro) : (s.push ms).wh = s.wh := rfl
@[simp] theorem State.push_pcnt (s : State) (ms : List Micro) : (s.push ms).pcnt = s.pcnt := rfl
@[simp] theorem State.push_srem (s : State) (ms : List Micro) : (s.push ms).srem = s.srem := rfl
@[simp] theorem State.push_cx (s : State) (ms : List Micro) : (s.push ms).cx = s.cx := rfl
@[simp] theorem State.push_cy (s : State) (ms : List Micro) : (s.push ms).cy = s.cy := rfl
@[simp] theorem State.push_x0 (s : State) (ms : List Micro) : (s.push ms).x0 = s.x0 := rfl
@[simp] theorem State.push_firstg (s : State) (ms : List Micro) : (s.push ms).firstg = s.firstg := rfl
@[simp] theorem State.push_stopped (s : State) (ms : List Micro) : (s.push ms).stopped = s.stopped := rfl
@[simp] theorem State.push_col (s : State) (ms : List Micro) : (s.push ms).col = s.col := rfl
@[simp] theorem State.push_row (s : State) (ms : List Micro) : (s.push ms).row = s.row := rfl
@[simp] theorem State.push_gb (s : State) (ms : List Micro) : (s.push ms).gb = s.gb := rfl
@[simp] theorem State.push_selOpen (s : State) (ms : List Micro) : (s.push ms).selOpen = s.selOpen := rfl
@[simp] theorem State.push_dcLevel (s : State) (ms : List Micro) : (s.push ms).dcLevel = s.dcLevel := rfl
@[simp] theorem State.push_out (s : State) (ms : List Micro) : (s.push ms).out = s.out := rfl
@[simp] theorem State.push_todo (s : State) (ms : List Micro) : (s.push ms).todo = ms ++ s.todo := rfl
@[simp] theorem State.push_xferBusy (s : State) (ms : List Micro) : (s.push ms).xferBusy = s.xferBusy := rfl
@[simp] theorem State.push_consumer (s : State) (ms : List Micro) : (s.push ms).consumer = s.consumer := rfl
@[simp] theorem State.push_inputs (s : State) (ms : List Micro) : (s.push ms).inputs = s.inputs := rfl
@[simp] theorem State.push_credit (s : State) (ms : List Micro) : (s.push ms).credit = s.credit := rfl
@[simp] theorem State.push_hostReads (s : State) (ms : List Micro) : (s.push ms).hostReads = s.hostReads := rfl
@[simp] theorem State.push_seqReady (s : State) (ms : List Micro) : (s.push ms).seqReady = s.seqReady := rfl
@[simp] theorem State.push_freeCount (s : State) (ms : List Micro) : (s.push ms).freeCount = s.freeCount := rfl
@[simp] theorem State.push_trace (s : State) (ms : List Micro) : (s.push ms).trace = s.trace := rfl

/-! ### completeXfer -/

@[simp] theorem State.completeXfer_params (s : State) : (s.completeXfer).params = s.params := rfl
@[simp] theorem State.completeXfer_engState (s : State) : (s.completeXfer).engState = s.engState := rfl
@[simp] theorem State.completeXfer_fcode (s : State) : (s.completeXfer).fcode = s.fcode := rfl
@[simp] theorem State.completeXfer_faultW0 (s : State) : (s.completeXfer).faultW0 = s.faultW0 := rfl
@[simp] theorem State.completeXfer_reqIndex (s : State) : (s.completeXfer).reqIndex = s.reqIndex := rfl
@[simp] theorem State.completeXfer_reqq (s : State) : (s.completeXfer).reqq = s.reqq := rfl
@[simp] theorem State.completeXfer_srcq (s : State) : (s.completeXfer).srcq = s.srcq := rfl
@[simp] theorem State.completeXfer_req (s : State) : (s.completeXfer).req = s.req := rfl
@[simp] theorem State.completeXfer_wx (s : State) : (s.completeXfer).wx = s.wx := rfl
@[simp] theorem State.completeXfer_wy (s : State) : (s.completeXfer).wy = s.wy := rfl
@[simp] theorem State.completeXfer_ww (s : State) : (s.completeXfer).ww = s.ww := rfl
@[simp] theorem State.completeXfer_wh (s : State) : (s.completeXfer).wh = s.wh := rfl
@[simp] theorem State.completeXfer_pcnt (s : State) : (s.completeXfer).pcnt = s.pcnt := rfl
@[simp] theorem State.completeXfer_srem (s : State) : (s.completeXfer).srem = s.srem := rfl
@[simp] theorem State.completeXfer_cx (s : State) : (s.completeXfer).cx = s.cx := rfl
@[simp] theorem State.completeXfer_cy (s : State) : (s.completeXfer).cy = s.cy := rfl
@[simp] theorem State.completeXfer_x0 (s : State) : (s.completeXfer).x0 = s.x0 := rfl
@[simp] theorem State.completeXfer_firstg (s : State) : (s.completeXfer).firstg = s.firstg := rfl
@[simp] theorem State.completeXfer_stopped (s : State) : (s.completeXfer).stopped = s.stopped := rfl
@[simp] theorem State.completeXfer_col (s : State) : (s.completeXfer).col = s.col := rfl
@[simp] theorem State.completeXfer_row (s : State) : (s.completeXfer).row = s.row := rfl
@[simp] theorem State.completeXfer_gb (s : State) : (s.completeXfer).gb = s.gb := rfl
@[simp] theorem State.completeXfer_selOpen (s : State) : (s.completeXfer).selOpen = s.selOpen := rfl
@[simp] theorem State.completeXfer_dcLevel (s : State) : (s.completeXfer).dcLevel = s.dcLevel := rfl
@[simp] theorem State.completeXfer_out (s : State) : (s.completeXfer).out = s.out := rfl
@[simp] theorem State.completeXfer_todo (s : State) : (s.completeXfer).todo = s.todo := rfl
@[simp] theorem State.completeXfer_xferBusy (s : State) : (s.completeXfer).xferBusy = false := rfl
@[simp] theorem State.completeXfer_consumer (s : State) : (s.completeXfer).consumer = s.consumer := rfl
@[simp] theorem State.completeXfer_inputs (s : State) : (s.completeXfer).inputs = s.inputs := rfl
@[simp] theorem State.completeXfer_credit (s : State) : (s.completeXfer).credit = s.credit := rfl
@[simp] theorem State.completeXfer_hostReads (s : State) : (s.completeXfer).hostReads = s.hostReads := rfl
@[simp] theorem State.completeXfer_seqReady (s : State) : (s.completeXfer).seqReady = s.seqReady := rfl
@[simp] theorem State.completeXfer_freeCount (s : State) : (s.completeXfer).freeCount = s.freeCount := rfl
@[simp] theorem State.completeXfer_trace (s : State) : (s.completeXfer).trace = s.trace := rfl

/-! ### spend -/

@[simp] theorem State.spend_params (s : State) : (s.spend).params = s.params := rfl
@[simp] theorem State.spend_engState (s : State) : (s.spend).engState = s.engState := rfl
@[simp] theorem State.spend_fcode (s : State) : (s.spend).fcode = s.fcode := rfl
@[simp] theorem State.spend_faultW0 (s : State) : (s.spend).faultW0 = s.faultW0 := rfl
@[simp] theorem State.spend_reqIndex (s : State) : (s.spend).reqIndex = s.reqIndex := rfl
@[simp] theorem State.spend_reqq (s : State) : (s.spend).reqq = s.reqq := rfl
@[simp] theorem State.spend_srcq (s : State) : (s.spend).srcq = s.srcq := rfl
@[simp] theorem State.spend_req (s : State) : (s.spend).req = s.req := rfl
@[simp] theorem State.spend_wx (s : State) : (s.spend).wx = s.wx := rfl
@[simp] theorem State.spend_wy (s : State) : (s.spend).wy = s.wy := rfl
@[simp] theorem State.spend_ww (s : State) : (s.spend).ww = s.ww := rfl
@[simp] theorem State.spend_wh (s : State) : (s.spend).wh = s.wh := rfl
@[simp] theorem State.spend_pcnt (s : State) : (s.spend).pcnt = s.pcnt := rfl
@[simp] theorem State.spend_srem (s : State) : (s.spend).srem = s.srem := rfl
@[simp] theorem State.spend_cx (s : State) : (s.spend).cx = s.cx := rfl
@[simp] theorem State.spend_cy (s : State) : (s.spend).cy = s.cy := rfl
@[simp] theorem State.spend_x0 (s : State) : (s.spend).x0 = s.x0 := rfl
@[simp] theorem State.spend_firstg (s : State) : (s.spend).firstg = s.firstg := rfl
@[simp] theorem State.spend_stopped (s : State) : (s.spend).stopped = s.stopped := rfl
@[simp] theorem State.spend_col (s : State) : (s.spend).col = s.col := rfl
@[simp] theorem State.spend_row (s : State) : (s.spend).row = s.row := rfl
@[simp] theorem State.spend_gb (s : State) : (s.spend).gb = s.gb := rfl
@[simp] theorem State.spend_selOpen (s : State) : (s.spend).selOpen = s.selOpen := rfl
@[simp] theorem State.spend_dcLevel (s : State) : (s.spend).dcLevel = s.dcLevel := rfl
@[simp] theorem State.spend_out (s : State) : (s.spend).out = s.out := rfl
@[simp] theorem State.spend_todo (s : State) : (s.spend).todo = s.todo := rfl
@[simp] theorem State.spend_xferBusy (s : State) : (s.spend).xferBusy = s.xferBusy := rfl
@[simp] theorem State.spend_consumer (s : State) : (s.spend).consumer = s.consumer := rfl
@[simp] theorem State.spend_inputs (s : State) : (s.spend).inputs = s.inputs := rfl
@[simp] theorem State.spend_credit (s : State) : (s.spend).credit = s.credit.map (· - 1) := rfl
@[simp] theorem State.spend_hostReads (s : State) : (s.spend).hostReads = s.hostReads := rfl
@[simp] theorem State.spend_seqReady (s : State) : (s.spend).seqReady = s.seqReady := rfl
@[simp] theorem State.spend_freeCount (s : State) : (s.spend).freeCount = s.freeCount := rfl
@[simp] theorem State.spend_trace (s : State) : (s.spend).trace = s.trace := rfl

/-! ### loadWindow -/

@[simp] theorem State.loadWindow_params (s : State) (x y w h : Nat) : (s.loadWindow x y w h).params = s.params := rfl
@[simp] theorem State.loadWindow_engState (s : State) (x y w h : Nat) : (s.loadWindow x y w h).engState = s.engState := rfl
@[simp] theorem State.loadWindow_fcode (s : State) (x y w h : Nat) : (s.loadWindow x y w h).fcode = s.fcode := rfl
@[simp] theorem State.loadWindow_faultW0 (s : State) (x y w h : Nat) : (s.loadWindow x y w h).faultW0 = s.faultW0 := rfl
@[simp] theorem State.loadWindow_reqIndex (s : State) (x y w h : Nat) : (s.loadWindow x y w h).reqIndex = s.reqIndex := rfl
@[simp] theorem State.loadWindow_reqq (s : State) (x y w h : Nat) : (s.loadWindow x y w h).reqq = s.reqq := rfl
@[simp] theorem State.loadWindow_srcq (s : State) (x y w h : Nat) : (s.loadWindow x y w h).srcq = s.srcq := rfl
@[simp] theorem State.loadWindow_req (s : State) (x y w h : Nat) : (s.loadWindow x y w h).req = s.req := rfl
@[simp] theorem State.loadWindow_wx (s : State) (x y w h : Nat) : (s.loadWindow x y w h).wx = x := rfl
@[simp] theorem State.loadWindow_wy (s : State) (x y w h : Nat) : (s.loadWindow x y w h).wy = y := rfl
@[simp] theorem State.loadWindow_ww (s : State) (x y w h : Nat) : (s.loadWindow x y w h).ww = w := rfl
@[simp] theorem State.loadWindow_wh (s : State) (x y w h : Nat) : (s.loadWindow x y w h).wh = h := rfl
@[simp] theorem State.loadWindow_pcnt (s : State) (x y w h : Nat) : (s.loadWindow x y w h).pcnt = s.pcnt := rfl
@[simp] theorem State.loadWindow_srem (s : State) (x y w h : Nat) : (s.loadWindow x y w h).srem = s.srem := rfl
@[simp] theorem State.loadWindow_cx (s : State) (x y w h : Nat) : (s.loadWindow x y w h).cx = s.cx := rfl
@[simp] theorem State.loadWindow_cy (s : State) (x y w h : Nat) : (s.loadWindow x y w h).cy = s.cy := rfl
@[simp] theorem State.loadWindow_x0 (s : State) (x y w h : Nat) : (s.loadWindow x y w h).x0 = s.x0 := rfl
@[simp] theorem State.loadWindow_firstg (s : State) (x y w h : Nat) : (s.loadWindow x y w h).firstg = s.firstg := rfl
@[simp] theorem State.loadWindow_stopped (s : State) (x y w h : Nat) : (s.loadWindow x y w h).stopped = s.stopped := rfl
@[simp] theorem State.loadWindow_col (s : State) (x y w h : Nat) : (s.loadWindow x y w h).col = s.col := rfl
@[simp] theorem State.loadWindow_row (s : State) (x y w h : Nat) : (s.loadWindow x y w h).row = s.row := rfl
@[simp] theorem State.loadWindow_gb (s : State) (x y w h : Nat) : (s.loadWindow x y w h).gb = s.gb := rfl
@[simp] theorem State.loadWindow_selOpen (s : State) (x y w h : Nat) : (s.loadWindow x y w h).selOpen = s.selOpen := rfl
@[simp] theorem State.loadWindow_dcLevel (s : State) (x y w h : Nat) : (s.loadWindow x y w h).dcLevel = s.dcLevel := rfl
@[simp] theorem State.loadWindow_out (s : State) (x y w h : Nat) : (s.loadWindow x y w h).out = s.out := rfl
@[simp] theorem State.loadWindow_todo (s : State) (x y w h : Nat) : (s.loadWindow x y w h).todo = s.todo := rfl
@[simp] theorem State.loadWindow_xferBusy (s : State) (x y w h : Nat) : (s.loadWindow x y w h).xferBusy = s.xferBusy := rfl
@[simp] theorem State.loadWindow_consumer (s : State) (x y w h : Nat) : (s.loadWindow x y w h).consumer = s.consumer := rfl
@[simp] theorem State.loadWindow_inputs (s : State) (x y w h : Nat) : (s.loadWindow x y w h).inputs = s.inputs := rfl
@[simp] theorem State.loadWindow_credit (s : State) (x y w h : Nat) : (s.loadWindow x y w h).credit = s.credit := rfl
@[simp] theorem State.loadWindow_hostReads (s : State) (x y w h : Nat) : (s.loadWindow x y w h).hostReads = s.hostReads := rfl
@[simp] theorem State.loadWindow_seqReady (s : State) (x y w h : Nat) : (s.loadWindow x y w h).seqReady = s.seqReady := rfl
@[simp] theorem State.loadWindow_freeCount (s : State) (x y w h : Nat) : (s.loadWindow x y w h).freeCount = s.freeCount := rfl
@[simp] theorem State.loadWindow_trace (s : State) (x y w h : Nat) : (s.loadWindow x y w h).trace = s.trace := rfl

/-! ### raiseFault -/

@[simp] theorem State.raiseFault_params (s : State) (c : FaultCode) : (s.raiseFault c).params = s.params := rfl
@[simp] theorem State.raiseFault_engState (s : State) (c : FaultCode) : (s.raiseFault c).engState = .faulted := rfl
@[simp] theorem State.raiseFault_fcode (s : State) (c : FaultCode) : (s.raiseFault c).fcode = c := rfl
@[simp] theorem State.raiseFault_faultW0 (s : State) (c : FaultCode) : (s.raiseFault c).faultW0 = s.req.w0 := rfl
@[simp] theorem State.raiseFault_reqIndex (s : State) (c : FaultCode) : (s.raiseFault c).reqIndex = s.reqIndex := rfl
@[simp] theorem State.raiseFault_reqq (s : State) (c : FaultCode) : (s.raiseFault c).reqq = s.reqq := rfl
@[simp] theorem State.raiseFault_srcq (s : State) (c : FaultCode) : (s.raiseFault c).srcq = s.srcq := rfl
@[simp] theorem State.raiseFault_req (s : State) (c : FaultCode) : (s.raiseFault c).req = s.req := rfl
@[simp] theorem State.raiseFault_wx (s : State) (c : FaultCode) : (s.raiseFault c).wx = s.wx := rfl
@[simp] theorem State.raiseFault_wy (s : State) (c : FaultCode) : (s.raiseFault c).wy = s.wy := rfl
@[simp] theorem State.raiseFault_ww (s : State) (c : FaultCode) : (s.raiseFault c).ww = s.ww := rfl
@[simp] theorem State.raiseFault_wh (s : State) (c : FaultCode) : (s.raiseFault c).wh = s.wh := rfl
@[simp] theorem State.raiseFault_pcnt (s : State) (c : FaultCode) : (s.raiseFault c).pcnt = s.pcnt := rfl
@[simp] theorem State.raiseFault_srem (s : State) (c : FaultCode) : (s.raiseFault c).srem = s.srem := rfl
@[simp] theorem State.raiseFault_cx (s : State) (c : FaultCode) : (s.raiseFault c).cx = s.cx := rfl
@[simp] theorem State.raiseFault_cy (s : State) (c : FaultCode) : (s.raiseFault c).cy = s.cy := rfl
@[simp] theorem State.raiseFault_x0 (s : State) (c : FaultCode) : (s.raiseFault c).x0 = s.x0 := rfl
@[simp] theorem State.raiseFault_firstg (s : State) (c : FaultCode) : (s.raiseFault c).firstg = s.firstg := rfl
@[simp] theorem State.raiseFault_stopped (s : State) (c : FaultCode) : (s.raiseFault c).stopped = s.stopped := rfl
@[simp] theorem State.raiseFault_col (s : State) (c : FaultCode) : (s.raiseFault c).col = s.col := rfl
@[simp] theorem State.raiseFault_row (s : State) (c : FaultCode) : (s.raiseFault c).row = s.row := rfl
@[simp] theorem State.raiseFault_gb (s : State) (c : FaultCode) : (s.raiseFault c).gb = s.gb := rfl
@[simp] theorem State.raiseFault_selOpen (s : State) (c : FaultCode) : (s.raiseFault c).selOpen = s.selOpen := rfl
@[simp] theorem State.raiseFault_dcLevel (s : State) (c : FaultCode) : (s.raiseFault c).dcLevel = s.dcLevel := rfl
@[simp] theorem State.raiseFault_out (s : State) (c : FaultCode) : (s.raiseFault c).out = s.out := rfl
@[simp] theorem State.raiseFault_todo (s : State) (c : FaultCode) : (s.raiseFault c).todo = [] := rfl
@[simp] theorem State.raiseFault_xferBusy (s : State) (c : FaultCode) : (s.raiseFault c).xferBusy = s.xferBusy := rfl
@[simp] theorem State.raiseFault_consumer (s : State) (c : FaultCode) : (s.raiseFault c).consumer = s.consumer := rfl
@[simp] theorem State.raiseFault_inputs (s : State) (c : FaultCode) : (s.raiseFault c).inputs = s.inputs := rfl
@[simp] theorem State.raiseFault_credit (s : State) (c : FaultCode) : (s.raiseFault c).credit = s.credit := rfl
@[simp] theorem State.raiseFault_hostReads (s : State) (c : FaultCode) : (s.raiseFault c).hostReads = s.hostReads := rfl
@[simp] theorem State.raiseFault_seqReady (s : State) (c : FaultCode) : (s.raiseFault c).seqReady = s.seqReady := rfl
@[simp] theorem State.raiseFault_freeCount (s : State) (c : FaultCode) : (s.raiseFault c).freeCount = s.freeCount := rfl
@[simp] theorem State.raiseFault_trace (s : State) (c : FaultCode) : (s.raiseFault c).trace = s.trace := rfl

/-- Spending from an unlimited credit changes nothing. -/
theorem State.spend_of_none (s : State) (h : s.credit = none) : s.spend = s := by
  cases s; simp only [State.spend] at *; subst h; rfl

end Sys2Proof.Machine
end

