-- ==== Sys2Proof/Laws/Engine.lean ====
section
/-! SUPPORT. Laws/Engine.lean: what each statement of a request's program does when nothing interrupts it, and how the run of
a program is put together from its parts. The provers cite these instead of unfolding the engine. -/

namespace Sys2Proof.Machine

/-! ### Runs -/

theorem State.runFor_stop (s : State) (h : s.canRun = false) (n : Nat) : s.runFor n = s := by
  cases n <;> simp [State.runFor, h]

theorem State.runFor_add (a b : Nat) (s : State) : s.runFor (a + b) = (s.runFor a).runFor b := by
  induction a generalizing s with
  | zero => simp [State.runFor]
  | succ a ih =>
    rw [Nat.succ_add]
    by_cases h : s.canRun = true
    · simp [State.runFor, h, ih]
    · simp [State.runFor, h, State.runFor_stop s (by simpa using h)]

/-- `k` micro-operations lead from `s` to `t`, whatever runs after them. -/
def Steps (k : Nat) (s t : State) : Prop := ∀ n, s.runFor (k + n) = t.runFor n

theorem Steps.refl (s : State) : Steps 0 s s := fun n => by rw [Nat.zero_add]

theorem Steps.trans {a b : Nat} {s t u : State} (h : Steps a s t) (h' : Steps b t u) : Steps (a + b) s u :=
  fun n => by rw [Nat.add_assoc, h, h']

theorem Steps.one {s : State} (h : s.canRun = true) : Steps 1 s s.microStep.spend :=
  fun n => by rw [Nat.add_comm]; simp [State.runFor, h]

/-- A run that reaches a state where nothing can run ends there, whatever patience is left. -/
theorem Steps.ends {k n : Nat} {s t : State} (h : Steps k s t) (hk : k ≤ n) (ht : t.canRun = false) : s.runFor n = t := by
  obtain ⟨m, rfl⟩ := Nat.exists_eq_add_of_le hk
  rw [h, State.runFor_stop t ht]

/-! ### One statement -/

/-- A request is in progress, nothing interrupts it and no exchange is in progress. -/
structure Going (s : State) : Prop where
  run : s.engState = .run
  credit : s.credit = none
  xfer : s.xferBusy = false

/-- What no statement of a program changes. -/
structure SameOutside (s t : State) : Prop where
  params : t.params = s.params
  engState : t.engState = s.engState
  fcode : t.fcode = s.fcode
  faultW0 : t.faultW0 = s.faultW0
  reqIndex : t.reqIndex = s.reqIndex
  reqq : t.reqq = s.reqq
  req : t.req = s.req
  inputs : t.inputs = s.inputs
  credit : t.credit = s.credit
  hostReads : t.hostReads = s.hostReads
  seqReady : t.seqReady = s.seqReady
  freeCount : t.freeCount = s.freeCount

theorem SameOutside.refl (s : State) : SameOutside s s := ⟨rfl, rfl, rfl, rfl, rfl, rfl, rfl, rfl, rfl, rfl, rfl, rfl⟩

theorem SameOutside.trans {s t u : State} (h : SameOutside s t) (h' : SameOutside t u) : SameOutside s u :=
  ⟨h'.params.trans h.params, h'.engState.trans h.engState, h'.fcode.trans h.fcode, h'.faultW0.trans h.faultW0,
    h'.reqIndex.trans h.reqIndex, h'.reqq.trans h.reqq, h'.req.trans h.req, h'.inputs.trans h.inputs,
    h'.credit.trans h.credit, h'.hostReads.trans h.hostReads, h'.seqReady.trans h.seqReady,
    h'.freeCount.trans h.freeCount⟩

theorem State.emit_sameOutside (s : State) (e : Event) : SameOutside s (s.emit e) := by
  constructor <;> simp

theorem State.srcRead_eq {s s' : State} {b : Byte} (h : s.srcRead = some (b, s')) :
    s.srcq = b :: s'.srcq ∧ s' = { s with srcq := s'.srcq } := by
  unfold State.srcRead at h
  split at h
  · cases h
  · next q hq => cases h; exact ⟨hq, rfl⟩

theorem State.setWindow_sameOutside (s : State) (x y w h : Nat) (next : Nat → List Micro) :
    SameOutside s (s.setWindow x y w h next) := by
  unfold State.setWindow
  split <;> constructor <;> rfl

theorem State.char_sameOutside (s : State) (c : Nat) (fg bg : Color) (sc : Nat) : SameOutside s (s.char c fg bg sc) := by
  unfold State.char
  split_ifs <;> exact ⟨rfl, rfl, rfl, rfl, rfl, rfl, rfl, rfl, rfl, rfl, rfl, rfl⟩

/-- The frame of every statement: nothing outside the request's own registers and the output changes. -/
theorem State.micro_sameOutside (s : State) (m : Micro) : SameOutside s (s.micro m) := by
  cases m with
  | emit e => exact s.emit_sameOutside e
  | setWindow x y w h => rw [State.micro]; exact s.setWindow_sameOutside x y w h _
  | fillRect x y w h v => rw [State.micro]; exact s.setWindow_sameOutside x y w h _
  | pixels v => simp only [State.micro, State.pixels]; split <;> constructor <;> rfl
  | imageBytes =>
    simp only [State.micro, State.imageBytes]
    split
    · exact .refl s
    · split
      · constructor <;> rfl
      · next h => obtain ⟨-, h⟩ := State.srcRead_eq h; rw [h]; constructor <;> rfl
  | drain =>
    simp only [State.micro, State.drain]
    split
    · exact .refl s
    · split
      · constructor <;> rfl
      · next h => obtain ⟨-, h⟩ := State.srcRead_eq h; rw [h]; constructor <;> rfl
  | chars fg bg sc =>
    simp only [State.micro, State.chars]
    split
    · exact .refl s
    · split
      · constructor <;> rfl
      · next h =>
        obtain ⟨-, h⟩ := State.srcRead_eq h
        rw [h]
        exact SameOutside.trans (by constructor <;> rfl) (State.char_sameOutside ..)
  | _ => constructor <;> rfl

/-- One statement of the program, when it does not wait. -/
theorem Going.micro {s : State} (g : Going s) {m : Micro} {rest : List Micro} (h : s.todo = m :: rest)
    (hw : s.waitsForSource = false) : Steps 1 s ((s.withTodo rest).micro m) := by
  have hr : s.canRun = true := by simp [State.canRun, State.held, g.run, g.credit, hw]
  have := Steps.one hr
  have hm : s.microStep = (s.withTodo rest).micro m := by rw [State.microStep, if_neg (by simp [g.xfer]), h]
  rw [hm, State.spend_of_none _ ((State.micro_sameOutside (s.withTodo rest) m).credit.trans g.credit)] at this
  exact this

/-! ### Emitting -/

/-- The events are emitted, each exchange completed. -/
def State.emitAll (es : List Event) (s : State) : State := es.foldl (fun s e => (s.emit e).completeXfer) s

theorem State.emitAll_cons (e : Event) (es : List Event) (s : State) :
    s.emitAll (e :: es) = ((s.emit e).completeXfer).emitAll es := rfl

/-- All that emitting a list of events changes. -/
theorem State.emitAll_eq (es : List Event) (s : State) (hx : s.xferBusy = false) :
    s.emitAll es = { s with
      out := es.reverse ++ s.out
      selOpen := es.foldl selAfter s.selOpen
      dcLevel := (s.observed es).1
      consumer := (s.observed es).2 } := by
  induction es generalizing s with
  | nil => rfl
  | cons e es ih =>
    rw [State.emitAll_cons, ih _ rfl]
    cases s
    subst hx
    cases e <;> simp [State.emit, State.completeXfer, State.observed, observe, selAfter]

/-- The number of micro-operations of an event: an exchange takes a second one, TRANSPORT's. -/
def eventCost : Event → Nat
  | .xfer _ => 2
  | _ => 1

/-- The number of micro-operations of a list of events. -/
def eventsCost (es : List Event) : Nat := (es.map eventCost).sum

theorem Going.emit {s : State} (g : Going s) {e : Event} {rest : List Micro} (h : s.todo = .emit e :: rest) :
    Steps (eventCost e) s (((s.withTodo rest).emit e).completeXfer) := by
  have one := g.micro h (by simp [State.waitsForSource, h])
  have hx := g.xfer
  cases e with
  | xfer b =>
    have hr : ((s.withTodo rest).micro (.emit (.xfer b))).canRun = true := by
      simp [State.canRun, State.held, State.waitsForSource, State.micro, g.run, g.credit, busyAfter]
    have two := Steps.one hr
    rw [State.spend_of_none] at two
    · exact one.trans two
    · simp [State.microStep, State.micro, busyAfter, g.credit]
  | sel => cases s; subst hx; exact one
  | desel => cases s; subst hx; exact one
  | dc l => cases s; subst hx; exact one

/-- A list of events is emitted. -/
theorem Going.emits {s : State} (g : Going s) {es : List Event} {rest : List Micro} (h : s.todo = emits es ++ rest) :
    Steps (eventsCost es) s ((s.withTodo rest).emitAll es) := by
  induction es generalizing s with
  | nil =>
    have : s.withTodo rest = s := by
      have h : s.todo = rest := by simpa [Machine.emits] using h
      rw [← h]; rfl
    simpa [this, State.emitAll, eventsCost] using Steps.refl s
  | cons e es ih =>
    have step := g.emit (e := e) (rest := Machine.emits es ++ rest) (by simpa [Machine.emits] using h)
    have next := ih (s := ((s.withTodo (Machine.emits es ++ rest)).emit e).completeXfer)
      ⟨by simpa using g.run, by simpa using g.credit, rfl⟩ (by simp)
    have hs : (((s.withTodo (Machine.emits es ++ rest)).emit e).completeXfer.withTodo rest).emitAll es
        = ((s.withTodo rest)).emitAll (e :: es) := by
      rw [State.emitAll_cons]
      cases e <;> rfl
    rw [hs] at next
    simpa [eventsCost] using step.trans next

end Sys2Proof.Machine
end

