-- ==== Sys2Proof/Laws/Fill.lean ====
section
/-! SUPPORT. Laws/Fill.lean: SetWindow, FillStream and FillRect from beginning to end, when nothing interrupts them. -/

namespace Sys2Proof.Machine

/-! ### Emitting commutes with the registers it does not touch -/

theorem State.emitAll_append (es fs : List Event) (s : State) : s.emitAll (es ++ fs) = (s.emitAll es).emitAll fs := by
  simp [State.emitAll]

theorem State.emitAll_withTodo (es : List Event) (ms : List Micro) (s : State) :
    (s.withTodo ms).emitAll es = (s.emitAll es).withTodo ms := by
  induction es generalizing s with
  | nil => rfl
  | cons e es ih => rw [State.emitAll_cons, State.emitAll_cons, ← ih]; cases e <;> rfl

/-- PCNT takes a value. -/
def State.withPcnt (n : Nat) (s : State) : State := { s with pcnt := n }

@[simp] theorem State.withPcnt_withPcnt (m n : Nat) (s : State) : (s.withPcnt m).withPcnt n = s.withPcnt n := rfl

@[simp] theorem State.withTodo_withTodo (a b : List Micro) (s : State) : (s.withTodo a).withTodo b = s.withTodo b := rfl

theorem State.withPcnt_withTodo (n : Nat) (ms : List Micro) (s : State) :
    (s.withPcnt n).withTodo ms = (s.withTodo ms).withPcnt n := rfl

theorem State.emitAll_withPcnt (es : List Event) (n : Nat) (s : State) :
    (s.withPcnt n).emitAll es = (s.emitAll es).withPcnt n := by
  induction es generalizing s with
  | nil => rfl
  | cons e es ih => rw [State.emitAll_cons, State.emitAll_cons, ← ih]; cases e <;> rfl

theorem State.completeXfer_sameOutside (s : State) : SameOutside s s.completeXfer := by constructor <;> rfl

theorem State.withPcnt_sameOutside (n : Nat) (s : State) : SameOutside s (s.withPcnt n) := by constructor <;> rfl

theorem State.loadWindow_sameOutside (x y w h : Nat) (s : State) : SameOutside s (s.loadWindow x y w h) := by
  constructor <;> rfl

theorem State.emitAll_sameOutside (es : List Event) (s : State) : SameOutside s (s.emitAll es) := by
  induction es generalizing s with
  | nil => exact .refl s
  | cons e es ih =>
    rw [State.emitAll_cons]
    exact ((s.emit_sameOutside e).trans (s.emit e).completeXfer_sameOutside).trans (ih _)

theorem State.emitAll_xferBusy (es : List Event) (s : State) (h : s.xferBusy = false) : (s.emitAll es).xferBusy = false := by
  rw [State.emitAll_eq es s h]; exact h

theorem Going.emitAll {s : State} (g : Going s) (es : List Event) : Going (s.emitAll es) :=
  ⟨(s.emitAll_sameOutside es).engState.trans g.run, (s.emitAll_sameOutside es).credit.trans g.credit,
    s.emitAll_xferBusy es g.xfer⟩

theorem Going.withTodo {s : State} (g : Going s) (ms : List Micro) : Going (s.withTodo ms) := ⟨g.run, g.credit, g.xfer⟩

theorem Going.withPcnt {s : State} (g : Going s) (n : Nat) : Going (s.withPcnt n) := ⟨g.run, g.credit, g.xfer⟩

theorem Going.loadWindow {s : State} (g : Going s) (x y w h : Nat) : Going (s.loadWindow x y w h) :=
  ⟨g.run, g.credit, g.xfer⟩

/-! ### FillStream -/

theorem pixelBytes_succ (n : Nat) (v : Color) : pixelBytes (n + 1) v = colorHi v :: colorLo v :: pixelBytes n v := by
  simp [pixelBytes, List.replicate_succ]

/-- FillStream's loop (R99): PCNT pixels are sent. -/
theorem Going.pixels {n : Nat} {v : Color} {rest : List Micro} {s : State} (g : Going s) (h : s.todo = .pixels v :: rest)
    (hn : s.pcnt = n) :
    Steps (6 * n + 1) s (((s.emitAll ((pixelBytes n v).map .xfer)).withTodo rest).withPcnt 0) := by
  induction n generalizing s with
  | zero =>
    have one := g.micro h (by simp [State.waitsForSource, h])
    have e : (s.withTodo rest).micro (.pixels v)
        = ((s.emitAll ((pixelBytes 0 v).map .xfer)).withTodo rest).withPcnt 0 := by
      simp only [State.micro, State.pixels, State.withTodo_pcnt, hn, if_pos]
      cases s
      subst hn
      rfl
    rwa [e] at one
  | succ n ih =>
    have one := g.micro h (by simp [State.waitsForSource, h])
    have e : (s.withTodo rest).micro (.pixels v)
        = s.withTodo (Machine.emits [.xfer (colorHi v), .xfer (colorLo v)] ++ (.pixelSent :: .pixels v :: rest)) := by
      simp only [State.micro, State.pixels, State.withTodo_pcnt, hn]
      rfl
    rw [e] at one
    have two := (g.withTodo (Machine.emits [.xfer (colorHi v), .xfer (colorLo v)] ++ (.pixelSent :: .pixels v :: rest))).emits
      (es := [.xfer (colorHi v), .xfer (colorLo v)]) rfl
    have g3 := ((g.withTodo (.pixelSent :: .pixels v :: rest)).emitAll [.xfer (colorHi v), .xfer (colorLo v)])
    have three := g3.micro (m := .pixelSent) (rest := .pixels v :: rest)
      (by rw [State.emitAll_withTodo]; rfl) (by simp [State.waitsForSource, State.emitAll_withTodo])
    have e3 : (((s.withTodo (.pixelSent :: .pixels v :: rest)).emitAll [.xfer (colorHi v), .xfer (colorLo v)]).withTodo
          (.pixels v :: rest)).micro .pixelSent
        = ((s.emitAll [.xfer (colorHi v), .xfer (colorLo v)]).withTodo (.pixels v :: rest)).withPcnt n := by
      rw [State.emitAll_withTodo]
      simp only [State.micro, State.withPcnt]
      have : (s.emitAll [.xfer (colorHi v), .xfer (colorLo v)]).pcnt = n + 1 := by
        rw [State.emitAll_eq _ _ g.xfer]; exact hn
      simp [State.withTodo, this]
    rw [e3] at three
    have g4 : Going (((s.emitAll [.xfer (colorHi v), .xfer (colorLo v)]).withTodo (.pixels v :: rest)).withPcnt n) :=
      ((g.emitAll _).withTodo _).withPcnt _
    have four := ih g4 rfl rfl
    have e4 : (((((s.emitAll [.xfer (colorHi v), .xfer (colorLo v)]).withTodo (.pixels v :: rest)).withPcnt n).emitAll
          ((pixelBytes n v).map .xfer)).withTodo rest).withPcnt 0
        = ((s.emitAll ((pixelBytes (n + 1) v).map .xfer)).withTodo rest).withPcnt 0 := by
      rw [State.emitAll_withPcnt, State.emitAll_withTodo, ← State.emitAll_append, State.withPcnt_withTodo,
        State.withPcnt_withPcnt, State.withTodo_withTodo, pixelBytes_succ]
      simp only [List.map_cons, List.cons_append, List.nil_append]
    rw [e4] at four
    have all := ((one.trans two).trans three).trans four
    rwa [show 1 + eventsCost [.xfer (colorHi v), .xfer (colorLo v)] + 1 + (6 * n + 1) = 6 * (n + 1) + 1 by
      simp only [eventsCost, List.map, eventCost, List.sum_cons, List.sum_nil]; omega] at all

/-- `PCNT <- n`. -/
theorem Going.loadPcnt {s : State} (g : Going s) {n : Nat} {rest : List Micro} (h : s.todo = .loadPcnt n :: rest) :
    Steps 1 s ((s.withTodo rest).withPcnt n) :=
  g.micro h (by simp [State.waitsForSource, h])

/-- FillStream (R99): one burst of `n` pixels. -/
theorem Going.fillStream {s : State} (g : Going s) {n : Nat} {v : Color} {rest : List Micro}
    (h : s.todo = Machine.fillStream v n ++ rest) :
    Steps (6 * n + 5) s (((s.emitAll (burst (pixelBytes n v))).withTodo rest).withPcnt 0) := by
  have one := g.emits (es := burstOpen) (rest := .loadPcnt n :: .pixels v :: (Machine.emits burstClose ++ rest))
    (by simpa [Machine.fillStream] using h)
  rw [State.emitAll_withTodo] at one
  have g1 := g.emitAll burstOpen
  have two := (g1.withTodo (.loadPcnt n :: .pixels v :: (Machine.emits burstClose ++ rest))).loadPcnt rfl
  have g2 := (g1.withTodo (.pixels v :: (Machine.emits burstClose ++ rest))).withPcnt n
  have three := g2.pixels (n := n) rfl rfl
  rw [State.emitAll_withPcnt, State.emitAll_withTodo, State.withPcnt_withTodo, State.withPcnt_withPcnt,
    State.withTodo_withTodo] at three
  have g3 := ((g1.emitAll ((pixelBytes n v).map .xfer)).withTodo (Machine.emits burstClose ++ rest)).withPcnt 0
  have four := g3.emits rfl
  rw [State.withPcnt_withTodo, State.withTodo_withTodo, State.emitAll_withPcnt, State.emitAll_withTodo,
    ← State.emitAll_append, ← State.emitAll_append] at four
  have all := ((one.trans two).trans three).trans four
  rw [show burst (pixelBytes n v) = burstOpen ++ (pixelBytes n v).map .xfer ++ burstClose from rfl]
  rw [show 6 * n + 5 = eventsCost burstOpen + 1 + (6 * n + 1) + eventsCost burstClose by
    simp only [eventsCost, burstOpen, burstClose, List.map, eventCost, List.sum_cons, List.sum_nil]; omega]
  simpa only [List.append_assoc] using all

/-! ### Programs in a bounded number of micro-operations -/

/-- At most `b` micro-operations lead from `s` to `t`. -/
def Within (b : Nat) (s t : State) : Prop := ∃ k ≤ b, Steps k s t

theorem Steps.within {k : Nat} {s t : State} (h : Steps k s t) : Within k s t := ⟨k, le_rfl, h⟩

theorem Within.trans {a b : Nat} {s t u : State} : Within a s t → Within b t u → Within (a + b) s u
  | ⟨k, hk, h⟩, ⟨l, hl, h'⟩ => ⟨k + l, Nat.add_le_add hk hl, h.trans h'⟩

theorem Within.mono {a b : Nat} {s t : State} (h : Within a s t) (hab : a ≤ b) : Within b s t :=
  let ⟨k, hk, hs⟩ := h; ⟨k, hk.trans hab, hs⟩

/-- A request that reaches the end of its program within the patience ends there, with ENG_STATE IDLE. -/
theorem Within.request {b : Nat} {s t : State} {program : List Micro}
    (h : Within b ((s.withEngState .run).withTodo program) t) (g : Going t) (ht : t.todo = [])
    (hb : b + 1 ≤ ((s.withEngState .run).withTodo program).patience) :
    s.request program = t.withEngState .idle := by
  obtain ⟨k, hk, hs⟩ := h
  have last : Steps 1 t (t.withEngState .idle) := by
    have := Steps.one (s := t) (by simp [State.canRun, State.held, State.waitsForSource, g.run, g.credit, ht])
    have hm : t.microStep = t.withEngState .idle := by rw [State.microStep, if_neg (by simp [g.xfer]), ht]
    rwa [hm, State.spend_of_none (t.withEngState .idle) g.credit] at this
  rw [State.request, State.goOn]
  exact (hs.trans last).ends (by omega) (by simp [State.canRun])

/-! ### SetWindow and FillRect -/

theorem windowEvents_eq (p : Params) (x y w h : Nat) : windowEvents p x y w h = transactions (windowBytes p x y w h) := rfl

theorem windowEvents_cost (p : Params) (x y w h : Nat) : eventsCost (windowEvents p x y w h) = 55 := by
  simp [eventsCost, windowEvents, cmdTxn, dataTxn, eventCost]

/-- The state after `FillRect(x, y, w, h, v)`, the program apart. -/
def State.painted (x y w h : Nat) (v : Color) (s : State) : State :=
  match clip x y w h with
  | .noOp => s
  | .window x' y' w' h' => ((s.loadWindow x' y' w' h').emitAll (fillTrace s.params x y w h v)).withPcnt 0

theorem clip_area {x y w h x' y' w' h' : Nat} (hc : clip x y w h = .window x' y' w' h') : w' * h' ≤ 76800 := by
  unfold clip at hc
  split at hc
  · cases hc
  · cases hc
    calc min w (Config.surfW - x) * min h (Config.surfH - y) ≤ 240 * 320 :=
          Nat.mul_le_mul (by simp only [Config.surfW]; omega) (by simp only [Config.surfH]; omega)
      _ = 76800 := rfl

theorem State.painted_sameOutside (x y w h : Nat) (v : Color) (s : State) : SameOutside s (s.painted x y w h v) := by
  unfold State.painted
  split
  · exact .refl s
  · next x' y' w' h' _ =>
    exact ((s.loadWindow_sameOutside x' y' w' h').trans (State.emitAll_sameOutside _ _)).trans
      (State.withPcnt_sameOutside _ _)

theorem Going.painted {s : State} (g : Going s) (x y w h : Nat) (v : Color) : Going (s.painted x y w h v) := by
  unfold State.painted
  split
  · exact g
  · exact ((g.loadWindow _ _ _ _).emitAll _).withPcnt _

theorem State.painted_withTodo (x y w h : Nat) (v : Color) (ms : List Micro) (s : State) :
    (s.withTodo ms).painted x y w h v = (s.painted x y w h v).withTodo ms := by
  unfold State.painted
  split
  · rfl
  · next x' y' w' h' _ =>
    show (((s.loadWindow x' y' w' h').withTodo ms).emitAll _).withPcnt 0 = _
    rw [State.emitAll_withTodo]
    rfl

/-- FillRect (R102), from beginning to end. -/
theorem Going.fillRect {s : State} (g : Going s) {x y w h : Nat} {v : Color} {rest : List Micro}
    (ht : s.todo = .fillRect x y w h v :: rest) : Within 500000 s ((s.painted x y w h v).withTodo rest) := by
  have one := g.micro ht (by simp [State.waitsForSource, ht])
  rw [State.micro, State.setWindow] at one
  cases hc : clip x y w h with
  | noOp =>
    rw [hc] at one
    rw [State.painted, hc]
    exact one.within.mono (by omega)
  | window x' y' w' h' =>
    rw [hc] at one
    have area := clip_area hc
    have g0 : Going (s.loadWindow x' y' w' h') := g.loadWindow ..
    have one' : Steps 1 s ((s.loadWindow x' y' w' h').withTodo
        (Machine.emits (windowEvents s.params x' y' w' h') ++ (Machine.fillStream v (w' * h') ++ rest))) := by
      simpa [State.push, State.withTodo, State.loadWindow] using one
    have two := (g0.withTodo (Machine.emits (windowEvents s.params x' y' w' h')
      ++ (Machine.fillStream v (w' * h') ++ rest))).emits rfl
    rw [State.withTodo_withTodo, State.emitAll_withTodo] at two
    have g1 := (g0.emitAll (windowEvents s.params x' y' w' h')).withTodo (Machine.fillStream v (w' * h') ++ rest)
    have three := g1.fillStream rfl
    rw [State.emitAll_withTodo, State.withTodo_withTodo, ← State.emitAll_append, windowEvents_eq] at three
    have e : (s.painted x y w h v).withTodo rest
        = (((s.loadWindow x' y' w' h').emitAll (transactions (windowBytes s.params x' y' w' h')
          ++ burst (pixelBytes (w' * h') v))).withTodo rest).withPcnt 0 := by
      rw [State.painted, hc, fillTrace, hc, ← State.withPcnt_withTodo]
    rw [e]
    refine ((one'.trans two).trans three).within.mono ?_
    rw [windowEvents_cost]
    omega

end Sys2Proof.Machine
end

