-- ==== Sys2Proof/Laws/Requests.lean ====
section
/-! SUPPORT. Laws/Requests.lean: a glyph, the two loops of an image and the loop of a string from beginning to end, when
nothing interrupts them and the source queue holds the bytes they read. -/

namespace Sys2Proof.Machine

/-! ### What drawing changes -/

theorem State.observed_append (s : State) (es fs : List Event) :
    s.observed (es ++ fs) = fs.foldl (observe s.params) (s.observed es) := by simp [State.observed]

/-- `t` is `s` after the events `es`, by way of the working registers of the clipper, the pixel stream and the glyph. -/
structure Drawn (es : List Event) (s t : State) : Prop where
  frame : t = { s with
    todo := t.todo, out := t.out, dcLevel := t.dcLevel, consumer := t.consumer
    wx := t.wx, wy := t.wy, ww := t.ww, wh := t.wh, pcnt := t.pcnt, col := t.col, row := t.row, gb := t.gb }
  out : t.out = es.reverse ++ s.out
  seen : (t.dcLevel, t.consumer) = s.observed es

theorem Drawn.refl (s : State) : Drawn [] s s := ⟨rfl, rfl, rfl⟩

theorem Drawn.trans {es fs : List Event} {s t u : State} (h : Drawn es s t) (h' : Drawn fs t u) : Drawn (es ++ fs) s u := by
  refine ⟨?_, by rw [h'.out, h.out, List.reverse_append, List.append_assoc], ?_⟩
  · rw [h'.frame, h.frame]
  · have hp : t.params = s.params := by rw [h.frame]
    rw [h'.seen, State.observed_append, ← h.seen, State.observed, hp]

theorem Drawn.going {es : List Event} {s t : State} (h : Drawn es s t) (g : Going s) : Going t :=
  ⟨by rw [h.frame]; exact g.run, by rw [h.frame]; exact g.credit, by rw [h.frame]; exact g.xfer⟩

theorem Drawn.selOpen {es : List Event} {s t : State} (h : Drawn es s t) : t.selOpen = s.selOpen := by rw [h.frame]

theorem Drawn.params {es : List Event} {s t : State} (h : Drawn es s t) : t.params = s.params := by rw [h.frame]

theorem Drawn.withTodo {es : List Event} {s t : State} (h : Drawn es s t) (ms : List Micro) : Drawn es s (t.withTodo ms) :=
  ⟨by rw [h.frame]; rfl, h.out, h.seen⟩

/-! ### A filled rectangle -/

theorem transactions_closed (bs : List (Level × Byte)) : (transactions bs).foldl selAfter false = false := by
  induction bs with
  | nil => rfl
  | cons b bs ih => simpa [transactions, selAfter] using ih

theorem burst_closed (bs : List Byte) (b : Bool) : (burst bs).foldl selAfter b = false := by
  simp [burst, selAfter]

theorem fillTrace_closed (p : Params) (x y w h : Nat) (v : Color) : (fillTrace p x y w h v).foldl selAfter false = false := by
  unfold fillTrace
  split
  · rfl
  · rw [List.foldl_append, burst_closed]

/-- What a filled rectangle changes. -/
theorem State.painted_drawn (x y w h : Nat) (v : Color) (s : State) (hx : s.xferBusy = false) (ho : s.selOpen = false) :
    Drawn (fillTrace s.params x y w h v) s (s.painted x y w h v) := by
  unfold State.painted
  split
  · next hc => rw [fillTrace, hc]; exact Drawn.refl s
  · next x' y' w' h' hc =>
    have e := (s.loadWindow x' y' w' h').emitAll_eq (fillTrace s.params x y w h v) hx
    refine ⟨?_, ?_, ?_⟩
    · rw [e]
      simp only [State.withPcnt, State.loadWindow, ho, fillTrace_closed]
    · rw [State.withPcnt, e]; rfl
    · rw [State.withPcnt, e]; rfl

theorem State.painted_col (x y w h : Nat) (v : Color) (s : State) (hx : s.xferBusy = false) :
    (s.painted x y w h v).col = s.col ∧ (s.painted x y w h v).row = s.row ∧ (s.painted x y w h v).gb = s.gb := by
  unfold State.painted
  split
  · exact ⟨rfl, rfl, rfl⟩
  · next x' y' w' h' hc =>
    simp only [State.withPcnt]
    rw [(s.loadWindow x' y' w' h').emitAll_eq _ hx]
    exact ⟨rfl, rfl, rfl⟩

/-! ### A glyph -/

/-- FontRead inside the font table (R31, R40). -/
theorem fontRead_eq (p : Params) {c col : Nat} (h : 32 ≤ c) (h' : c < 127) (hc : col < 5) :
    fontRead p c col = p.font[(c - 32) * 5 + col]?.getD 0 := by
  have hi : (c - 32) * 5 + col < 475 := by omega
  simp only [fontRead, Config.glyphFirst, Config.glyphCols]
  rw [Vector.getElem?_eq_getElem hi]
  rfl

/-- The cells of the glyph column COL (R122). -/
def columnTrace (p : Params) (gb : Byte) (x y : Nat) (fg bg : Color) (sc : Nat) (rows : List Nat) : List Event :=
  rows.flatMap fun row => fillTrace p x (y + row * sc) sc sc (if lit gb row then fg else bg)

theorem Going.cells {rows : List Nat} {s : State} (g : Going s) (ho : s.selOpen = false) {x y : Nat} {fg bg : Color}
    {sc : Nat} {rest : List Micro} (h : s.todo = rows.map (.cell x y fg bg sc ·) ++ rest) :
    ∃ t, Within (500001 * rows.length) s t ∧ t.todo = rest ∧ t.col = s.col ∧ t.gb = s.gb ∧
      Drawn (columnTrace s.params s.gb (x + s.col * sc) y fg bg sc rows) s t := by
  induction rows generalizing s with
  | nil => exact ⟨s, ⟨0, by omega, Steps.refl s⟩, h, rfl, rfl, Drawn.refl s⟩
  | cons row rows ih =>
    have one := g.micro (m := .cell x y fg bg sc row) (rest := rows.map (.cell x y fg bg sc ·) ++ rest)
      (by simpa using h)
      (by simp [State.waitsForSource, h])
    let s1 : State := { s with row := row }
    have g1 : Going s1 := ⟨g.run, g.credit, g.xfer⟩
    let v : Color := if lit s.gb row then fg else bg
    have one' : Steps 1 s (s1.withTodo (.fillRect (x + s.col * sc) (y + row * sc) sc sc v
        :: (rows.map (.cell x y fg bg sc ·) ++ rest))) := one
    have two := (g1.withTodo (.fillRect (x + s.col * sc) (y + row * sc) sc sc v
        :: (rows.map (.cell x y fg bg sc ·) ++ rest))).fillRect rfl
    rw [State.painted_withTodo, State.withTodo_withTodo] at two
    have g2 := (g1.painted (x + s.col * sc) (y + row * sc) sc sc v).withTodo (rows.map (.cell x y fg bg sc ·) ++ rest)
    have d1 : Drawn [] s s1 := ⟨rfl, rfl, rfl⟩
    have d2 := d1.trans ((s1.painted_drawn (x + s.col * sc) (y + row * sc) sc sc v g.xfer ho).withTodo
      (rows.map (.cell x y fg bg sc ·) ++ rest))
    have regs := s1.painted_col (x + s.col * sc) (y + row * sc) sc sc v g.xfer
    obtain ⟨t, ht, htodo, hcol, hgb, d⟩ := ih g2 (by rw [d2.selOpen, ho]) rfl
    refine ⟨t, ((one'.within.trans two).trans ht).mono ?_, htodo, hcol.trans regs.1, hgb.trans regs.2.2, ?_⟩
    · simp only [List.length_cons]; omega
    · have e1 : ((s1.painted (x + s.col * sc) (y + row * sc) sc sc v).withTodo
          (rows.map (.cell x y fg bg sc ·) ++ rest)).gb = s.gb := regs.2.2
      have e2 : ((s1.painted (x + s.col * sc) (y + row * sc) sc sc v).withTodo
          (rows.map (.cell x y fg bg sc ·) ++ rest)).col = s.col := regs.1
      rw [e1, e2, d2.params] at d
      have := d2.trans d
      simpa [columnTrace, s1, v] using this

theorem Going.columns {cols : List Nat} {s : State} (g : Going s) (ho : s.selOpen = false) {c x y : Nat} {fg bg : Color}
    {sc : Nat} {rest : List Micro} (h : s.todo = cols.map (.column c x y fg bg sc ·) ++ rest) :
    ∃ t, Within (2500006 * cols.length) s t ∧ t.todo = rest ∧
      Drawn (cols.flatMap fun col => columnTrace s.params (fontRead s.params c col) (x + col * sc) y fg bg sc [0, 1, 2, 3, 4])
        s t := by
  induction cols generalizing s with
  | nil => exact ⟨s, ⟨0, by omega, Steps.refl s⟩, h, Drawn.refl s⟩
  | cons col cols ih =>
    have one := g.micro (m := .column c x y fg bg sc col) (rest := cols.map (.column c x y fg bg sc ·) ++ rest)
      (by simpa using h)
      (by simp [State.waitsForSource, h])
    let s1 : State := { s with col := col, gb := fontRead s.params c col }
    have g1 : Going s1 := ⟨g.run, g.credit, g.xfer⟩
    have d1 : Drawn [] s s1 := ⟨rfl, rfl, rfl⟩
    let ms : List Micro := [0, 1, 2, 3, 4].map (.cell x y fg bg sc ·) ++ (cols.map (.column c x y fg bg sc ·) ++ rest)
    have one' : Steps 1 s (s1.withTodo ms) := one
    obtain ⟨t, ht, htodo, -, -, d⟩ := (g1.withTodo ms).cells ho (rows := [0, 1, 2, 3, 4]) rfl
    have d2 := (d1.withTodo ms).trans d
    obtain ⟨u, hu, hutodo, d'⟩ := ih (d2.going g) (by rw [d2.selOpen, ho]) htodo
    refine ⟨u, ((one'.within.trans ht).trans hu).mono ?_, hutodo, ?_⟩
    · simp only [List.length_cons, List.length_nil]; omega
    · rw [d2.params] at d'
      have := d2.trans d'
      simpa [s1] using this

/-- DrawGlyph (R123), from beginning to end. -/
theorem Going.glyph {s : State} (g : Going s) (ho : s.selOpen = false) {c x y : Nat} {fg bg : Color} {sc : Nat}
    {rest : List Micro} (h : s.todo = .glyph c x y fg bg sc :: rest) :
    ∃ t, Within 12500031 s t ∧ t.todo = rest ∧ Drawn (glyphTrace s.params c x y fg bg sc) s t := by
  have one := g.micro h (by simp [State.waitsForSource, h])
  let ms : List Micro := [0, 1, 2, 3, 4].map (.column c x y fg bg sc ·) ++ rest
  have one' : Steps 1 s (s.withTodo ms) := one
  obtain ⟨t, ht, htodo, d⟩ := (g.withTodo ms).columns ho (cols := [0, 1, 2, 3, 4]) rfl
  exact ⟨t, (one'.within.trans ht).mono (by simp only [List.length_cons, List.length_nil]; omega), htodo,
    ((Drawn.refl s).withTodo ms).trans d⟩

/-! ### Reading the source queue -/

/-- The source queue and SREM take values. -/
def State.withSource (q : List Byte) (n : Nat) (s : State) : State := { s with srcq := q, srem := n }

theorem State.emitAll_withSource (es : List Event) (q : List Byte) (n : Nat) (s : State) :
    (s.withSource q n).emitAll es = (s.emitAll es).withSource q n := by
  induction es generalizing s with
  | nil => rfl
  | cons e es ih => rw [State.emitAll_cons, State.emitAll_cons, ← ih]; cases e <;> rfl

theorem Going.withSource {s : State} (g : Going s) (q : List Byte) (n : Nat) : Going (s.withSource q n) :=
  ⟨g.run, g.credit, g.xfer⟩

theorem State.withPcnt_self {n : Nat} (s : State) (h : s.pcnt = n) : s.withPcnt n = s := by rw [← h]; rfl

theorem State.withSource_self {q : List Byte} {n : Nat} (s : State) (h : s.srcq = q) (h' : s.srem = n) :
    s.withSource q n = s := by rw [← h, ← h']; rfl

@[simp] theorem State.withSource_withSource (q r : List Byte) (m n : Nat) (s : State) :
    (s.withSource q m).withSource r n = s.withSource r n := rfl

theorem State.imageBytes_of_cons {s : State} {b : Byte} {q : List Byte} (hp : s.pcnt ≠ 0) (hq : s.srcq = b :: q) :
    s.imageBytes = (s.withSource q s.srem).push [.emit (.xfer b), .imageByteSent, .imageBytes] := by
  rw [State.imageBytes, if_neg hp, State.srcRead, hq]; rfl

theorem State.drain_of_cons {s : State} {b : Byte} {q : List Byte} (hp : s.srem ≠ 0) (hq : s.srcq = b :: q) :
    s.drain = (s.withSource q (s.srem - 1)).push [.drain] := by
  rw [State.drain, if_neg hp, State.srcRead, hq]; rfl

theorem State.chars_of_cons {s : State} {b : Byte} {q : List Byte} {fg bg : Color} {sc : Nat} (hp : s.srem ≠ 0)
    (hq : s.srcq = b :: q) : s.chars fg bg sc = (s.withSource q (s.srem - 1)).char b.toNat fg bg sc := by
  rw [State.chars, if_neg hp, State.srcRead, hq]; rfl

/-- DRAW_IMAGE's first loop (R111) for some of its bytes: they are sent verbatim. -/
theorem Going.imageBytesSent {n m : Nat} {bs q : List Byte} {rest : List Micro} {s : State} (g : Going s)
    (h : s.todo = .imageBytes :: rest) (hn : s.pcnt = n) (hb : bs.length ≤ n) (hq : s.srcq = bs ++ q) (hm : s.srem = m) :
    Steps (4 * bs.length) s ((((s.emitAll (bs.map .xfer)).withSource q (m - bs.length)).withTodo (.imageBytes :: rest)).withPcnt
      (n - bs.length)) := by
  induction bs generalizing s n m with
  | nil =>
    have e : (((s.emitAll []).withSource q (m - 0)).withTodo (.imageBytes :: rest)).withPcnt (n - 0) = s := by
      rw [State.emitAll, List.foldl_nil, State.withSource_self s (by simpa using hq) (by simpa using hm), ← h,
        State.withPcnt_self _ (by simpa [State.withTodo] using hn)]
      rfl
    show Steps 0 s ((((s.emitAll []).withSource q (m - 0)).withTodo (.imageBytes :: rest)).withPcnt (n - 0))
    rw [e]
    exact Steps.refl s
  | cons b bs ih =>
    simp only [List.length_cons] at hb
    have one := g.micro h (by simp [State.waitsForSource, hq])
    have e : (s.withTodo rest).micro .imageBytes
        = (s.withSource (bs ++ q) m).withTodo (Machine.emits [.xfer b] ++ (.imageByteSent :: .imageBytes :: rest)) := by
      rw [State.micro, State.imageBytes_of_cons (b := b) (q := bs ++ q) (by simp [hn]; omega) (by simpa using hq), ← hm]
      rfl
    rw [e] at one
    have g1 := g.withSource (bs ++ q) m
    have two := (g1.withTodo (Machine.emits [.xfer b] ++ (.imageByteSent :: .imageBytes :: rest))).emits
      (es := [.xfer b]) rfl
    rw [State.withTodo_withTodo, State.emitAll_withTodo, State.emitAll_withSource] at two
    have g2 := ((g.emitAll [.xfer b]).withSource (bs ++ q) m).withTodo (.imageByteSent :: .imageBytes :: rest)
    have three := g2.micro (m := .imageByteSent) (rest := .imageBytes :: rest) rfl (by simp [State.waitsForSource])
    have e3 : ((((s.emitAll [.xfer b]).withSource (bs ++ q) m).withTodo (.imageByteSent :: .imageBytes :: rest)).withTodo
          (.imageBytes :: rest)).micro .imageByteSent
        = (((s.emitAll [.xfer b]).withSource (bs ++ q) (m - 1)).withTodo (.imageBytes :: rest)).withPcnt (n - 1) := by
      have : (s.emitAll [.xfer b]).pcnt = n := by rw [State.emitAll_eq _ _ g.xfer]; exact hn
      simp [State.micro, State.withTodo, State.withSource, State.withPcnt, this]
    rw [e3] at three
    have g3 := (((g.emitAll [.xfer b]).withSource (bs ++ q) (m - 1)).withTodo (.imageBytes :: rest)).withPcnt (n - 1)
    have four := ih g3 (m := m - 1) (n := n - 1) rfl rfl (by omega) rfl rfl
    rw [State.emitAll_withPcnt, State.emitAll_withTodo, State.emitAll_withSource, ← State.emitAll_append] at four
    have e4 : ((((((s.emitAll ([.xfer b] ++ bs.map .xfer)).withSource (bs ++ q) (m - 1)).withTodo
          (.imageBytes :: rest)).withPcnt (n - 1)).withSource q (m - 1 - bs.length)).withTodo
          (.imageBytes :: rest)).withPcnt (n - 1 - bs.length)
        = (((s.emitAll ((b :: bs).map .xfer)).withSource q (m - (b :: bs).length)).withTodo (.imageBytes :: rest)).withPcnt
          (n - (b :: bs).length) := by
      rw [List.length_cons, show m - (bs.length + 1) = m - 1 - bs.length by omega,
        show n - (bs.length + 1) = n - 1 - bs.length by omega]
      rfl
    rw [e4] at four
    have all := ((one.trans two).trans three).trans four
    rwa [show 1 + eventsCost [.xfer b] + 1 + 4 * bs.length = 4 * (b :: bs).length by
      simp only [eventsCost, List.map, eventCost, List.sum_cons, List.sum_nil, List.length_cons]; omega] at all

/-- DRAW_IMAGE's first loop (R111) when every byte is queued: PCNT source bytes are sent verbatim. -/
theorem Going.imageBytes {n m : Nat} {bs q : List Byte} {rest : List Micro} {s : State} (g : Going s)
    (h : s.todo = .imageBytes :: rest) (hn : s.pcnt = n) (hb : bs.length = n) (hq : s.srcq = bs ++ q) (hm : s.srem = m) :
    Steps (4 * n + 1) s ((((s.emitAll (bs.map .xfer)).withSource q (m - n)).withTodo rest).withPcnt 0) := by
  have sent := g.imageBytesSent h hn hb.le hq hm
  rw [hb, Nat.sub_self] at sent
  have g1 := (((g.emitAll (bs.map .xfer)).withSource q (m - n)).withTodo (.imageBytes :: rest)).withPcnt 0
  have last := g1.micro (m := .imageBytes) (rest := rest) rfl (by simp [State.waitsForSource, State.withPcnt])
  exact sent.trans last

/-- DRAW_IMAGE's second loop (R111, R113) for some of its bytes: they are discarded. -/
theorem Going.drained {n : Nat} {bs q : List Byte} {rest : List Micro} {s : State} (g : Going s)
    (h : s.todo = .drain :: rest) (hn : s.srem = n) (hb : bs.length ≤ n) (hq : s.srcq = bs ++ q) :
    Steps bs.length s (s.withSource q (n - bs.length)) := by
  induction bs generalizing s n with
  | nil =>
    rw [State.withSource_self s (by simpa using hq) (by simpa using hn)]
    exact Steps.refl s
  | cons b bs ih =>
    simp only [List.length_cons] at hb
    have one := g.micro h (by simp [State.waitsForSource, hq])
    have e : (s.withTodo rest).micro .drain = s.withSource (bs ++ q) (n - 1) := by
      rw [State.micro, State.drain_of_cons (b := b) (q := bs ++ q) (by simp [hn]; omega) (by simpa using hq),
        State.withTodo_srem, hn]
      cases s
      cases h
      rfl
    rw [e] at one
    have two := ih (g.withSource (bs ++ q) (n - 1)) (n := n - 1) h rfl (by omega) rfl
    have all := one.trans two
    rw [show 1 + bs.length = (b :: bs).length by rw [List.length_cons]; omega,
      show n - 1 - bs.length = n - (b :: bs).length by rw [List.length_cons]; omega] at all
    exact all

/-- DRAW_IMAGE's second loop (R111, R113) when every byte is queued: SREM source bytes are discarded. -/
theorem Going.drain {n : Nat} {bs q : List Byte} {rest : List Micro} {s : State} (g : Going s)
    (h : s.todo = .drain :: rest) (hn : s.srem = n) (hb : bs.length = n) (hq : s.srcq = bs ++ q) :
    Steps (n + 1) s ((s.withSource q 0).withTodo rest) := by
  have gone := g.drained h hn hb.le hq
  rw [hb, Nat.sub_self] at gone
  have last := (g.withSource q 0).micro (m := .drain) (rest := rest) h (by simp [State.waitsForSource, State.withSource, h])
  exact gone.trans last

/-- What is left of a DRAW_IMAGE's program once its burst is open. -/
def imageTail : List Micro := emits burstClose ++ [.drain]

theorem imageProgram_drawn {x y w h len : Nat} (hn : 0 < imageNeed x y w h) :
    imageProgram x y w h len = .loadSrem len :: .setWindow x y w h ::
      (emits burstOpen ++ .loadPcnt (imageNeed x y w h) :: .imageBytes :: imageTail) := by
  rw [imageProgram, if_pos hn]; rfl

theorem imageProgram_noOp {x y w h len : Nat} (hn : imageNeed x y w h = 0) :
    imageProgram x y w h len = [.loadSrem len, .drain] := by
  rw [imageProgram, if_neg (by omega)]; rfl

/-- DRAW_IMAGE (R111) up to the point where it reads its first source byte: the window has been sent and the burst is
open. -/
theorem Going.imageOpened {x y w h len x' y' w' h' : Nat} {s : State} (g : Going s)
    (ht : s.todo = imageProgram x y w h len) (hc : clip x y w h = .window x' y' w' h') (hn : 0 < imageNeed x y w h) :
    Within 60 s (((((s.loadWindow x' y' w' h').emitAll
      (transactions (windowBytes s.params x' y' w' h') ++ burstOpen)).withSource s.srcq len).withTodo
      (.imageBytes :: imageTail)).withPcnt (imageNeed x y w h)) := by
  rw [imageProgram_drawn hn] at ht
  generalize hms : (.loadPcnt (imageNeed x y w h) :: .imageBytes :: imageTail : List Micro) = ms at ht
  have one := g.micro ht (by simp [State.waitsForSource, ht])
  have e1 : (s.withTodo (.setWindow x y w h :: (Machine.emits burstOpen ++ ms))).micro (.loadSrem len)
      = (s.withSource s.srcq len).withTodo (.setWindow x y w h :: (Machine.emits burstOpen ++ ms)) := rfl
  rw [e1] at one
  have g1 := g.withSource s.srcq len
  have two := (g1.withTodo (.setWindow x y w h :: (Machine.emits burstOpen ++ ms))).micro rfl (by simp [State.waitsForSource])
  have e2 : (((s.withSource s.srcq len).withTodo (.setWindow x y w h :: (Machine.emits burstOpen ++ ms))).withTodo
        (Machine.emits burstOpen ++ ms)).micro (.setWindow x y w h)
      = ((s.loadWindow x' y' w' h').withSource s.srcq len).withTodo
          (Machine.emits (windowEvents s.params x' y' w' h') ++ (Machine.emits burstOpen ++ ms)) := by
    rw [State.micro, State.setWindow, hc]
    simp only [List.append_nil]
    rfl
  rw [e2] at two
  have g2 := (g.loadWindow x' y' w' h').withSource s.srcq len
  have three := (g2.withTodo (Machine.emits (windowEvents s.params x' y' w' h') ++ (Machine.emits burstOpen ++ ms))).emits rfl
  rw [State.withTodo_withTodo, State.emitAll_withTodo, State.emitAll_withSource] at three
  have g3 := ((g.loadWindow x' y' w' h').emitAll (windowEvents s.params x' y' w' h')).withSource s.srcq len
  have four := (g3.withTodo (Machine.emits burstOpen ++ ms)).emits rfl
  rw [State.withTodo_withTodo, State.emitAll_withTodo, State.emitAll_withSource, ← State.emitAll_append,
    windowEvents_eq] at four
  have g4 := ((g.loadWindow x' y' w' h').emitAll
    (transactions (windowBytes s.params x' y' w' h') ++ burstOpen)).withSource s.srcq len
  have five := (g4.withTodo ms).loadPcnt hms.symm
  rw [State.withTodo_withTodo] at five
  refine (one.trans (two.trans (three.trans (four.trans five)))).within.mono ?_
  rw [windowEvents_cost]
  simp only [eventsCost, burstOpen, List.map, eventCost, List.sum_cons, List.sum_nil]
  omega

/-! ### The loop of a string -/

/-- The cursor registers of a state. -/
def State.cursor (s : State) : Cursor := ⟨s.x0, s.cx, s.cy, s.firstg, s.stopped⟩

/-- The cursor registers take values. -/
def State.withCursor (k : Cursor) (s : State) : State :=
  { s with x0 := k.x0, cx := k.cx, cy := k.cy, firstg := k.firstg, stopped := k.stopped }

theorem Going.withCursor {s : State} (g : Going s) (k : Cursor) : Going (s.withCursor k) := ⟨g.run, g.credit, g.xfer⟩

/-- `t` is `s` after the events `es`, by way of every register a string uses. -/
structure Laid (es : List Event) (s t : State) : Prop where
  frame : t = { s with
    todo := t.todo, out := t.out, dcLevel := t.dcLevel, consumer := t.consumer
    wx := t.wx, wy := t.wy, ww := t.ww, wh := t.wh, pcnt := t.pcnt, col := t.col, row := t.row, gb := t.gb
    srcq := t.srcq, srem := t.srem, x0 := t.x0, cx := t.cx, cy := t.cy, firstg := t.firstg, stopped := t.stopped }
  out : t.out = es.reverse ++ s.out
  seen : (t.dcLevel, t.consumer) = s.observed es

theorem Laid.trans {es fs : List Event} {s t u : State} (h : Laid es s t) (h' : Laid fs t u) : Laid (es ++ fs) s u := by
  refine ⟨?_, by rw [h'.out, h.out, List.reverse_append, List.append_assoc], ?_⟩
  · rw [h'.frame, h.frame]
  · have hp : t.params = s.params := by rw [h.frame]
    rw [h'.seen, State.observed_append, ← h.seen, State.observed, hp]

theorem Drawn.laid {es : List Event} {s t : State} (h : Drawn es s t) : Laid es s t :=
  ⟨by rw [h.frame], h.out, h.seen⟩

theorem Laid.params {es : List Event} {s t : State} (h : Laid es s t) : t.params = s.params := by rw [h.frame]

theorem Laid.going {es : List Event} {s t : State} (h : Laid es s t) (g : Going s) : Going t :=
  ⟨by rw [h.frame]; exact g.run, by rw [h.frame]; exact g.credit, by rw [h.frame]; exact g.xfer⟩

theorem Laid.selOpen {es : List Event} {s t : State} (h : Laid es s t) : t.selOpen = s.selOpen := by rw [h.frame]

/-- Registers that Laid lets change, changed. -/
theorem Laid.registers (s : State) (ms : List Micro) (q : List Byte) (n : Nat) (k : Cursor) :
    Laid [] s (((s.withSource q n).withCursor k).withTodo ms) := ⟨rfl, rfl, rfl⟩

/-- The body of DRAW_STRING's loop, for the character just read, in terms of the cursor of the layout (R131). -/
theorem State.char_eq (s : State) (c : Byte) (fg bg : Color) (sc : Nat) :
    s.char c.toNat fg bg sc =
      if s.cursor.draws sc c then (s.withCursor (s.cursor.wrapped sc)).drawAtCursor c.toNat fg bg sc
      else (s.withCursor (s.cursor.after sc c)).push [.chars fg bg sc] := by
  have h0 : c.toNat = 0 ↔ c = 0 := by rw [← BitVec.toNat_inj]; rfl
  rw [State.char]
  by_cases h1 : s.stopped = true
  · have a : s.cursor.draws sc c = false := by simp [Cursor.draws, State.cursor, h1]
    have b : s.cursor.after sc c = s.cursor := by simp [Cursor.after, State.cursor, h1]
    rw [if_pos h1, a, b]
    rfl
  by_cases h2 : c = 0
  · have a : s.cursor.draws sc c = false := by simp [Cursor.draws, h2]
    have b : s.cursor.after sc c = { s.cursor with stopped := true } := by
      rw [Cursor.after, if_neg (show ¬s.cursor.stopped = true from h1), if_pos h2]
    rw [if_neg h1, if_pos (h0.mpr h2), a, b]
    rfl
  by_cases h3 : hasGlyph c.toNat = true
  swap
  · have a : s.cursor.draws sc c = false := by simp [Cursor.draws, h3]
    have b : s.cursor.after sc c = s.cursor := by
      rw [Cursor.after, if_neg (show ¬s.cursor.stopped = true from h1), if_neg h2, if_pos (by simp [h3])]
    rw [if_neg h1, if_neg (mt h0.mp h2), if_pos (by simp [h3]), a, b]
    rfl
  have d : s.cursor.draws sc c = !s.cursor.stops sc := by
    have h1' : s.cursor.stopped = false := by simpa [State.cursor] using h1
    have h2' : (c != 0) = true := by simpa using h2
    rw [Cursor.draws, h1', h2', h3]
    rfl
  have aft : s.cursor.stops sc = true → s.cursor.after sc c = { s.cursor.wrapped sc with stopped := true } := fun hs => by
    rw [Cursor.after, if_neg (show ¬s.cursor.stopped = true from h1), if_neg h2, if_neg (by simp [h3]), if_pos hs]
  rw [if_neg h1, if_neg (mt h0.mp h2), if_neg (by simp [h3])]
  by_cases h4 : (!s.firstg && decide (Config.wrapX ≤ s.cx + advX sc)) = true
  · have w : s.cursor.wrapped sc = { s.cursor with cx := s.x0, cy := s.cy + advY sc } := if_pos h4
    rw [if_pos h4]
    by_cases h5 : Config.wrapY ≤ s.cy + advY sc
    · have st : s.cursor.stops sc = true := by
        show (!s.firstg && decide (Config.wrapX ≤ s.cx + advX sc) && decide (Config.wrapY ≤ s.cy + advY sc)) = true
        rw [h4]
        simpa using h5
      rw [if_pos h5, d, st, aft st, w]
      rfl
    · have st : s.cursor.stops sc = false := by
        show (!s.firstg && decide (Config.wrapX ≤ s.cx + advX sc) && decide (Config.wrapY ≤ s.cy + advY sc)) = false
        rw [h4]
        simpa using h5
      rw [if_neg h5, d, st, w]
      rfl
  · have w : s.cursor.wrapped sc = s.cursor := if_neg h4
    have st : s.cursor.stops sc = false := by
      show (!s.firstg && decide (Config.wrapX ≤ s.cx + advX sc) && decide (Config.wrapY ≤ s.cy + advY sc)) = false
      rw [Bool.eq_false_iff.mpr h4]
      rfl
    rw [if_neg h4, d, st, w]
    rfl

theorem Cursor.after_of_draws {sc : Nat} {k : Cursor} {c : Byte} (h : k.draws sc c = true) :
    k.after sc c = { k.wrapped sc with cx := (k.wrapped sc).cx + advX sc, firstg := false } := by
  simp only [Cursor.draws, Bool.and_eq_true, Bool.not_eq_true', bne_iff_ne] at h
  obtain ⟨⟨⟨h1, h2⟩, h3⟩, h4⟩ := h
  rw [Cursor.after, if_neg (by simp [h1]), if_neg h2, if_neg (by simp [h3]), if_neg (by simp [h4])]
  rfl

/-- DRAW_STRING's loop (R131) for some of its characters: they are read, and the glyphs of their layout are drawn. -/
theorem Going.charsDrawn {n : Nat} {cs q : List Byte} {s : State} (g : Going s) (ho : s.selOpen = false) {fg bg : Color}
    {sc : Nat} {rest : List Micro} (h : s.todo = .chars fg bg sc :: rest) (hn : s.srem = n) (hc : cs.length ≤ n)
    (hq : s.srcq = cs ++ q) :
    ∃ t, Within (12500033 * cs.length) s t ∧ t.todo = .chars fg bg sc :: rest ∧ t.srcq = q ∧ t.srem = n - cs.length ∧
      t.cursor = s.cursor.afterAll sc cs ∧
      Laid ((layout sc s.cursor cs).flatMap fun k => glyphTrace s.params k.1.toNat k.2.1 k.2.2 fg bg sc) s t := by
  induction cs generalizing s n with
  | nil => exact ⟨s, (Steps.refl s).within.mono (by omega), h, by simpa using hq, by simpa using hn, rfl, (Drawn.refl s).laid⟩
  | cons c cs ih =>
    simp only [List.length_cons] at hc
    have one := g.micro h (by simp [State.waitsForSource, hq])
    rw [State.micro, State.chars_of_cons (b := c) (q := cs ++ q) (by simp [hn]; omega) (by simpa using hq), State.withTodo_srem,
      hn, State.char_eq] at one
    have g1 : Going (s.withSource (cs ++ q) (n - 1)) := g.withSource _ _
    have hk : ((s.withTodo rest).withSource (cs ++ q) (n - 1)).cursor = s.cursor := rfl
    have hlen : n - 1 - cs.length = n - (c :: cs).length := by rw [List.length_cons]; omega
    rw [hk] at one
    rw [layout]
    cases hd : s.cursor.draws sc c with
    | false =>
      rw [hd] at one
      have one' : Steps 1 s (((s.withSource (cs ++ q) (n - 1)).withCursor (s.cursor.after sc c)).withTodo
          (.chars fg bg sc :: rest)) := one
      have l1 := Laid.registers s (.chars fg bg sc :: rest) (cs ++ q) (n - 1) (s.cursor.after sc c)
      obtain ⟨t, ht, htodo, htq, htn, htk, l⟩ :=
        ih (n := n - 1) ((g1.withCursor (s.cursor.after sc c)).withTodo _) ho rfl rfl (by omega) rfl
      exact ⟨t, (one'.within.trans ht).mono (by simp only [List.length_cons]; omega), htodo, htq, htn.trans hlen, htk,
        l1.trans l⟩
    | true =>
      rw [hd] at one
      let k := s.cursor.wrapped sc
      let s1 := (s.withSource (cs ++ q) (n - 1)).withCursor k
      let ms : List Micro := [.advance (advX sc), .chars fg bg sc] ++ rest
      have one' : Steps 1 s (s1.withTodo (.glyph c.toNat k.cx k.cy fg bg sc :: ms)) := one
      have gs1 : Going s1 := g1.withCursor k
      obtain ⟨t, ht, htodo, d⟩ := (gs1.withTodo (.glyph c.toNat k.cx k.cy fg bg sc :: ms)).glyph ho rfl
      have l1 := (Laid.registers s (.glyph c.toNat k.cx k.cy fg bg sc :: ms) (cs ++ q) (n - 1) k).trans d.laid
      have gt := l1.going g
      have two := gt.micro (m := .advance (advX sc)) (rest := .chars fg bg sc :: rest) htodo
        (by simp [State.waitsForSource, htodo, ms])
      have tk : t.cursor = k := by rw [State.cursor, d.frame]; rfl
      have tq : t.srcq = cs ++ q := by rw [d.frame]; rfl
      have tn : t.srem = n - 1 := by rw [d.frame]; rfl
      have e : (t.withTodo (.chars fg bg sc :: rest)).micro (.advance (advX sc))
          = (((t.withSource (cs ++ q) (n - 1)).withCursor (s.cursor.after sc c)).withTodo (.chars fg bg sc :: rest)) := by
        rw [Cursor.after_of_draws hd, State.withSource_self t tq tn, show s.cursor.wrapped sc = t.cursor from tk.symm]
        rfl
      rw [e] at two
      have l2 := l1.trans (Laid.registers t (.chars fg bg sc :: rest) (cs ++ q) (n - 1) (s.cursor.after sc c))
      obtain ⟨u, hu, hutodo, huq, hun, huk, l⟩ :=
        ih (n := n - 1) (l2.going g) (by rw [l2.selOpen, ho]) rfl rfl (by omega) rfl
      refine ⟨u, (((one'.within.trans ht).trans two.within).trans hu).mono (by simp only [List.length_cons]; omega), hutodo,
        huq, hun.trans hlen, huk, ?_⟩
      rw [l2.params, show (((t.withSource (cs ++ q) (n - 1)).withCursor (s.cursor.after sc c)).withTodo
        (.chars fg bg sc :: rest)).cursor = s.cursor.after sc c from rfl] at l
      rw [if_pos rfl, List.flatMap_cons]
      have all := l2.trans l
      rw [List.nil_append, List.append_nil] at all
      exact all

/-- DRAW_STRING's loop (R131), from beginning to end: exactly SREM source bytes are read, and the glyphs of the layout are
drawn. -/
theorem Going.chars {cs q : List Byte} {s : State} (g : Going s) (ho : s.selOpen = false) {fg bg : Color} {sc : Nat}
    {rest : List Micro} (h : s.todo = .chars fg bg sc :: rest) (hn : s.srem = cs.length) (hq : s.srcq = cs ++ q) :
    ∃ t, Within (12500033 * cs.length + 1) s t ∧ t.todo = rest ∧ t.srcq = q ∧ t.srem = 0 ∧
      t.cursor = s.cursor.afterAll sc cs ∧
      Laid ((layout sc s.cursor cs).flatMap fun k => glyphTrace s.params k.1.toNat k.2.1 k.2.2 fg bg sc) s t := by
  obtain ⟨t, ht, htodo, htq, htn, htk, l⟩ := g.charsDrawn ho h hn le_rfl hq
  rw [Nat.sub_self] at htn
  have last := (l.going g).micro htodo (by simp [State.waitsForSource, htodo, htn])
  rw [State.micro, State.chars, if_pos (by simpa using htn)] at last
  have l' := l.trans ((Drawn.refl t).withTodo rest).laid
  rw [List.append_nil] at l'
  exact ⟨t.withTodo rest, ht.trans last.within, rfl, htq, htn, htk, l'⟩

end Sys2Proof.Machine
end

