-- ==== Sys2Proof/Laws/Consumer.lean ====
section
/-! SUPPORT. Laws/Consumer.lean: the pixel memory's operations keep its canonical form and obey read after write; what a
window and a burst leave in the reference consumer. -/

namespace Sys2Proof

/-! ### The pixel memory -/

theorem Gram.lookup_set (k j : Nat) (v : Color) (g : Gram) :
    Gram.lookup j (Gram.set k v g) = if j = k then some v else Gram.lookup j g := by
  induction g with
  | nil => simp [Gram.set, Gram.lookup, eq_comm]
  | cons p g ih =>
    rw [Gram.set]
    by_cases hj : j = k
    · subst hj
      rw [if_pos rfl] at ih ⊢
      split_ifs with h1 h2
      · simp [Gram.lookup]
      · simp [Gram.lookup]
      · rw [Gram.lookup, if_neg (Ne.symm h2), ih]
    · rw [if_neg hj] at ih ⊢
      split_ifs with h1 h2
      · simp [Gram.lookup, Ne.symm hj]
      · subst h2; simp [Gram.lookup, Ne.symm hj]
      · rw [Gram.lookup, ih, Gram.lookup]

theorem Gram.wfFrom_mono {a b : Nat} {g : Gram} (h : a ≤ b) (hg : Gram.wfFrom b g = true) : Gram.wfFrom a g = true := by
  cases g with
  | nil => rfl
  | cons p g =>
    simp only [Gram.wfFrom, Bool.and_eq_true, decide_eq_true_eq] at hg ⊢
    exact ⟨⟨by omega, hg.1.2⟩, hg.2⟩

theorem Gram.wfFrom_set {lo k : Nat} {v : Color} {g : Gram} (hlo : lo ≤ k) (hk : k < gramSize)
    (hg : Gram.wfFrom lo g = true) : Gram.wfFrom lo (Gram.set k v g) = true := by
  induction g generalizing lo with
  | nil => simp [Gram.set, Gram.wfFrom, hlo, hk]
  | cons p g ih =>
    simp only [Gram.wfFrom, Bool.and_eq_true, decide_eq_true_eq] at hg
    obtain ⟨⟨h1, h2⟩, h3⟩ := hg
    rw [Gram.set]
    split_ifs with h4 h5
    · simp only [Gram.wfFrom, Bool.and_eq_true, decide_eq_true_eq]
      exact ⟨⟨hlo, hk⟩, ⟨by omega, h2⟩, h3⟩
    · simp only [Gram.wfFrom, Bool.and_eq_true, decide_eq_true_eq]
      exact ⟨⟨hlo, hk⟩, h5 ▸ h3⟩
    · simp only [Gram.wfFrom, Bool.and_eq_true, decide_eq_true_eq]
      exact ⟨⟨h1, h2⟩, ih (by omega) h3⟩

/-- Storing a pixel of the array keeps the canonical form. -/
theorem Gram.wf_set {k : Nat} {v : Color} {g : Gram} (hk : k < gramSize) (hg : Gram.wf g = true) :
    Gram.wf (Gram.set k v g) = true := Gram.wfFrom_set (Nat.zero_le k) hk hg

/-- Any list is brought into the canonical form. -/
theorem Gram.wf_ofList (l : Gram) : Gram.wf (Gram.ofList l) = true := by
  induction l with
  | nil => rfl
  | cons p l ih =>
    rw [Gram.ofList, List.foldr_cons]
    split
    · exact Gram.wf_set (by assumption) ih
    · exact ih

theorem pixelIndex_lt {col page : Nat} (hc : col < 240) (hp : page < 320) : pixelIndex col page < gramSize := by
  simp only [pixelIndex, gramSize, Config.surfW, Config.surfH]; omega

theorem pixelIndex_inj {col page col' page' : Nat} (hc : col < 240) (hc' : col' < 240) :
    pixelIndex col page = pixelIndex col' page' ↔ col = col' ∧ page = page' := by
  simp only [pixelIndex, Config.surfW]; omega

/-- Read after write: the pixel stored to has the value stored, every other keeps its own. -/
theorem Gram.read_set {col page col' page' : Nat} (hc : col < 240) (hc' : col' < 240) (v : Color) (g : Gram) :
    Gram.read (Gram.set (pixelIndex col page) v g) col' page' =
      if col' = col ∧ page' = page then v else Gram.read g col' page' := by
  rw [Gram.read, Gram.lookup_set]
  split_ifs with h1 h2 h2
  · rfl
  · exact absurd ((pixelIndex_inj hc' hc).mp h1) h2
  · exact absurd ((pixelIndex_inj hc' hc).mpr h2) h1
  · rfl

/-- Every transferred byte keeps the canonical form of the pixel memory. -/
theorem Consumer.wf_receive {c : Consumer} (p : Params) (l : Level) (b : Byte) (h : Gram.wf c.gram = true) :
    Gram.wf (c.receive p l b).gram = true := by
  cases l with
  | cmd => simp only [Consumer.receive, Consumer.command]; split_ifs <;> exact h
  | data =>
    simp only [Consumer.receive, Consumer.dataByte]
    split
    · exact h
    · exact h
    · exact h
    · split
      · exact h
      · simp only [Consumer.storePixel]
        split
        · next hw =>
          simp only [Consumer.inWindow, Bool.and_eq_true, decide_eq_true_eq] at hw
          exact Gram.wf_set (pixelIndex_lt hw.1.2 hw.2) h
        · exact Gram.wf_ofList _

theorem Consumer.wf_torn (n : Nat) : Gram.wf (Consumer.torn n).gram = true := Gram.wf_ofList _

namespace Machine

theorem observe_wf {p : Params} {lc : Level × Consumer} (e : Event) (h : Gram.wf lc.2.gram = true) :
    Gram.wf (observe p lc e).2.gram = true := by
  cases e with
  | xfer b => exact Consumer.wf_receive p lc.1 b h
  | _ => exact h

/-- The reset of the block keeps the canonical form of the pixel memory, and the machine after reset has it. -/
theorem State.wf_resetBlock {s : State} (h : Gram.wf s.consumer.gram = true) :
    Gram.wf s.resetBlock.consumer.gram = true := by
  simp only [State.resetBlock]
  split_ifs
  · exact Consumer.wf_torn _
  · exact h
  · exact h

theorem State.wf_reset : Gram.wf State.reset.consumer.gram = true := rfl

/-! ### A window and a burst -/

/-- The consumer after the events of a window (R90, R65): its registers hold the window's first and last column and page,
the write position is the window's origin, and it expects pixels. -/
def atWindow (x y w h : Nat) (c : Consumer) : Consumer :=
  { c with
    sc := BitVec.ofNat 16 x, ec := BitVec.ofNat 16 (x + w - 1), sp := BitVec.ofNat 16 y, ep := BitVec.ofNat 16 (y + h - 1)
    colp := x, pagep := y, mode := .write, pending := none }

theorem half_of_bytes (v : Half) (n : Nat) : setLo (setHi v (hi8 n)) (lo8 n) = BitVec.ofNat 16 n := by
  apply BitVec.eq_of_getLsbD_eq
  intro i hi
  simp only [setLo, setHi, hi8, lo8, BitVec.getLsbD_append, BitVec.getLsbD_extractLsb', BitVec.getLsbD_ofNat]
  have e : n / 256 = n >>> 8 := by rw [Nat.shiftRight_eq_div_pow]
  by_cases h1 : i < 8
  · simp [h1, hi]
  · simp [h1, e, Nat.testBit_shiftRight, hi, show i - 8 < 8 by omega, show 8 + (i - 8) = i by omega]

theorem observe_window {p : Params} (hp : p.distinctCommands) {x y w h : Nat} (hx : x < 65536) (hy : y < 65536) (l : Level)
    (c : Consumer) :
    (transactions (windowBytes p x y w h)).foldl (observe p) (l, c) = (.cmd, atWindow x y w h c) := by
  obtain ⟨h1, h2, h3⟩ := hp
  simp [transactions, windowBytes, observe, Consumer.receive, Consumer.command, Consumer.dataByte, Consumer.casetArg,
    Consumer.pasetArg, argsAfter, h1.symm, h2.symm, h3.symm, half_of_bytes, atWindow]
  omega

/-- The bytes of pixels, each high byte first (R51). -/
def colorBytes (vs : List Color) : List Byte := vs.flatMap fun v => [colorHi v, colorLo v]

theorem color_of_bytes (v : Color) : (colorHi v ++ colorLo v : BitVec 16) = v := by
  apply BitVec.eq_of_getLsbD_eq
  intro i hi
  simp only [colorHi, colorLo, BitVec.getLsbD_append, BitVec.getLsbD_extractLsb']
  split_ifs with h1
  · simp [h1]
  · simp [show i - 8 < 8 by omega, show 8 + (i - 8) = i by omega]

theorem pixelBytes_eq (n : Nat) (v : Color) : pixelBytes n v = colorBytes (List.replicate n v) := by
  induction n with
  | zero => rfl
  | succ n ih => rw [pixelBytes_succ, ih]; rfl

/-- A pixel's two bytes store the pixel. -/
theorem observe_pixels {p : Params} {c : Consumer} (hm : c.mode = .write) (hp : c.pending = none) (vs : List Color) :
    ((colorBytes vs).map Event.xfer).foldl (observe p) (.data, c) = (.data, vs.foldl Consumer.storePixel c) := by
  induction vs generalizing c with
  | nil => rfl
  | cons v vs ih =>
    have e : observe p (observe p (.data, c) (.xfer (colorHi v))) (.xfer (colorLo v)) = (.data, c.storePixel v) := by
      simp only [observe, Consumer.receive, Consumer.dataByte, hm, hp]
      rw [color_of_bytes]
      cases c
      cases hm
      cases hp
      rfl
    show ((colorBytes vs).map Event.xfer).foldl (observe p)
      (observe p (observe p (.data, c) (.xfer (colorHi v))) (.xfer (colorLo v))) = _
    rw [e, ih (c := c.storePixel v) hm rfl]
    rfl

/-- The consumer has taken the first `k` pixels of a window. -/
structure InWindow (x y w h k : Nat) (c : Consumer) : Prop where
  sc : c.sc.toNat = x
  ec : c.ec.toNat = x + w - 1
  ep : c.ep.toNat = y + h - 1
  colp : c.colp = x + k % w
  pagep : c.pagep = y + k / w

theorem InWindow.atWindow {x y w h : Nat} (hw : x + w ≤ 240) (hh : y + h ≤ 320) (c : Consumer) :
    InWindow x y w h 0 (Machine.atWindow x y w h c) := by
  constructor <;> simp only [Machine.atWindow, BitVec.toNat_ofNat, Nat.zero_mod, Nat.zero_div] <;> omega

/-- Storing the next pixel of a window. -/
theorem InWindow.storePixel {x y w h k : Nat} {c : Consumer} (hw : x + w ≤ 240) (hh : y + h ≤ 320) (hk : k < w * h)
    (hc : InWindow x y w h k c) (v : Color) :
    InWindow x y w h (k + 1) (c.storePixel v) ∧
      (c.storePixel v).gram = Gram.set (pixelIndex (x + k % w) (y + k / w)) v c.gram := by
  have w0 : 0 < w := Nat.pos_of_ne_zero (by rintro rfl; simp at hk)
  have hm : k % w < w := Nat.mod_lt _ w0
  have hd : k / w < h := Nat.div_lt_of_lt_mul hk
  have hin : c.inWindow = true := by
    simp only [Consumer.inWindow, hc.ep, hc.colp, hc.pagep, Config.surfW, Config.surfH, Bool.and_eq_true,
      decide_eq_true_eq]
    omega
  have hsucc : (k + 1) % w = (if k % w + 1 = w then 0 else k % w + 1) ∧
      (k + 1) / w = (if k % w + 1 = w then k / w + 1 else k / w) := by
    have e := Nat.div_add_mod k w
    split_ifs with he
    · have : k + 1 = w * (k / w + 1) := by rw [Nat.mul_add]; omega
      rw [this, Nat.mul_mod_right, Nat.mul_div_cancel_left _ w0]; exact ⟨rfl, rfl⟩
    · have : k + 1 = w * (k / w) + (k % w + 1) := by omega
      have hl : k % w + 1 < w := by omega
      rw [this, Nat.mul_add_mod, Nat.mul_add_div w0, Nat.mod_eq_of_lt hl, Nat.div_eq_of_lt hl]
      exact ⟨rfl, rfl⟩
  refine ⟨⟨hc.sc, hc.ec, hc.ep, ?_, ?_⟩, ?_⟩
  · rw [hsucc.1, Consumer.storePixel, hc.ec, hc.sc, hc.colp]
    simp only
    split_ifs <;> omega
  · rw [hsucc.2, Consumer.storePixel, hc.ec, hc.colp, hc.pagep]
    simp only
    split_ifs <;> omega
  · rw [Consumer.storePixel, hin, hc.colp, hc.pagep]
    rfl

/-- The pixels of a window fill it column by column, then page by page (R66, R112), and no other pixel changes. -/
theorem InWindow.storePixels {x y w h k : Nat} {vs : List Color} {c : Consumer} (hw : x + w ≤ 240) (hh : y + h ≤ 320)
    (hk : k + vs.length ≤ w * h) (hc : InWindow x y w h k c) {col page : Nat} (hcol : col < 240) :
    Gram.read (vs.foldl Consumer.storePixel c).gram col page =
      if x ≤ col ∧ col < x + w ∧ y ≤ page ∧ k ≤ (page - y) * w + (col - x) ∧ (page - y) * w + (col - x) < k + vs.length then
        vs.getD ((page - y) * w + (col - x) - k) 0
      else Gram.read c.gram col page := by
  induction vs generalizing k c with
  | nil => rw [if_neg (by simp only [List.length_nil]; omega)]; rfl
  | cons v vs ih =>
    simp only [List.length_cons] at hk ⊢
    have hk' : k < w * h := by omega
    obtain ⟨h1, h2⟩ := hc.storePixel hw hh hk' v
    have w0 : 0 < w := Nat.pos_of_ne_zero (by rintro rfl; simp at hk')
    have hm : k % w < w := Nat.mod_lt _ w0
    rw [List.foldl_cons, ih (by omega) h1, h2, Gram.read_set (by omega) hcol]
    have here : (col = x + k % w ∧ page = y + k / w) ↔
        (x ≤ col ∧ col < x + w ∧ y ≤ page ∧ (page - y) * w + (col - x) = k) := by
      constructor
      · rintro ⟨rfl, rfl⟩
        refine ⟨Nat.le_add_right _ _, Nat.add_lt_add_left hm x, Nat.le_add_right _ _, ?_⟩
        rw [Nat.add_sub_cancel_left, Nat.add_sub_cancel_left, Nat.mul_comm]
        exact Nat.div_add_mod k w
      · rintro ⟨a, b, d, f⟩
        have hlt : col - x < w := by omega
        have q : k / w = page - y := by
          rw [← f, Nat.mul_comm, Nat.mul_add_div w0, Nat.div_eq_of_lt hlt]; rfl
        have r : k % w = col - x := by
          rw [← f, Nat.mul_comm, Nat.mul_add_mod, Nat.mod_eq_of_lt hlt]
        exact ⟨by omega, by omega⟩
    generalize hn : (page - y) * w + (col - x) = n at here ⊢
    clear hm
    generalize k % w = r at here ⊢
    generalize k / w = q at here ⊢
    by_cases hA : x ≤ col ∧ col < x + w ∧ y ≤ page
    · obtain ⟨a1, a2, a3⟩ := hA
      by_cases hB : n = k
      · have hnew := here.mpr ⟨a1, a2, a3, hB⟩
        subst hB
        rw [if_neg (fun hh' => absurd hh'.2.2.2.1 (by omega)), if_pos hnew, if_pos ⟨a1, a2, a3, le_rfl, by omega⟩, Nat.sub_self]
        rfl
      · have hold : ¬(col = x + r ∧ page = y + q) := fun hh' => hB (here.mp hh').2.2.2
        simp only [a1, a2, a3, hold, true_and, if_false]
        by_cases hC : k + 1 ≤ n ∧ n < k + 1 + vs.length
        · rw [if_pos hC, if_pos (by omega), show n - k = n - (k + 1) + 1 by omega, List.getD_cons_succ]
        · rw [if_neg hC, if_neg (by omega)]
    · have hold : ¬(col = x + r ∧ page = y + q) := fun hh' =>
        hA ⟨(here.mp hh').1, (here.mp hh').2.1, (here.mp hh').2.2.1⟩
      have hl : ∀ P : Prop, ¬(x ≤ col ∧ col < x + w ∧ y ≤ page ∧ P) := fun _ hh' => hA ⟨hh'.1, hh'.2.1, hh'.2.2.1⟩
      rw [if_neg (hl _), if_neg hold, if_neg (hl _)]

/-- What a clip that is no NoOp keeps and cuts (R90, R91). -/
theorem clip_window {x y w h x' y' w' h' : Nat} (hc : clip x y w h = .window x' y' w' h') :
    x' = x ∧ y' = y ∧ w' = min w (240 - x) ∧ h' = min h (320 - y) ∧ x < 240 ∧ y < 320 ∧ 0 < w ∧ 0 < h := by
  unfold clip at hc
  split at hc
  · cases hc
  · next hh => cases hc; simp only [Config.surfW, Config.surfH] at hh; exact ⟨rfl, rfl, rfl, rfl, by omega⟩

/-- A burst of pixels stores the pixels. -/
theorem observe_burst {p : Params} {c : Consumer} {l : Level} (hm : c.mode = .write) (hp : c.pending = none)
    (vs : List Color) :
    (burst (colorBytes vs)).foldl (observe p) (l, c) = (.data, vs.foldl Consumer.storePixel c) := by
  rw [burst, List.foldl_append, List.foldl_append]
  show (List.foldl (observe p) (List.foldl (observe p) (.data, c) _) _) = _
  rw [observe_pixels hm hp]
  rfl

/-- A window followed by a burst of its area paints the window, its columns first, and nothing else. -/
theorem read_window {p : Params} (hp : p.distinctCommands) {x y w h : Nat} (hw : x + w ≤ 240) (hh : y + h ≤ 320)
    (vs : List Color) (hl : vs.length = w * h) (l : Level) (c : Consumer) {col page : Nat}
    (hcol : col < 240) :
    Gram.read ((transactions (windowBytes p x y w h) ++ burst (colorBytes vs)).foldl (observe p) (l, c)).2.gram col page =
      if x ≤ col ∧ col < x + w ∧ y ≤ page ∧ page < y + h then vs.getD ((page - y) * w + (col - x)) 0
      else Gram.read c.gram col page := by
  rw [List.foldl_append, observe_window hp (by omega) (by omega), observe_burst rfl rfl]
  rw [(InWindow.atWindow hw hh c).storePixels hw hh (by omega) hcol]
  have : (x ≤ col ∧ col < x + w ∧ y ≤ page ∧ 0 ≤ (page - y) * w + (col - x) ∧
      (page - y) * w + (col - x) < 0 + vs.length) ↔ (x ≤ col ∧ col < x + w ∧ y ≤ page ∧ page < y + h) := by
    rw [hl]
    refine and_congr_right fun a => and_congr_right fun b => and_congr_right fun d => ?_
    constructor
    · intro ⟨_, e⟩
      by_contra hcon
      have : h * w ≤ (page - y) * w := Nat.mul_le_mul_right w (by omega)
      rw [Nat.mul_comm] at this
      omega
    · intro e
      refine ⟨Nat.zero_le _, ?_⟩
      have : (page - y + 1) * w ≤ h * w := Nat.mul_le_mul_right w (by omega)
      rw [Nat.add_mul, Nat.mul_comm h w] at this
      omega
  simp only [this, Nat.sub_zero]
  rfl

end Machine

end Sys2Proof
end

