-- ==== Sys2Proof/Laws/Brackets.lean ====
section
/-! SUPPORT. Laws/Brackets.lean: what a statement of a request's program leaves alone besides what SameOutside says, and
that a statement's expansion ends where the bracket position says it ends (20_memory.md R47). -/

namespace Sys2Proof.Machine

/-- The bracket position after what is left of a program. -/
def bracketAfter (ms : List Micro) (b : Bracket) : Bracket := ms.foldl Bracket.afterMicro b

theorem bracketAfter_append (ms ns : List Micro) (b : Bracket) :
    bracketAfter (ms ++ ns) b = bracketAfter ns (bracketAfter ms b) := List.foldl_append ..

/-- A broken trace stays broken. -/
theorem bracketAfter_broken (ms : List Micro) : bracketAfter ms .broken = .broken := by
  induction ms with
  | nil => rfl
  | cons m ms ih =>
    have h : Bracket.afterMicro .broken m = .broken := by cases m <;> rfl
    rw [bracketAfter, List.foldl_cons, h]
    exact ih

theorem bracketAfter_emits (es : List Event) (b : Bracket) : bracketAfter (emits es) b = es.foldl Bracket.after b := by
  induction es generalizing b with
  | nil => rfl
  | cons e es ih => exact ih _

theorem bracketOf_append (es : List Event) (e : Event) : bracketOf (es ++ [e]) = (bracketOf es).after e := by
  simp [bracketOf]

/-- One-byte transactions begin and end outside a bracket. -/
theorem transactions_brackets (bs : List (Level × Byte)) : (transactions bs).foldl Bracket.after .closed = .closed := by
  induction bs with
  | nil => rfl
  | cons b bs ih => simpa [transactions, Bracket.after] using ih

/-- What a statement other than Emit leaves alone in the output and the consumer; a source byte can only be taken away. -/
structure Quiet (s t : State) : Prop where
  out : t.out = s.out
  selOpen : t.selOpen = s.selOpen
  dcLevel : t.dcLevel = s.dcLevel
  consumer : t.consumer = s.consumer
  xferBusy : t.xferBusy = s.xferBusy
  srcq : t.srcq <:+ s.srcq

theorem Quiet.refl (s : State) : Quiet s s := ⟨rfl, rfl, rfl, rfl, rfl, List.suffix_rfl⟩

theorem State.setWindow_quiet (s : State) (x y w h : Nat) (next : Nat → List Micro) :
    Quiet s (s.setWindow x y w h next) := by
  unfold State.setWindow
  split <;> exact ⟨rfl, rfl, rfl, rfl, rfl, List.suffix_rfl⟩

theorem State.micro_quiet {m : Micro} (s : State) (hm : ∀ e, m ≠ .emit e) : Quiet s (s.micro m) := by
  have taken : ∀ {b : Byte} {t u : State}, s.srcRead = some (b, t) → u.out = t.out → u.selOpen = t.selOpen →
      u.dcLevel = t.dcLevel → u.consumer = t.consumer → u.xferBusy = t.xferBusy → u.srcq = t.srcq → Quiet s u := by
    intro b t u hr h1 h2 h3 h4 h5 h6
    obtain ⟨hq, ht⟩ := State.srcRead_eq hr
    rw [ht] at h1 h2 h3 h4 h5
    exact ⟨h1, h2, h3, h4, h5, by rw [h6, hq]; exact List.suffix_cons _ _⟩
  cases m with
  | emit e => exact absurd rfl (hm e)
  | setWindow x y w h => rw [State.micro]; exact s.setWindow_quiet ..
  | fillRect x y w h v => rw [State.micro]; exact s.setWindow_quiet ..
  | pixels v =>
    simp only [State.micro, State.pixels]
    split <;> exact ⟨rfl, rfl, rfl, rfl, rfl, List.suffix_rfl⟩
  | imageBytes =>
    simp only [State.micro, State.imageBytes]
    split
    · exact .refl s
    · split
      · exact ⟨rfl, rfl, rfl, rfl, rfl, List.suffix_rfl⟩
      · next hr => exact taken hr rfl rfl rfl rfl rfl rfl
  | drain =>
    simp only [State.micro, State.drain]
    split
    · exact .refl s
    · split
      · exact ⟨rfl, rfl, rfl, rfl, rfl, List.suffix_rfl⟩
      · next hr => exact taken hr rfl rfl rfl rfl rfl rfl
  | chars fg bg sc =>
    simp only [State.micro, State.chars]
    split
    · exact .refl s
    · split
      · exact ⟨rfl, rfl, rfl, rfl, rfl, List.suffix_rfl⟩
      · next hr =>
        unfold State.char
        split_ifs <;> exact taken hr rfl rfl rfl rfl rfl rfl
  | _ => exact ⟨rfl, rfl, rfl, rfl, rfl, List.suffix_rfl⟩

/-- When what is left after a statement ends outside a bracket from where the statement's own end is, then so does what is
left once the statement has been executed. -/
theorem State.micro_brackets {m : Micro} (s : State) {b : Bracket} (hm : ∀ e, m ≠ .emit e)
    (h : bracketAfter s.todo (b.afterMicro m) = .closed) : bracketAfter (s.micro m).todo b = .closed := by
  have guarded : ∀ {p : Prop} [Decidable p] {c : Bracket}, bracketAfter s.todo (if p then c else .broken) = .closed → p := by
    intro p _ c h
    by_contra hp
    rw [if_neg hp, bracketAfter_broken] at h
    cases h
  have window : ∀ x y w h (next : Nat → List Micro), bracketAfter s.todo .closed = .closed →
      (∀ n, bracketAfter (next n) .closed = .closed) → bracketAfter (s.setWindow x y w h next).todo .closed = .closed := by
    intro x y w h next hs hn
    unfold State.setWindow
    split
    · exact hs
    · simp only [State.push, State.withTodo, State.loadWindow]
      rw [bracketAfter_append, bracketAfter_append, bracketAfter_emits, windowEvents_eq, transactions_brackets, hn, hs]
  cases m with
  | emit e => exact absurd rfl (hm e)
  | setWindow x y w hh =>
    obtain rfl := guarded h
    rw [State.micro]
    exact window _ _ _ _ _ h fun n => rfl
  | fillRect x y w hh v =>
    obtain rfl := guarded h
    rw [State.micro]
    exact window _ _ _ _ _ h fun n => rfl
  | pixels v =>
    obtain rfl := guarded h
    simp only [State.micro, State.pixels]
    split <;> exact h
  | imageBytes =>
    obtain rfl := guarded h
    simp only [State.micro, State.imageBytes]
    split
    · exact h
    · split
      · exact h
      · next hr => obtain ⟨-, hr⟩ := State.srcRead_eq hr; rw [hr]; exact h
  | drain =>
    obtain rfl := guarded h
    simp only [State.micro, State.drain]
    split
    · exact h
    · split
      · exact h
      · next hr => obtain ⟨-, hr⟩ := State.srcRead_eq hr; rw [hr]; exact h
  | chars fg bg sc =>
    obtain rfl := guarded h
    simp only [State.micro, State.chars]
    split
    · exact h
    · split
      · exact h
      · next hr =>
        obtain ⟨-, hr⟩ := State.srcRead_eq hr
        rw [hr]
        unfold State.char
        split_ifs <;> exact h
  | glyph c x y fg bg sc => obtain rfl := guarded h; exact h
  | column c x y fg bg sc col => obtain rfl := guarded h; exact h
  | cell x y fg bg sc row => obtain rfl := guarded h; exact h
  | _ => exact h

end Sys2Proof.Machine
end

