-- ==== Sys2Proof/Laws/Decode.lean ====
section
/-! SUPPORT. Laws/Decode.lean: the descriptor and its fields determine each other, and the opcode map read both ways. -/

namespace Sys2Proof

theorem Opcode.ofValue_value (o : Opcode) : Opcode.ofValue o.value = some o := by cases o <;> rfl

theorem Opcode.ofValue_eq_some {v : Byte} {o : Opcode} : Opcode.ofValue v = some o ↔ v = o.value := by
  refine ⟨fun h => ?_, fun h => h ▸ o.ofValue_value⟩
  unfold Opcode.ofValue at h
  repeat' first
    | cases h; assumption
    | cases h
    | split at h

/-- An OP value selects no opcode exactly when it is 0 or above 6 (R72, R74). -/
theorem Opcode.ofValue_eq_none {v : Byte} : Opcode.ofValue v = none ↔ v.toNat = 0 ∨ 6 < v.toNat := by
  revert v; decide

/-- The four byte fields of W0 (R69). -/
theorem bytes_of_word (a b c d : Byte) :
    (a ++ b ++ c ++ d).extractLsb' 0 8 = d ∧ (a ++ b ++ c ++ d).extractLsb' 8 8 = c ∧
      (a ++ b ++ c ++ d).extractLsb' 16 8 = b ∧ (a ++ b ++ c ++ d).extractLsb' 24 8 = a := by
  refine ⟨?_, ?_, ?_, ?_⟩ <;>
  · apply BitVec.eq_of_getLsbD_eq
    intro i hi
    simp only [BitVec.getLsbD_extractLsb', BitVec.getLsbD_append, hi, decide_true, Bool.true_and]
    split_ifs <;> first | omega | (congr 1; omega)

/-- The two halves of W1, W2 and W3 (R69). -/
theorem halves_of_word (a b : Half) : (a ++ b).extractLsb' 0 16 = b ∧ (a ++ b).extractLsb' 16 16 = a := by
  constructor <;>
  · apply BitVec.eq_of_getLsbD_eq
    intro i hi
    simp only [BitVec.getLsbD_extractLsb', BitVec.getLsbD_append]
    simp [hi]

theorem word_of_bytes (w : Word) :
    w.extractLsb' 24 8 ++ w.extractLsb' 16 8 ++ w.extractLsb' 8 8 ++ w.extractLsb' 0 8 = w := by
  apply BitVec.eq_of_getLsbD_eq
  intro i hi
  simp only [BitVec.getLsbD_extractLsb', BitVec.getLsbD_append]
  split_ifs with h1 h2 h3
  · simp [h1]
  · simp [h2, show 8 + (i - 8) = i by omega]
  · simp [h3, show 16 + (i - 8 - 8) = i by omega]
  · simp [show i - 8 - 8 - 8 < 8 by omega, show 24 + (i - 8 - 8 - 8) = i by omega]

theorem word_of_halves (w : Word) : w.extractLsb' 16 16 ++ w.extractLsb' 0 16 = w := by
  apply BitVec.eq_of_getLsbD_eq
  intro i hi
  simp only [BitVec.getLsbD_extractLsb', BitVec.getLsbD_append]
  split_ifs with h1
  · simp [h1]
  · simp [show i - 16 < 16 by omega, show 16 + (i - 16) = i by omega]

/-- The fields of the descriptor made of some fields are those fields. -/
theorem Fields.fields_desc (f : Fields) : f.desc.fields = f := by
  obtain ⟨op, scale, chr, rsv0, x, y, w, h, c0, c1, len⟩ := f
  obtain ⟨b0, b1, b2, b3⟩ := bytes_of_word rsv0 chr scale op
  simp only [Fields.desc, Desc.fields, Fields.mk.injEq]
  exact ⟨b0, b1, b2, b3, (halves_of_word y x).1, (halves_of_word y x).2, (halves_of_word h w).1, (halves_of_word h w).2,
    (halves_of_word c1 c0).1, (halves_of_word c1 c0).2, trivial⟩

/-- The descriptor made of a descriptor's fields is that descriptor: the fields cover every bit. -/
theorem Desc.desc_fields (d : Desc) : d.fields.desc = d := by
  obtain ⟨w0, w1, w2, w3, w4⟩ := d
  simp only [Fields.desc, Desc.fields, Desc.mk.injEq]
  exact ⟨word_of_bytes w0, word_of_halves w1, word_of_halves w2, word_of_halves w3, trivial⟩

end Sys2Proof
end

