-- ==== Sys2Proof/Laws/Step.lean ====
section
/-! SUPPORT. Laws/Step.lean: all that the taking of a descriptor, the next input, a request, a run and a step can do. The
provers cite these instead of unfolding the step. -/

namespace Sys2Proof.Machine

/-- Taking a descriptor (R25): it happens only in IDLE, not held, with five words queued, and changes only this. -/
theorem State.takeDescriptor_eq_some {s t : State} (h : s.takeDescriptor = some t) :
    ∃ (d : Desc) (rest : List Word), s.engState = .idle ∧ s.held = false ∧ s.reqq = d.words ++ rest ∧
      t = { s.spend with req := d, reqq := rest, reqIndex := s.reqIndex + 1, engState := .run } := by
  unfold State.takeDescriptor at h
  split at h
  · next w0 w1 w2 w3 w4 rest he hq =>
    split at h
    · cases h
    · next hh => cases h; exact ⟨⟨w0, w1, w2, w3, w4⟩, rest, he, by simpa using hh, hq, rfl⟩
  · cases h

theorem State.takeDescriptor_of_not_idle {s : State} (h : s.engState ≠ .idle) : s.takeDescriptor = none := by
  unfold State.takeDescriptor
  split
  · next he _ => exact absurd he h
  · rfl

/-- The next input is the first that does not wait. -/
theorem nextInput_eq_some {s : State} {is rest : List Input} {i : Input} (h : nextInput s is = some (i, rest)) :
    i.waits s = false ∧ ∃ before after, is = before ++ i :: after ∧ rest = before ++ after ∧
      ∀ j ∈ before, j.waits s = true := by
  induction is generalizing rest with
  | nil => cases h
  | cons a is ih =>
    unfold nextInput at h
    split at h
    · next ha =>
      split at h
      · cases h
      · next j js hj =>
        cases h
        obtain ⟨hw, before, after, h1, h2, h3⟩ := ih hj
        exact ⟨hw, a :: before, after, by rw [h1]; rfl, by rw [h2]; rfl, by
          intro k hk
          rcases List.mem_cons.mp hk with rfl | hk
          · exact ha
          · exact h3 k hk⟩
    · next ha => cases h; exact ⟨by simpa using ha, [], is, rfl, rfl, by simp⟩

/-- A request either raises IMAGE_SHORT or runs a program that begins and ends outside a bracket. -/
theorem exec_cases (i : Instr) (s : State) :
    (∃ x y w h len, i = .drawImage x y w h len ∧ len < imageNeed x y w h ∧ exec i s = .next (s.raiseFault .imageShort)) ∨
    ∃ program, exec i s = .next (s.request program) ∧ bracketAfter program .closed = .closed := by
  cases i with
  | fillRect => exact .inr ⟨_, rfl, rfl⟩
  | drawPixel => exact .inr ⟨_, rfl, rfl⟩
  | fillScreen => exact .inr ⟨_, rfl, rfl⟩
  | drawImage x y w h len =>
    by_cases hn : len < imageNeed x y w h
    · exact .inl ⟨x, y, w, h, len, rfl, hn, by rw [exec, execDrawImage, if_pos hn]⟩
    · exact .inr ⟨_, by rw [exec, execDrawImage, if_neg hn], by unfold imageProgram; split <;> rfl⟩
  | drawChar => exact .inr ⟨_, rfl, by split <;> rfl⟩
  | drawString => exact .inr ⟨_, rfl, rfl⟩

/-- A property that every micro-operation of a request in progress keeps, every run keeps. -/
theorem State.runFor_induction {P : State → Prop}
    (hP : ∀ s : State, s.canRun = true → P s → P s.microStep.spend) {s : State} (h : P s) (n : Nat) : P (s.runFor n) := by
  induction n generalizing s with
  | zero => exact h
  | succ n ih =>
    rw [State.runFor]
    split
    · next hc => exact ih (hP s hc h)
    · exact h

/-- A micro-operation is a completed exchange, the next statement, or the end of the request. -/
theorem State.microStep_cases (s : State) :
    (s.xferBusy = true ∧ s.microStep = s.completeXfer) ∨
    (s.xferBusy = false ∧ s.todo = [] ∧ s.microStep = s.withEngState .idle) ∨
    (s.xferBusy = false ∧ ∃ m rest, s.todo = m :: rest ∧ s.microStep = (s.withTodo rest).micro m) := by
  unfold State.microStep
  split
  · next hx => exact .inl ⟨hx, rfl⟩
  · next hx =>
    have hx : s.xferBusy = false := by simpa using hx
    split
    · next ht => exact .inr (.inl ⟨hx, ht, rfl⟩)
    · next m rest ht => exact .inr (.inr ⟨hx, m, rest, ht, rfl⟩)

/-- All that a step to a next state can be: the request in progress goes on; a descriptor is taken and its request executed,
or its fault raised; nothing can happen; or the next input lands. -/
theorem step_cases {s t : State} (h : step s = .next t) :
    (s.canRun = true ∧ t = s.goOn) ∨
    (s.canRun = false ∧ ∃ u, s.takeDescriptor = some u ∧
      ((∃ i, decode u.req = .ok i ∧ exec i u = .next t) ∨
        ∃ e, decode u.req = .error e ∧ t = u.raiseFault (decodeFaultCode e))) ∨
    (s.canRun = false ∧ s.takeDescriptor = none ∧
      ((nextInput s s.inputs = none ∧ t = s) ∨
        ∃ i rest, nextInput s s.inputs = some (i, rest) ∧ i.land { s with inputs := rest } = .next t)) := by
  unfold step at h
  split at h
  · next hc => cases h; exact .inl ⟨hc, rfl⟩
  · next hc =>
    have hc : s.canRun = false := by simpa using hc
    split at h
    · next u hu =>
      refine .inr (.inl ⟨hc, u, hu, ?_⟩)
      unfold runDescriptor at h
      split at h
      · next i hi => exact .inl ⟨i, hi, h⟩
      · next e he => cases h; exact .inr ⟨e, he, rfl⟩
    · next hn =>
      refine .inr (.inr ⟨hc, hn, ?_⟩)
      unfold State.landInput at h
      split at h
      · next hn => cases h; exact .inl ⟨hn, rfl⟩
      · next i rest hi => exact .inr ⟨i, rest, hi, h⟩

end Sys2Proof.Machine
end

