-- ==== Sys2Proof/Laws/Interrupt.lean ====
section
/-! SUPPORT. Laws/Interrupt.lean: the schedule, words queued behind a request, late source bytes and status reads make no
difference to the micro-operations of a request in progress. -/

namespace Sys2Proof.Machine

/-- The state with its schedule and its pending inputs changed, and with words, source bytes and read values added behind
what it holds. -/
def State.later (c : Option Nat → Option Nat) (is : List Input → List Input) (ws : List Word) (bs : List Byte)
    (rs : List Word) (s : State) : State :=
  { s with
    credit := c s.credit, inputs := is s.inputs
    reqq := s.reqq ++ ws, srcq := s.srcq ++ bs, hostReads := s.hostReads ++ rs }

/-- No schedule holds the engine. -/
abbrev unheld : Option Nat → Option Nat := fun _ => none

section
variable {c : Option Nat → Option Nat} {is : List Input → List Input} {ws : List Word} {bs : List Byte} {rs : List Word}

theorem State.later_engState (s : State) : (s.later c is ws bs rs).engState = s.engState := rfl

theorem State.later_later {c' : Option Nat → Option Nat} {is' : List Input → List Input} {ws' : List Word} {bs' : List Byte}
    {rs' : List Word} (s : State) :
    (s.later c is ws bs rs).later c' is' ws' bs' rs' =
      s.later (c' ∘ c) (is' ∘ is) (ws ++ ws') (bs ++ bs') (rs ++ rs') := by
  simp [State.later]

theorem State.later_unheld {s : State} (h : s.credit = none) (hi : is s.inputs = s.inputs) :
    s.later unheld is [] [] [] = s := by
  have hc : unheld s.credit = s.credit := h.symm
  simp only [State.later, hi, hc, List.append_nil]

/-- An engine that does not wait for a source byte does not wait with more of them queued. -/
theorem State.waitsForSource_later {s : State} (h : s.waitsForSource = false) :
    (s.later c is ws bs rs).waitsForSource = false := by
  unfold State.waitsForSource State.later at *
  cases hq : s.srcq with
  | cons b q => simp
  | nil =>
    simp only [hq, List.isEmpty_nil, Bool.true_and] at h
    simp only [List.nil_append]
    cases bs with
    | nil => simpa using h
    | cons b bs => rfl

end

section
variable (c : Option Nat → Option Nat) (is : List Input → List Input) (ws : List Word) (bs : List Byte) (rs : List Word)

theorem State.later_withTodo (ms : List Micro) (s : State) :
    (s.withTodo ms).later c is ws bs rs = (s.later c is ws bs rs).withTodo ms := rfl

theorem State.later_push (ms : List Micro) (s : State) :
    (s.push ms).later c is ws bs rs = (s.later c is ws bs rs).push ms := rfl

theorem State.later_completeXfer (s : State) :
    s.completeXfer.later c is ws bs rs = (s.later c is ws bs rs).completeXfer := rfl

theorem State.later_emit (e : Event) (s : State) : (s.emit e).later c is ws bs rs = (s.later c is ws bs rs).emit e := by
  cases e <;> rfl

theorem State.later_setWindow (x y w h : Nat) (next : Nat → List Micro) (s : State) :
    (s.setWindow x y w h next).later c is ws bs rs = (s.later c is ws bs rs).setWindow x y w h next := by
  unfold State.setWindow
  split <;> rfl

theorem State.later_char (ch : Nat) (fg bg : Color) (sc : Nat) (s : State) :
    (s.char ch fg bg sc).later c is ws bs rs = (s.later c is ws bs rs).char ch fg bg sc := by
  unfold State.char
  rw [show (s.later c is ws bs rs).stopped = s.stopped from rfl, show (s.later c is ws bs rs).firstg = s.firstg from rfl,
    show (s.later c is ws bs rs).cx = s.cx from rfl, show (s.later c is ws bs rs).cy = s.cy from rfl]
  split_ifs <;> rfl

/-- A statement that does not wait does the same with more queued behind. -/
theorem State.later_micro {m : Micro} {rest : List Micro} {s : State} (hx : s.xferBusy = false) (ht : s.todo = m :: rest)
    (hw : s.waitsForSource = false) :
    ((s.withTodo rest).micro m).later c is ws bs rs = ((s.later c is ws bs rs).withTodo rest).micro m := by
  rw [← State.later_withTodo]
  cases m with
  | emit e => exact State.later_emit ..
  | setWindow x y w h => simp only [State.micro]; exact State.later_setWindow ..
  | fillRect x y w h v => simp only [State.micro]; exact State.later_setWindow ..
  | pixels v =>
    simp only [State.micro, State.pixels]
    rw [show ((s.withTodo rest).later c is ws bs rs).pcnt = (s.withTodo rest).pcnt from rfl]
    split <;> rfl
  | imageBytes =>
    simp only [State.micro, State.imageBytes]
    rw [show ((s.withTodo rest).later c is ws bs rs).pcnt = (s.withTodo rest).pcnt from rfl]
    split
    · rfl
    · next hp =>
      cases hq : s.srcq with
      | nil => simp [State.waitsForSource, hx, ht, hq] at hw; exact absurd hw hp
      | cons b q => simp only [State.srcRead, State.later, State.withTodo, hq, List.cons_append, State.push]
  | drain =>
    simp only [State.micro, State.drain]
    rw [show ((s.withTodo rest).later c is ws bs rs).srem = (s.withTodo rest).srem from rfl]
    split
    · rfl
    · next hp =>
      cases hq : s.srcq with
      | nil => simp [State.waitsForSource, hx, ht, hq] at hw; exact absurd hw hp
      | cons b q => simp only [State.srcRead, State.later, State.withTodo, hq, List.cons_append, State.push]
  | chars fg bg sc =>
    simp only [State.micro, State.chars]
    rw [show ((s.withTodo rest).later c is ws bs rs).srem = (s.withTodo rest).srem from rfl]
    split
    · rfl
    · next hp =>
      cases hq : s.srcq with
      | nil => simp [State.waitsForSource, hx, ht, hq] at hw; exact absurd hw hp
      | cons b q =>
        simp only [State.srcRead, State.withTodo, State.later, hq, List.cons_append]
        exact State.later_char ..
  | _ => rfl

/-- A micro-operation that can be performed does the same with more queued behind. -/
theorem State.later_microStep {s : State} (hw : s.waitsForSource = false) :
    s.microStep.later c is ws bs rs = (s.later c is ws bs rs).microStep := by
  rcases s.microStep_cases with ⟨hx, h⟩ | ⟨hx, ht, h⟩ | ⟨hx, m, rest, ht, h⟩
  · rw [h, State.microStep, if_pos (show (s.later c is ws bs rs).xferBusy = true from hx)]
    rfl
  · rw [h, State.microStep, if_neg (by rw [show (s.later c is ws bs rs).xferBusy = s.xferBusy from rfl, hx]; decide),
      show (s.later c is ws bs rs).todo = [] from ht]
    rfl
  · rw [h, State.later_micro c is ws bs rs hx ht hw, State.microStep,
      if_neg (by rw [show (s.later c is ws bs rs).xferBusy = s.xferBusy from rfl, hx]; decide),
      show (s.later c is ws bs rs).todo = m :: rest from ht]

/-- Whatever a run has done, a run that nothing holds does as well with more queued behind. -/
theorem State.later_runFor (n : Nat) (s : State) :
    ∃ k, (s.later unheld is ws bs rs).runFor k = (s.runFor n).later unheld is ws bs rs := by
  induction n generalizing s with
  | zero => exact ⟨0, rfl⟩
  | succ n ih =>
    rw [State.runFor]
    split
    · next hc =>
      simp only [State.canRun, Bool.and_eq_true, beq_iff_eq, Bool.not_eq_true'] at hc
      obtain ⟨⟨hr, -⟩, hw⟩ := hc
      obtain ⟨k, hk⟩ := ih s.microStep.spend
      have hc' : (s.later unheld is ws bs rs).canRun = true := by
        rw [State.canRun, State.waitsForSource_later hw, State.later_engState, hr]; rfl
      have e : (s.later unheld is ws bs rs).microStep.spend = s.microStep.spend.later unheld is ws bs rs := by
        rw [← State.later_microStep unheld is ws bs rs hw]; rfl
      exact ⟨k + 1, by rw [State.runFor, if_pos hc', e, hk]⟩
    · exact ⟨0, rfl⟩

end

/-- Two runs of one state, one of which has ended: the other comes to the same end. -/
theorem State.runFor_meets {s t : State} {a b : Nat} (h : s.runFor a = t) (ht : t.canRun = false) :
    ∃ k, (s.runFor b).runFor k = t := by
  rcases Nat.le_total b a with hab | hab
  · obtain ⟨m, rfl⟩ := Nat.exists_eq_add_of_le hab
    exact ⟨m, by rw [← State.runFor_add, h]⟩
  · obtain ⟨m, rfl⟩ := Nat.exists_eq_add_of_le hab
    exact ⟨0, by rw [State.runFor_add, h, State.runFor_stop t ht]; rfl⟩

theorem State.microStep_credit (s : State) : s.microStep.credit = s.credit := by
  rcases s.microStep_cases with ⟨-, e⟩ | ⟨-, -, e⟩ | ⟨-, m, r, -, e⟩ <;> rw [e]
  · rfl
  · rfl
  · exact ((s.withTodo r).micro_sameOutside m).credit

/-- A run whose credit lasts does the same on a larger credit, and the difference is left. -/
theorem State.runFor_credit (m : Nat) {n a : Nat} {s : State} (hc : s.credit = some a) (hn : n ≤ a) :
    (s.later (Option.map (· + m)) id [] [] []).runFor n = (s.runFor n).later (Option.map (· + m)) id [] [] [] := by
  induction n generalizing a s with
  | zero => rfl
  | succ n ih =>
    have ha : a ≠ 0 := by omega
    have hw : (s.later (Option.map (· + m)) id [] [] []).canRun = s.canRun := by
      have hs : (s.later (Option.map (· + m)) id [] [] []).waitsForSource = s.waitsForSource := by
        simp only [State.waitsForSource, State.later, List.append_nil]
      simp only [State.canRun, hs, State.later_engState, State.held]
      have : a + m ≠ 0 := by omega
      simp [State.later, hc, beq_false_of_ne ha, beq_false_of_ne this]
    rw [State.runFor, State.runFor, hw]
    split
    · next hr =>
      simp only [State.canRun, Bool.and_eq_true, beq_iff_eq, Bool.not_eq_true'] at hr
      have hm : s.microStep.credit = some a := s.microStep_credit.trans hc
      have e : (s.later (Option.map (· + m)) id [] [] []).microStep.spend =
          s.microStep.spend.later (Option.map (· + m)) id [] [] [] := by
        rw [← State.later_microStep _ _ _ _ _ hr.2]
        simp only [State.spend, State.later, hm, Option.map_some, State.mk.injEq, Option.some.injEq, true_and, and_true]
        omega
      rw [e]
      exact ih (a := a - 1) (by rw [State.spend, hm]; rfl) (by omega)
    · rfl

/-- A run on a credit ends at the latest when the credit is spent. -/
theorem State.runFor_spent {n : Nat} {s : State} (hc : s.credit = some n) : (s.runFor n).canRun = false := by
  induction n generalizing s with
  | zero => simp [State.runFor, State.canRun, State.held, hc]
  | succ n ih =>
    rw [State.runFor]
    split
    · refine ih ?_
      rw [State.spend, s.microStep_credit, hc]
      rfl
    · next h => simpa using h

end Sys2Proof.Machine
end

