-- ==== Sys2Proof/Laws/PerInstr.lean ====
section
/-! SUPPORT. Laws/PerInstr.lean: the statements made once per request. -/

/-- The encoding of a request carries its opcode's OP value, and every field that 30_encoding.md R73 reserves for the opcode
is zero. -/
def Sys2Proof.Laws.EncodedFields.Statement (i : Sys2Proof.Instr) : Prop :=
  Sys2Proof.Opcode.ofValue (Sys2Proof.encode i).fields.op = some i.opcode ∧
    (Sys2Proof.encode i).fields.reservedClear i.opcode = true

namespace Sys2Proof.Laws.EncodedFields

theorem of_fields {i : Instr} (h : i.fields.op = i.opcode.value) (h' : i.fields.reservedClear i.opcode = true) :
    Statement i := by
  rw [Statement, encode, Fields.fields_desc, h, Opcode.ofValue_value]
  exact ⟨rfl, h'⟩

theorem fillRect (x y w h : Nat) (c : Color) : Statement (.fillRect x y w h c) := of_fields rfl rfl

theorem drawPixel (x y : Nat) (c : Color) : Statement (.drawPixel x y c) := of_fields rfl rfl

theorem fillScreen (c : Color) : Statement (.fillScreen c) := of_fields rfl rfl

theorem drawImage (x y w h len : Nat) : Statement (.drawImage x y w h len) := of_fields rfl rfl

theorem drawChar (chr x y : Nat) (fg bg : Color) (scale : Nat) : Statement (.drawChar chr x y fg bg scale) := of_fields rfl rfl

theorem drawString (x y : Nat) (fg bg : Color) (scale len : Nat) : Statement (.drawString x y fg bg scale len) :=
  of_fields rfl rfl

end Sys2Proof.Laws.EncodedFields
end

