-- ==== Sys2Proof/Laws/Progress.lean ====
section
/-! SUPPORT. Laws/Progress.lean: a request in progress goes on, in one step, until it ends or waits: what is left of a program
costs at most so many micro-operations, every micro-operation lowers that cost, and a step performs that many. -/

namespace Sys2Proof.Machine

/-! ### The cost of a program -/

/-- The cost of a filled rectangle: at most the whole surface. -/
abbrev fillCost : Nat := 460900

/-- The cost of a glyph's cell, column and whole. -/
abbrev cellCost : Nat := fillCost + 1
abbrev columnCost : Nat := 5 * cellCost + 1
abbrev glyphCost : Nat := 5 * columnCost + 1

/-- At most how many micro-operations a program takes with PCNT at `p`, source bytes read as characters or drained apart. -/
def cost : List Micro → Nat → Nat
  | [], _ => 0
  | .emit _ :: ms, p => 2 + cost ms p
  | .setWindow .. :: ms, p => 89 + cost ms p
  | .fillRect .. :: ms, p => fillCost + cost ms p
  | .loadPcnt n :: ms, _ => 1 + cost ms n
  | .pixels _ :: ms, p => 6 * p + 1 + cost ms 0
  | .pixelSent :: ms, p => 1 + cost ms (p - 1)
  | .imageBytes :: ms, p => 4 * p + 1 + cost ms 0
  | .imageByteSent :: ms, p => 1 + cost ms (p - 1)
  | .glyph .. :: ms, p => glyphCost + cost ms p
  | .column .. :: ms, p => columnCost + cost ms p
  | .cell .. :: ms, p => cellCost + cost ms p
  | .loadSrem _ :: ms, p => 1 + cost ms p
  | .drain :: ms, p => 1 + cost ms p
  | .beginString .. :: ms, p => 1 + cost ms p
  | .chars .. :: ms, p => 1 + cost ms p
  | .advance _ :: ms, p => 1 + cost ms p

/-- More pixel bytes to send cost no less. -/
theorem cost_mono (ms : List Micro) {p q : Nat} (h : p ≤ q) : cost ms p ≤ cost ms q := by
  induction ms generalizing p q with
  | nil => exact Nat.le_refl 0
  | cons m ms ih =>
    cases m with
    | loadPcnt n => exact Nat.le_refl _
    | pixels v => simp only [cost]; omega
    | imageBytes => simp only [cost]; omega
    | pixelSent => simp only [cost]; have := ih (p := p - 1) (q := q - 1) (by omega); omega
    | imageByteSent => simp only [cost]; have := ih (p := p - 1) (q := q - 1) (by omega); omega
    | _ => simp only [cost]; have := ih h; omega

theorem cost_emits (es : List Event) (ms : List Micro) (p : Nat) : cost (emits es ++ ms) p = 2 * es.length + cost ms p := by
  induction es with
  | nil => simp [emits]
  | cons e es ih =>
    rw [emits, List.map_cons, List.cons_append, cost, ← emits, ih, List.length_cons]
    omega

/-- The loop over characters is the last statement of its program. -/
def charsLast : List Micro → Prop
  | [] => True
  | .chars .. :: ms => ms = []
  | _ :: ms => charsLast ms

theorem charsLast_emits (es : List Event) (ms : List Micro) : charsLast (emits es ++ ms) ↔ charsLast ms := by
  induction es with
  | nil => simp [emits]
  | cons e es ih => rw [emits, List.map_cons, List.cons_append, charsLast, ← emits, ih]; simp

/-- The cost of what is left of the request in progress, a source byte still queued counting for a glyph. -/
def State.left (s : State) : Nat :=
  cost s.todo s.pcnt + (if s.xferBusy then 1 else 0) + 2 ^ 24 * s.srcq.length

/-- What is left of the program is short enough for one step, as in every request. -/
structure State.Bounded (s : State) : Prop where
  cost : cost s.todo s.pcnt ≤ 2 ^ 24
  last : charsLast s.todo

/-! ### Every micro-operation lowers it -/

/-- SetWindow and what follows it cost what the statement cost, whatever it clips to. -/
theorem State.setWindow_cost {k : Nat} {next : Nat → List Micro} (x y w h : Nat) (s : State)
    (hn : ∀ n ≤ 76800, ∀ ms, cost (next n ++ ms) s.pcnt ≤ k + cost ms s.pcnt) :
    cost (s.setWindow x y w h next).todo s.pcnt ≤ 88 + k + cost s.todo s.pcnt := by
  unfold State.setWindow
  split
  · omega
  · next x' y' w' h' hc =>
    have := hn (w' * h') (clip_area hc) s.todo
    simp only [State.push, State.withTodo, State.loadWindow, List.append_assoc, cost_emits]
    simp only [windowEvents, cmdTxn, dataTxn, List.length_append, List.length_cons, List.length_nil]
    omega

theorem State.setWindow_last {next : Nat → List Micro} (x y w h : Nat) (s : State)
    (hn : ∀ n ms, charsLast ms → charsLast (next n ++ ms)) (hs : charsLast s.todo) :
    charsLast (s.setWindow x y w h next).todo := by
  unfold State.setWindow
  split
  · exact hs
  · simp only [State.push, State.withTodo, State.loadWindow, List.append_assoc, charsLast_emits]
    exact hn _ _ hs

theorem fillStream_cost (v : Color) {n p : Nat} (hn : n ≤ 76800) (ms : List Micro) :
    cost (fillStream v n ++ ms) p ≤ 460808 + cost ms p := by
  have := cost_mono ms (Nat.zero_le p)
  simp only [fillStream, List.append_assoc, cost_emits, List.cons_append, List.nil_append, cost, burstOpen, burstClose,
    List.length_cons, List.length_nil]
  omega

theorem fillStream_last (v : Color) (n : Nat) (ms : List Micro) (h : charsLast ms) : charsLast (fillStream v n ++ ms) := by
  simp only [fillStream, List.append_assoc, charsLast_emits, List.cons_append, List.nil_append, charsLast]
  exact h

theorem State.setWindow_rest (x y w h : Nat) (next : Nat → List Micro) (s : State) :
    (s.setWindow x y w h next).pcnt = s.pcnt ∧ (s.setWindow x y w h next).xferBusy = s.xferBusy ∧
      (s.setWindow x y w h next).srcq = s.srcq := by
  unfold State.setWindow
  split <;> exact ⟨rfl, rfl, rfl⟩

/-- The body of DRAW_STRING's loop costs at most a glyph. -/
theorem State.char_cost (c : Nat) (fg bg : Color) (sc : Nat) (s : State) (ht : s.todo = []) :
    cost (s.char c fg bg sc).todo (s.char c fg bg sc).pcnt ≤ glyphCost + 2 ∧ charsLast (s.char c fg bg sc).todo ∧
      (s.char c fg bg sc).xferBusy = s.xferBusy ∧ (s.char c fg bg sc).srcq = s.srcq := by
  unfold State.char
  split_ifs <;>
    simp [State.push, State.withTodo, State.drawAtCursor, ht, cost, charsLast]

/-- The statement that is executed lowers the cost of what is left, and what is left stays short. -/
theorem State.micro_left {s : State} {m : Micro} {rest : List Micro} (hx : s.xferBusy = false) (ht : s.todo = m :: rest)
    (hw : s.waitsForSource = false) (B : s.Bounded) :
    ((s.withTodo rest).micro m).left < s.left ∧ ((s.withTodo rest).micro m).Bounded := by
  have hB := B.cost
  have hL := B.last
  rw [ht] at hB hL
  have key : ∀ t : State, cost t.todo t.pcnt + (if t.xferBusy then 1 else 0) < cost (m :: rest) s.pcnt → t.srcq = s.srcq →
      charsLast t.todo → t.left < s.left ∧ t.Bounded := by
    intro t h1 h2 h3
    refine ⟨?_, by omega, h3⟩
    simp only [State.left, ht, h2, hx]
    simp only [Bool.false_eq_true, if_false]
    omega
  have win : ∀ k x y w h (next : Nat → List Micro), (∀ n ≤ 76800, ∀ ms, cost (next n ++ ms) s.pcnt ≤ k + cost ms s.pcnt) →
      (∀ n ms, charsLast ms → charsLast (next n ++ ms)) → 88 + k + cost rest s.pcnt < cost (m :: rest) s.pcnt →
      charsLast rest → ((s.withTodo rest).setWindow x y w h next).left < s.left ∧
        ((s.withTodo rest).setWindow x y w h next).Bounded := by
    intro k x y w h next h1 h2 h3 h4
    have h5 := (s.withTodo rest).setWindow_cost x y w h h1
    obtain ⟨r1, r2, r3⟩ := (s.withTodo rest).setWindow_rest x y w h next
    refine key _ ?_ r3 (State.setWindow_last x y w h _ h2 h4)
    rw [r1, r2]
    simp only [State.withTodo, hx, Bool.false_eq_true, if_false] at h5 ⊢
    omega
  cases m with
  | emit e =>
    exact key _ (by cases e <;> simp [State.micro, State.emit, State.withTodo, cost, hx, Nat.add_comm])
      (by cases e <;> rfl) (by cases e <;> exact hL)
  | setWindow x y w h =>
    exact win 0 x y w h (fun _ => []) (by intros; simp) (fun _ _ h => h) (by simp only [cost]; omega) hL
  | fillRect x y w h v =>
    exact win 460808 x y w h (fillStream v) (fun n hn ms => fillStream_cost v hn ms) (fillStream_last v)
      (by simp only [cost, fillCost]; omega) hL
  | pixels v =>
    simp only [State.micro, State.pixels]
    have := cost_mono rest (Nat.zero_le s.pcnt)
    split
    · next hp => exact key _ (by simp only [State.withTodo, hx, cost] at hp ⊢; simp [hp]) rfl hL
    · next hp =>
      refine key _ ?_ rfl hL
      simp only [State.withTodo, State.push, List.cons_append, List.nil_append, hx, cost] at hp ⊢
      simp
      omega
  | imageBytes =>
    simp only [State.micro, State.imageBytes]
    have := cost_mono rest (Nat.zero_le s.pcnt)
    split
    · next hp => exact key _ (by simp only [State.withTodo, hx, cost] at hp ⊢; simp [hp]) rfl hL
    · next hp =>
      cases hq : s.srcq with
      | nil => simp [State.waitsForSource, hx, ht, hq] at hw; exact absurd hw hp
      | cons b q =>
        simp only [cost] at hB
        refine ⟨?_, ⟨?_, ?_⟩⟩ <;>
          simp only [State.srcRead, State.withTodo, State.push, hq, State.left, ht, hx, List.cons_append, List.nil_append,
            cost, List.length_cons] at hp ⊢
        · simp; omega
        · omega
        · exact hL
  | drain =>
    simp only [State.micro, State.drain]
    split
    · next hp => exact key _ (by simp only [State.withTodo, hx, cost]; simp) rfl hL
    · next hp =>
      cases hq : s.srcq with
      | nil => simp [State.waitsForSource, hx, ht, hq] at hw; exact absurd hw hp
      | cons b q =>
        simp only [cost] at hB
        refine ⟨?_, ⟨?_, ?_⟩⟩ <;>
          simp only [State.srcRead, State.withTodo, State.push, hq, State.left, ht, hx, List.cons_append, List.nil_append,
            cost, List.length_cons]
        · simp
        · omega
        · exact hL
  | chars fg bg sc =>
    have hr : rest = [] := hL
    subst hr
    simp only [State.micro, State.chars]
    split
    · next hp => exact key _ (by simp only [State.withTodo, hx, cost]; simp) rfl trivial
    · next hp =>
      cases hq : s.srcq with
      | nil => simp [State.waitsForSource, hx, ht, hq] at hw; exact absurd hw hp
      | cons b q =>
        simp only [State.srcRead, State.withTodo, hq]
        obtain ⟨h1, h2, h3, h4⟩ := State.char_cost b.toNat fg bg sc { s with todo := [], srcq := q, srem := s.srem - 1 } rfl
        generalize State.char _ _ _ _ _ = t at h1 h2 h3 h4 ⊢
        simp only [glyphCost, columnCost, cellCost, fillCost] at h1
        refine ⟨?_, ⟨by omega, h2⟩⟩
        simp only [State.left, h3, h4, ht, hq, hx, cost, List.length_cons, Bool.false_eq_true, if_false]
        omega
  | glyph c x y fg bg sc =>
    refine key _ ?_ rfl ?_
    · simp [State.micro, State.glyph, State.push, State.withTodo, List.range, List.range.loop, cost, hx,
        glyphCost, columnCost, cellCost, fillCost]
      omega
    · simpa [State.micro, State.glyph, State.push, State.withTodo, List.range, List.range.loop,
        charsLast] using hL
  | column c x y fg bg sc col =>
    refine key _ ?_ rfl ?_
    · simp [State.micro, State.column, State.push, State.withTodo, List.range, List.range.loop, cost, hx,
        columnCost, cellCost, fillCost]
      omega
    · simpa [State.micro, State.column, State.push, State.withTodo, List.range, List.range.loop,
        charsLast] using hL
  | cell x y fg bg sc row => exact key _ (by simp [State.micro, State.cell, State.push, State.withTodo, cost, hx]) rfl hL
  | _ => exact key _ (by simp [State.micro, State.beginString, State.withTodo, cost, hx]) rfl hL

/-- A micro-operation that can be performed ends the request or lowers the cost of what is left, which stays short. -/
theorem State.microStep_left {s : State} (hc : s.canRun = true) (B : s.Bounded) :
    (s.microStep.engState ≠ .run ∨ s.microStep.left < s.left) ∧ s.microStep.Bounded := by
  simp only [State.canRun, Bool.and_eq_true, Bool.not_eq_true'] at hc
  rcases s.microStep_cases with ⟨hx, e⟩ | ⟨-, -, e⟩ | ⟨hx, m, rest, ht, e⟩ <;> rw [e]
  · exact ⟨.inr (by simp only [State.left, State.completeXfer, hx]; simp), B.cost, B.last⟩
  · exact ⟨.inl (by simp [State.withEngState]), B.cost, B.last⟩
  · obtain ⟨h, h'⟩ := State.micro_left hx ht hc.2 B
    exact ⟨.inr h, h'⟩

theorem State.Bounded.spend {s : State} (B : s.Bounded) : s.spend.Bounded := ⟨B.cost, B.last⟩

/-- What is left stays short however far the request has run. -/
theorem State.Bounded.runFor {s : State} (B : s.Bounded) (n : Nat) : (s.runFor n).Bounded :=
  State.runFor_induction (fun _ hc B => (State.microStep_left hc B).2.spend) B n

/-- More micro-operations than the cost of what is left end the request, or bring it to where it waits. -/
theorem State.runFor_ends {n : Nat} {s : State} (B : s.Bounded) (h : s.left < n) : (s.runFor n).canRun = false := by
  induction n generalizing s with
  | zero => omega
  | succ n ih =>
    rw [State.runFor]
    split
    · next hc =>
      obtain ⟨h1 | h1, B'⟩ := State.microStep_left hc B
      · have : s.microStep.spend.canRun = false := by simp [State.canRun, State.spend, h1]
        rw [State.runFor_stop _ this, this]
      · exact ih B'.spend (by change s.microStep.left < n; omega)
    · next hc => simpa using hc

/-- One step runs a request until it ends or waits. -/
theorem State.goOn_ends {s : State} (B : s.Bounded) (hc : s.credit = none) : s.goOn.canRun = false := by
  refine State.runFor_ends B ?_
  have := B.cost
  simp only [State.left, State.patience, hc]
  split <;> omega

/-- Whatever end a run comes to, one step comes to. -/
theorem State.goOn_meets {s t : State} {k : Nat} (B : s.Bounded) (hc : s.credit = none) (h : s.runFor k = t)
    (ht : t.canRun = false) : s.goOn = t := by
  obtain ⟨m, hm⟩ := State.runFor_meets (b := s.patience) h ht
  rw [← State.goOn, State.runFor_stop _ (State.goOn_ends B hc)] at hm
  exact hm

/-- A step at a state whose request can go on is the rest of that request. -/
theorem step_goOn {s : State} (h : s.canRun = true) : step s = .next s.goOn := by rw [step, if_pos h]

/-- A run does not touch the credit of an unheld engine. -/
theorem State.runFor_unheld {s : State} (h : s.credit = none) (n : Nat) : (s.runFor n).credit = none := by
  exact State.runFor_induction (P := fun s => s.credit = none)
    (fun s _ h => by rw [State.spend_of_none _ (s.microStep_credit.trans h), s.microStep_credit, h]) h n

/-! ### Every request is short enough -/

theorem imageNeed_le (x y w h : Nat) : imageNeed x y w h ≤ 153600 := by
  unfold imageNeed
  split
  · omega
  · next hc => have := clip_area hc; rw [Nat.mul_assoc, Config.bytesPerPixel]; omega

/-- A request raises IMAGE_SHORT in every state, or runs in every state the same program, which is short enough for one
step. -/
theorem exec_program (i : Instr) : (∀ s, exec i s = .next (s.raiseFault .imageShort)) ∨
    ∃ program, (∀ s, exec i s = .next (s.request program)) ∧
      ∀ s : State, ((s.withEngState .run).withTodo program).Bounded := by
  cases i with
  | fillRect => exact .inr ⟨_, fun _ => rfl, fun _ => ⟨by simp [State.withTodo, cost, fillCost], trivial⟩⟩
  | drawPixel => exact .inr ⟨_, fun _ => rfl, fun _ => ⟨by simp [State.withTodo, cost, fillCost], trivial⟩⟩
  | fillScreen => exact .inr ⟨_, fun _ => rfl, fun _ => ⟨by simp [State.withTodo, cost, fillCost], trivial⟩⟩
  | drawImage x y w h len =>
    by_cases hn : len < imageNeed x y w h
    · exact .inl fun s => by rw [exec, execDrawImage, if_pos hn]
    · refine .inr ⟨_, fun s => by rw [exec, execDrawImage, if_neg hn], fun s => ?_⟩
      have := imageNeed_le x y w h
      unfold imageProgram
      split
      · refine ⟨?_, trivial⟩
        simp only [State.withTodo, List.cons_append, List.nil_append, emits, burstOpen, burstClose,
          List.map_cons, List.map_nil, cost]
        omega
      · exact ⟨by simp [State.withTodo, cost], trivial⟩
  | drawChar chr x y fg bg sc =>
    refine .inr ⟨_, fun _ => rfl, fun _ => ?_⟩
    split
    · exact ⟨by simp [State.withTodo, cost, glyphCost, columnCost, cellCost, fillCost], trivial⟩
    · exact ⟨by simp [State.withTodo, cost], trivial⟩
  | drawString => exact .inr ⟨_, fun _ => rfl, fun _ => ⟨by simp [State.withTodo, cost], rfl⟩⟩

end Sys2Proof.Machine
end

