-- ==== Sys2Proof/Tests/Slice0.lean ====
section
/-! SUPPORT. Tests/Slice0.lean: the model against the vectors of 95_test_vectors.md, and a witness for the hypotheses of every
obligation that has hypotheses. Expected values are those of the spec's tables, not the model's answers. -/

open Sys2Proof Sys2Proof.Machine

namespace Sys2Proof.Tests

/-! ### Small states -/

/-- The default commands of 00_scope.md R7, a font whose every column byte is 0x04 (glyph row 0 lit only), and the smallest
legal queues. -/
def params : Params where
  cmdCaset := 0x2A
  cmdPaset := 0x2B
  cmdRamwr := 0x2C
  font := Vector.replicate 475 0x04
  reqDepth := 5
  srcDepth := 1

/-- After reset, with these source bytes queued. -/
def start (q : List Byte) : State := { State.reset with params := params, srcq := q }

/-- The next state of an outcome, or a state where there is none. -/
def nextOr (s : State) (o : Host.Outcome State Fault Refusal) : State :=
  match o with
  | .next t => t
  | _ => s

/-- The state after a request on a state. -/
def after (i : Instr) (s : State) : State := nextOr s (exec i s)

/-- The state after one step. -/
def stepped (s : State) : State := nextOr s (step s)

/-- The step of a machine with a descriptor at the head of the request queue. -/
def taken (w0 w1 w2 w3 w4 : Word) (q : List Byte) : State :=
  stepped { start q with reqq := [w0, w1, w2, w3, w4] }

/-! ### WellFormed: each check refuses an ill-formed request -/

theorem test_wf_fillRect : (Instr.fillRect 65535 65535 65535 65535 0xFFFF).wf = true ∧
    (Instr.fillRect 65536 0 1 1 0).wf = false ∧ (Instr.fillRect 0 65536 1 1 0).wf = false ∧
    (Instr.fillRect 0 0 65536 1 0).wf = false ∧ (Instr.fillRect 0 0 1 65536 0).wf = false := by decide

theorem test_wf_drawPixel : (Instr.drawPixel 65535 65535 0).wf = true ∧ (Instr.drawPixel 65536 0 0).wf = false ∧
    (Instr.drawPixel 0 65536 0).wf = false := by decide

theorem test_wf_drawImage : (Instr.drawImage 65535 65535 65535 65535 4294967295).wf = true ∧
    (Instr.drawImage 65536 0 1 1 2).wf = false ∧ (Instr.drawImage 0 65536 1 1 2).wf = false ∧
    (Instr.drawImage 0 0 65536 1 2).wf = false ∧ (Instr.drawImage 0 0 1 65536 2).wf = false ∧
    (Instr.drawImage 0 0 1 1 4294967296).wf = false := by decide

theorem test_wf_drawChar : (Instr.drawChar 255 65535 65535 0 0 255).wf = true ∧ (Instr.drawChar 256 0 0 0 0 1).wf = false ∧
    (Instr.drawChar 65 65536 0 0 0 1).wf = false ∧ (Instr.drawChar 65 0 65536 0 0 1).wf = false ∧
    (Instr.drawChar 65 0 0 0 0 256).wf = false := by decide

theorem test_wf_drawString : (Instr.drawString 65535 65535 0 0 255 4294967295).wf = true ∧
    (Instr.drawString 65536 0 0 0 1 1).wf = false ∧ (Instr.drawString 0 65536 0 0 1 1).wf = false ∧
    (Instr.drawString 0 0 0 0 256 1).wf = false ∧ (Instr.drawString 0 0 0 0 1 4294967296).wf = false := by decide

/-! ### Decode: words written out bit by bit from the field table of 30_encoding.md R69 -/

/-- W0 is RSV0 0, CHR 0, SCALE 0, OP 1; W1 is Y 310, X 230; W2 is H 20, W 20; W3 is C1 0, C0 0x07E0; LEN 0. -/
theorem test_decode_fillRect :
    decode
      ⟨0b00000000000000000000000000000001, 0b00000001001101100000000011100110, 0b00000000000101000000000000010100,
        0b00000000000000000000011111100000, 0b00000000000000000000000000000000⟩
      = .ok (.fillRect 230 310 20 20 0x07E0) := by decide

/-- OP 2; Y 308, X 18; C0 0xF800. -/
theorem test_decode_drawPixel :
    decode
      ⟨0b00000000000000000000000000000010, 0b00000001001101000000000000010010, 0b00000000000000000000000000000000,
        0b00000000000000001111100000000000, 0b00000000000000000000000000000000⟩
      = .ok (.drawPixel 18 308 0xF800) := by decide

/-- OP 3; C0 0x1234. -/
theorem test_decode_fillScreen :
    decode
      ⟨0b00000000000000000000000000000011, 0b00000000000000000000000000000000, 0b00000000000000000000000000000000,
        0b00000000000000000001001000110100, 0b00000000000000000000000000000000⟩
      = .ok (.fillScreen 0x1234) := by decide

/-- OP 4; Y 0, X 238; H 2, W 4; LEN 16. -/
theorem test_decode_drawImage :
    decode
      ⟨0b00000000000000000000000000000100, 0b00000000000000000000000011101110, 0b00000000000000100000000000000100,
        0b00000000000000000000000000000000, 0b00000000000000000000000000010000⟩
      = .ok (.drawImage 238 0 4 2 16) := by decide

/-- CHR 0x41, SCALE 3, OP 5; Y 0, X 238; C1 0x0001, C0 0xFFFF. -/
theorem test_decode_drawChar :
    decode
      ⟨0b00000000010000010000001100000101, 0b00000000000000000000000011101110, 0b00000000000000000000000000000000,
        0b00000000000000011111111111111111, 0b00000000000000000000000000000000⟩
      = .ok (.drawChar 0x41 238 0 0xFFFF 0x0001 3) := by decide

/-- SCALE 1, OP 6; Y 0, X 310; C1 0xFFFF, C0 0x0000; LEN 6. -/
theorem test_decode_drawString :
    decode
      ⟨0b00000000000000000000000100000110, 0b00000000000000000000000100110110, 0b00000000000000000000000000000000,
        0b11111111111111110000000000000000, 0b00000000000000000000000000000110⟩
      = .ok (.drawString 310 0 0x0000 0xFFFF 1 6) := by decide

/-- The illegal OP values of 95_test_vectors.md section 2.6. -/
theorem test_decode_illegal :
    ([0x00000000, 0x00000007, 0x000000FF, 0x01000007].map fun w => decode ⟨w, 0, 0, 0, 0⟩)
      = [.error .illegalOp, .error .illegalOp, .error .illegalOp, .error .illegalOp] := by decide

/-- The reserved fields of 95_test_vectors.md section 2.6. -/
theorem test_decode_reserved :
    ([⟨0x00000101, 0, 0x00010001, 0, 0⟩, ⟨0x01000001, 0, 0x00010001, 0, 0⟩, ⟨0x00000001, 0, 0x00010001, 0x00010000, 0⟩,
      ⟨0x00000001, 0, 0x00010001, 0, 1⟩, ⟨0x00000002, 0, 1, 0, 0⟩, ⟨0x00000003, 1, 0, 0, 0⟩,
      ⟨0x00000004, 0, 0x00010001, 0x0000FFFF, 2⟩, ⟨0x00000004, 0, 0x00020002, 0x0000FFFF, 1⟩, ⟨0x00410105, 0, 0, 0, 1⟩,
      ⟨0x00410106, 0, 0, 0, 1⟩].all fun d => decode d == .error .reservedField) = true := by decide

/-- The encodings of 95_test_vectors.md sections 2.2, 2.3 and 2.5. -/
theorem test_encode :
    encode (.fillRect 10 300 1 50 0xFFFF) = ⟨0x00000001, 0x012C000A, 0x00320001, 0x0000FFFF, 0⟩ ∧
    encode (.drawPixel 239 319 0xF800) = ⟨0x00000002, 0x013F00EF, 0, 0x0000F800, 0⟩ ∧
    encode (.drawImage 0 0 1 1 2) = ⟨0x00000004, 0, 0x00010001, 0, 2⟩ ∧
    encode (.drawString 0 0 0xFFFF 0x0000 1 3) = ⟨0x00000106, 0, 0, 0x0000FFFF, 3⟩ := by decide

/-- The numbering of opcode_table.json: W0 in bits 31:0, W1 in bits 63:32, and so on. -/
theorem test_decodeTableWord :
    decodeTableWord 160 (0x00000002 + 2 ^ 32 * 0x01340012 + 2 ^ 96 * 0x0000F800) = some (.drawPixel 18 308 0xF800) ∧
    decodeTableWord 32 0x00000003 = some (.fillScreen 0) ∧ decodeTableWord 32 0x00000007 = none := by decide

/-! ### The requests -/

/-- 95_test_vectors.md section 2.2: FILL_RECT 0, 0, 3, 1, 0xF800. -/
theorem test_fillRect :
    transferred (taken 0x00000001 0x00000000 0x00010003 0x0000F800 0 []).trace =
      [0x2A, 0, 0, 0, 2, 0x2B, 0, 0, 0, 0, 0x2C, 0xF8, 0, 0xF8, 0, 0xF8, 0] ∧
    (taken 0x00000001 0x00000000 0x00010003 0x0000F800 0 []).trace.length = 53 := by decide +kernel

/-- FILL_RECT 240, 0, 5, 5, 0xFFFF: nothing is sent, and the request has ended. -/
theorem test_fillRect_noOp :
    (taken 0x00000001 0x000000F0 0x00050005 0x0000FFFF 0 []).trace = [] ∧
    (taken 0x00000001 0x000000F0 0x00050005 0x0000FFFF 0 []).status = 0 ∧
    (taken 0x00000001 0x000000F0 0x00050005 0x0000FFFF 0 []).reqIndex = 1 := by decide +kernel

/-- DRAW_PIXEL 0, 0, 0xABCD: the whole list of 49 events. -/
theorem test_drawPixel :
    (taken 0x00000002 0 0 0x0000ABCD 0 []).trace =
      [.sel, .dc .cmd, .xfer 0x2A, .desel,
        .sel, .dc .data, .xfer 0, .desel, .sel, .dc .data, .xfer 0, .desel,
        .sel, .dc .data, .xfer 0, .desel, .sel, .dc .data, .xfer 0, .desel,
        .sel, .dc .cmd, .xfer 0x2B, .desel,
        .sel, .dc .data, .xfer 0, .desel, .sel, .dc .data, .xfer 0, .desel,
        .sel, .dc .data, .xfer 0, .desel, .sel, .dc .data, .xfer 0, .desel,
        .sel, .dc .cmd, .xfer 0x2C, .desel,
        .sel, .dc .data, .xfer 0xAB, .xfer 0xCD, .desel] := by decide +kernel

/-- Program P1's pixel, by the reference consumer: (239, 319) takes the colour and its neighbour is not written. -/
theorem test_drawPixel_screen :
    Gram.lookup (pixelIndex 239 319) (taken 0x00000002 0x013F00EF 0 0x0000F800 0 []).consumer.gram = some 0xF800 ∧
    Gram.lookup (pixelIndex 238 319) (taken 0x00000002 0x013F00EF 0 0x0000F800 0 []).consumer.gram = none := by
  decide +kernel

/-- FILL_SCREEN 0x1234, held after 71 micro-operations: the window of the whole surface and two pixels. -/
theorem test_fillScreen :
    transferred (after (.fillScreen 0x1234) { start [] with credit := some 71 }).trace =
      [0x2A, 0, 0, 0, 0xEF, 0x2B, 0, 0, 1, 0x3F, 0x2C, 0x12, 0x34, 0x12, 0x34] ∧
    (after (.fillScreen 0x1234) { start [] with credit := some 71 }).pcnt = 76798 := by decide +kernel

/-- 70_reset_and_hazards.md R169: a reset inside that burst closes it by one DESEL. -/
theorem test_fillScreen_reset :
    ((after (.fillScreen 0x1234) { start [] with credit := some 71 }).resetBlock.out.take 3 =
      [.desel, .xfer 0x34, .xfer 0x12]) ∧
    (after (.fillScreen 0x1234) { start [] with credit := some 71 }).resetBlock.status = 0 := by decide +kernel

/-- Program P3: an image clipped from 4 x 2 to 2 x 2 is read linearly, and its excess bytes are drained. -/
theorem test_drawImage :
    (transferred (taken 0x00000004 0x000000EE 0x00020004 0 16
        [0x10, 1, 0x20, 2, 0x30, 3, 0x40, 4, 0x50, 5, 0x60, 6, 0x70, 7, 0x80, 8, 0xAB]).trace =
      [0x2A, 0, 0xEE, 0, 0xEF, 0x2B, 0, 0, 0, 1, 0x2C, 0x10, 1, 0x20, 2, 0x30, 3, 0x40, 4]) ∧
    (taken 0x00000004 0x000000EE 0x00020004 0 16
        [0x10, 1, 0x20, 2, 0x30, 3, 0x40, 4, 0x50, 5, 0x60, 6, 0x70, 7, 0x80, 8, 0xAB]).srcq = [0xAB] ∧
    (taken 0x00000004 0x000000EE 0x00020004 0 16
        [0x10, 1, 0x20, 2, 0x30, 3, 0x40, 4, 0x50, 5, 0x60, 6, 0x70, 7, 0x80, 8, 0xAB]).consumer.gram =
      [(pixelIndex 238 0, 0x1001), (pixelIndex 239 0, 0x2002), (pixelIndex 238 1, 0x3003), (pixelIndex 239 1, 0x4004)] := by
  decide +kernel

/-- DRAW_IMAGE 0, 0, 1, 1 with LEN 1 faults (95_test_vectors.md section 2.3), and the wait vector: with one of two bytes
queued the engine waits with its burst open, and the late byte completes it. -/
theorem test_drawImage_short_and_wait :
    (taken 0x00000004 0 0x00010001 0 1 [0xAA]).status = 0x00000032 ∧
    (taken 0x00000004 0 0x00010001 0 1 [0xAA]).srcq = [0xAA] ∧
    (taken 0x00000004 0 0x00010001 0 2 [0xAA]).out.take 3 = [.xfer 0xAA, .dc .data, .sel] ∧
    (taken 0x00000004 0 0x00010001 0 2 [0xAA]).status = 1 ∧
    (stepped { taken 0x00000004 0 0x00010001 0 2 [0xAA] with srcq := [0xBB] }).trace =
      (taken 0x00000004 0 0x00010001 0 2 [0xAA, 0xBB]).trace := by decide +kernel

/-- DRAW_CHAR 'A', 238, 0, scale 3: five cells of 2 x 3, 295 events, 115 bytes; row 0 in the foreground, the others in the
background. -/
theorem test_drawChar :
    (taken 0x00410305 0x000000EE 0 0x0000FFFF 0 []).trace.length = 295 ∧
    (transferred (taken 0x00410305 0x000000EE 0 0x0000FFFF 0 []).trace).length = 115 ∧
    ([2, 3, 14, 15].map fun page =>
      Gram.lookup (pixelIndex 239 page) (taken 0x00410305 0x000000EE 0 0x0000FFFF 0 []).consumer.gram) =
      [some 0xFFFF, some 0x0000, some 0x0000, none] := by decide +kernel

/-- DRAW_CHAR 'A' at (0, 0), scale 1, with a font that is 0 but for the byte of 'A' in column 3, at index 33 * 5 + 3 = 168 (R40),
which is 0xC7: of its bits, 2 and 6 light rows 0 and 4 (R120), and 0, 1 and 7 nothing (R88). -/
theorem test_drawChar_font :
    ([(3, 0), (3, 1), (3, 4), (2, 0), (4, 0), (2, 4)].map fun cp => Gram.lookup (pixelIndex cp.1 cp.2)
      (stepped { start [] with
        params := { params with font := (Vector.replicate 475 0).set 168 0xC7 }
        reqq := [0x00410105, 0, 0, 0x0000FFFF, 0] }).consumer.gram) =
      [some 0xFFFF, some 0, some 0xFFFF, some 0, some 0, some 0] := by decide +kernel

/-- DRAW_CHAR of 31, 127 and 255, and with scale 0: no event (R127). -/
theorem test_drawChar_nothing :
    (taken 0x001F0105 0 0 0x0000FFFF 0 []).trace = [] ∧ (taken 0x007F0105 0 0 0x0000FFFF 0 []).trace = [] ∧
    (taken 0x00FF0105 0 0 0x0000FFFF 0 []).trace = [] ∧ (taken 0x00410005 0 0 0x0000FFFF 0 []).trace = [] ∧
    (taken 0x00410005 0 0 0x0000FFFF 0 []).status = 0 := by decide +kernel

/-- Program P5: the string draws nothing visible, and consumes its six bytes. -/
theorem test_drawString :
    (taken 0x00000106 0x00000136 0 0xFFFF0000 6 [1, 0x41, 0x42, 0, 0x43, 0x44, 0x77]).trace = [] ∧
    (taken 0x00000106 0x00000136 0 0xFFFF0000 6 [1, 0x41, 0x42, 0, 0x43, 0x44, 0x77]).srcq = [0x77] ∧
    (taken 0x00000106 0x00000136 0 0xFFFF0000 6 [1, 0x41, 0x42, 0, 0x43, 0x44, 0x77]).status = 0 ∧
    (taken 0x00000106 0x00000136 0 0xFFFF0000 6 [1, 0x41, 0x42, 0, 0x43, 0x44, 0x77]).cy = 7 := by decide +kernel

/-- A string at (239, 0): one column of its first character is on the surface, 5 cells of 1 x 1, and the rest is not. -/
theorem test_drawString_visible :
    (taken 0x00000106 0x000000EF 0 0x00001234 2 [0x41, 0x42]).trace.length = 245 ∧
    Gram.lookup (pixelIndex 239 0) (taken 0x00000106 0x000000EF 0 0x00001234 2 [0x41, 0x42]).consumer.gram = some 0x1234 ∧
    Gram.lookup (pixelIndex 239 4) (taken 0x00000106 0x000000EF 0 0x00001234 2 [0x41, 0x42]).consumer.gram = some 0 := by
  decide +kernel

/-! ### Tables of 95_test_vectors.md -/

/-- Section 2.1. -/
theorem test_clip :
    clip 0 0 1 1 = .window 0 0 1 1 ∧ clip 239 319 5 5 = .window 239 319 1 1 ∧ clip 240 0 1 1 = .noOp ∧
    clip 0 320 1 1 = .noOp ∧ clip 65535 65535 1 1 = .noOp ∧ clip 10 10 0 5 = .noOp ∧ clip 10 10 5 0 = .noOp ∧
    clip 0 0 65535 65535 = .window 0 0 240 320 ∧ clip 100 255 50 10 = .window 100 255 50 10 ∧
    clip 230 310 20 20 = .window 230 310 10 10 ∧ clip 200 0 40 1 = .window 200 0 40 1 ∧
    clip 200 0 41 1 = .window 200 0 40 1 := by decide

/-- SetWindow(100, 255, 50, 10). -/
theorem test_window_bytes :
    transferred (windowEvents params 100 255 50 10) = [0x2A, 0, 0x64, 0, 0x95, 0x2B, 0, 0xFF, 1, 8, 0x2C] := by decide

/-- Section 2.3: the needed byte counts. -/
theorem test_imageNeed :
    imageNeed 0 0 2 2 = 8 ∧ imageNeed 240 0 1 1 = 0 ∧ imageNeed 238 0 4 2 = 8 ∧ imageNeed 0 319 1 3 = 2 := by decide

/-- Section 2.4: the rows a column byte lights. -/
theorem test_lit :
    [0x7C, 0xFF, 0x83, 0x00, 0x04, 0x40, 0x78].map (fun gb : Byte => [0, 1, 2, 3, 4].filter (lit gb)) =
      [[0, 1, 2, 3, 4], [0, 1, 2, 3, 4], [], [], [0], [4], [1, 2, 3, 4]] := by decide

/-- The origins of a string's glyphs. -/
def origins (sc x y : Nat) (cs : List Byte) : List (Nat × Nat) := (layout sc (.start x y) cs).map (·.2)

/-- Section 2.5. -/
theorem test_layout :
    origins 1 0 0 [0x41, 0x42] = [(0, 0), (6, 0)] ∧ origins 2 0 0 [0x41, 0x42] = [(0, 0), (11, 0)] ∧
    origins 1 0 0 [0x41, 1, 0x42] = [(0, 0), (6, 0)] ∧ origins 1 0 0 [0x41, 0, 0x42] = [(0, 0)] ∧
    origins 1 315 0 [1, 0x41] = [(315, 0)] ∧ origins 1 312 100 [0x41, 0x42] = [(312, 100), (312, 107)] ∧
    origins 1 312 235 [0x41, 0x42] = [(312, 235)] ∧ origins 1 0 235 [0x41, 0x42] = [(0, 235), (6, 235)] ∧
    origins 2 300 0 [0x41, 0x42, 0x43] = [(300, 0), (300, 12), (300, 24)] ∧
    (origins 1 0 0 (List.replicate 54 0x41)).drop 52 = [(312, 0), (0, 7)] ∧
    origins 10 0 0 (List.replicate 7 0x41) = [(0, 0), (51, 0), (102, 0), (153, 0), (204, 0), (255, 0), (0, 52)] ∧
    origins 10 0 200 (List.replicate 7 0x41) = [(0, 200), (51, 200), (102, 200), (153, 200), (204, 200), (255, 200)] ∧
    origins 1 313 0 [0x41, 0x41] = [(313, 0), (313, 7)] ∧ origins 1 5 5 [] = [] ∧
    origins 0 0 0 [0x41, 0x42] = [(0, 0), (1, 0)] := by decide +kernel

/-- Section 2.6: STATUS and FAULT_W0 after an illegal and a reserved descriptor, and BUSY with words still queued. -/
theorem test_faults :
    (taken 0x01000007 0 0 0 0 []).status = 0x12 ∧ (taken 0x01000007 0 0 0 0 []).faultW0 = 0x01000007 ∧
    (taken 0x00000101 0 0x00010001 0 0 []).status = 0x22 ∧ (taken 0x00410106 0 0 0 1 []).faultW0 = 0x00410106 ∧
    (stepped { start [] with reqq := [7, 0, 0, 0, 0, 3] }).status = 0x13 := by decide +kernel

/-- Section 2.7. -/
theorem test_rgb565 :
    rgb565 255 0 0 = 0xF800 ∧ rgb565 0 255 0 = 0x07E0 ∧ rgb565 0 0 255 = 0x001F ∧ rgb565 255 255 255 = 0xFFFF ∧
    rgb565 0x12 0x34 0x56 = 0x11AA ∧ rgb565 7 3 7 = 0 ∧ rgb565 8 4 8 = 0x0821 ∧ rgb565 128 128 128 = 0x8410 ∧
    rgb565Decode 0xF800 = (248, 0, 0) ∧ rgb565Decode 0x11AA = (0x10, 0x34, 0x50) := by decide

/-- Section 2.8: STATUS with three words of a descriptor written, and a reset in FAULTED with five words queued. -/
theorem test_status :
    (start []).status = 0 ∧ { start [] with reqq := [1, 2, 3] }.status = 1 ∧
    stepped { start [] with reqq := [1, 2, 3] } = { start [] with reqq := [1, 2, 3] } ∧
    { taken 7 0 0 0 0 [] with reqq := [1, 2, 3, 4, 5] }.status = 0x13 ∧
    { taken 7 0 0 0 0 [] with reqq := [1, 2, 3, 4, 5] }.resetBlock.status = 0 := by decide +kernel

/-- Lines of section 3's programs. -/
theorem test_assemble :
    assemble ["FILL_RECT 230, 310, 20, 20, 0x07E0   ; clipped".toList, "HLINE     0, 5, 300, 0x001F".toList] =
      some ⟨[1, 0x013600E6, 0x00140014, 0x07E0, 0, 1, 0x00050000, 0x0001012C, 0x001F, 0], []⟩ ∧
    assembleText ("DRAW_IMAGE 0, 0, 1, 1, ".toList ++ [Char.ofNat 123] ++ "0xAB, 0xCD".toList ++ [Char.ofNat 125]) =
      some ⟨[4, 0, 0x00010001, 0, 2], [0xAB, 0xCD]⟩ ∧
    assembleText "DRAW_STRING \"\\x01AB\\x00CD\", 310, 0, 0x0000, 0xFFFF, 1".toList =
      some ⟨[0x00000106, 0x00000136, 0, 0xFFFF0000, 6], [1, 0x41, 0x42, 0, 0x43, 0x44]⟩ ∧
    assembleText ".word 0x00000007".toList = some ⟨[7], []⟩ ∧
    assembleText "DRAW_CHAR 'A', 0, 0, RGB(255, 0, 0), 0, 1".toList = some ⟨[0x00410105, 0, 0, 0xF800, 0], []⟩ := by
  decide +kernel

/-- An operand that does not fit its field is an assembly error (30_encoding.md R80). -/
theorem test_assemble_error :
    assembleText "FILL_RECT 65536, 0, 1, 1, 0".toList = none ∧ assembleText "DRAW_CHAR 256, 0, 0, 0, 0, 1".toList = none ∧
    assembleText "FILL_SCREEN 0x10000".toList = none := by decide +kernel

/-! ### Witnesses: concrete inputs that meet the hypotheses of each obligation -/

/-- A descriptor: FILL_RECT 240, 0, 5, 5, which draws nothing. -/
def sample : Desc := ⟨0x00000001, 0x000000F0, 0x00050005, 0x0000FFFF, 0⟩

/-- The request it stands for. -/
def sampleInstr : Instr := .fillRect 240 0 5 5 0xFFFF

/-- An idle engine with a descriptor queued. -/
def queued (d : Desc) : State := { start [] with reqq := d.words }

/-- An engine in FAULTED, with the given inputs pending. -/
def faultedWith (is : List Input) : State :=
  { start [] with engState := .faulted, fcode := .illegalOp, faultW0 := 7, inputs := is }

/-- The same with a full request queue. -/
def fullWith (is : List Input) : State := { faultedWith is with reqq := [1, 2, 3, 4, 5] }

theorem test_witness_EncodedRequestDecodesBack : ∃ i : Instr, i.wf = true ∧ i = .drawImage 65535 65535 65535 65535 4294967295 :=
  ⟨_, by decide, rfl⟩

theorem test_witness_DecodedDescriptorEncodesBack : ∃ d i, decode d = .ok i := ⟨sample, sampleInstr, by decide⟩

theorem test_witness_StepExecutesDecodedRequest : ∃ (s : State) (d : Desc) (rest : List Word) (i : Instr),
    s.engState = .idle ∧ s.credit ≠ some 0 ∧ s.reqq = d.words ++ rest ∧ decode d = .ok i :=
  ⟨queued sample, sample, [], sampleInstr, rfl, by decide, rfl, by decide⟩

theorem test_witness_IncompleteDescriptorWaits : ∃ s : State, s.engState = .idle ∧ s.reqq.length < 5 ∧ s.inputs = [] :=
  ⟨{ start [] with reqq := [1, 2, 3, 4] }, rfl, by decide, rfl⟩

theorem test_witness_IllegalOpRaisesFault : ∀ d ∈ [(⟨0, 1, 2, 3, 4⟩ : Desc), ⟨0x01000007, 0, 0, 0, 0⟩, ⟨0xFFFFFFFF, 0, 0, 0, 0⟩],
    (queued d).engState = .idle ∧ (queued d).credit ≠ some 0 ∧ (queued d).reqq = d.words ++ [] ∧
      (d.w0.toNat % 256 = 0 ∨ 6 < d.w0.toNat % 256) := by decide

/-- A descriptor for each opcode, with the smallest nonzero value of one reserved field. -/
theorem test_witness_ReservedFieldRaisesFault :
    (∀ d ∈ [⟨0x00000101, 0, 0, 0, 0⟩, ⟨2, 0, 1, 0, 0⟩, ⟨3, 1, 0, 0, 0⟩, ⟨4, 0, 0, 1, 0⟩, ⟨0x01000005, 0, 0, 0, 0⟩,
      ⟨0x00010006, 0, 0, 0, 0⟩, (⟨1, 0, 0, 0x00010000, 0⟩ : Desc), ⟨6, 0, 1, 0, 0⟩, ⟨5, 0, 0, 0, 1⟩], reservedNonzero d) ∧
    ∃ (s : State) (d : Desc) (rest : List Word),
      s.engState = .idle ∧ s.credit ≠ some 0 ∧ s.reqq = d.words ++ rest ∧ reservedNonzero d :=
  ⟨by simp [reservedNonzero], queued ⟨3, 1, 0, 0, 0⟩, ⟨3, 1, 0, 0, 0⟩, [], rfl, by decide, rfl, by simp [reservedNonzero]⟩

theorem test_witness_EveryOtherDescriptorIsLegal : ∀ d ∈ [(⟨1, 5, 6, 0x0000FFFF, 0⟩ : Desc), ⟨0x0000FF06, 7, 0, 8, 9⟩],
    1 ≤ d.w0.toNat % 256 ∧ d.w0.toNat % 256 ≤ 6 ∧ ¬ reservedNonzero d := by simp [reservedNonzero]

/-- A reset behind a write that waits, and a source write. -/
theorem test_witness_OnlyResetLeavesFaulted :
    (∃ s t : State, s.engState = .faulted ∧ step s = .next t ∧
      nextInput s s.inputs = some (.reset, [.writeRequest 6]) ∧ t.engState = .idle) ∧
    (∃ s t : State, s.engState = .faulted ∧ step s = .next t ∧
      (∀ rest, nextInput s s.inputs ≠ some (.reset, rest)) ∧ t.srcq = [9] ∧ t.engState = .faulted) :=
  ⟨⟨fullWith [.writeRequest 6, .reset], _, rfl, rfl, rfl, rfl⟩,
    ⟨faultedWith [.writeSource 9], _, rfl, rfl, (by intro rest h; cases h), rfl, rfl⟩⟩

theorem test_witness_ResetEffect : ∃ (s : State) (rest : List Input),
    s.xferBusy = false ∧ s.engState ≠ .run ∧ s.canRun = false ∧ s.takeDescriptor = none ∧ s.inputs = .reset :: rest :=
  ⟨faultedWith [.reset], [], rfl, by decide, rfl, rfl, rfl⟩

theorem test_witness_StatusReadHasNoSideEffect : ∀ index : Fin 2, ∃ (s : State) (rest : List Input),
    s.canRun = false ∧ s.takeDescriptor = none ∧ s.inputs = .readStatus index :: rest :=
  fun index => ⟨faultedWith [.readStatus index], [], rfl, rfl, rfl⟩

theorem test_witness_RequestWriteAppendsOrWaits :
    (∃ (s : State) (w : Word), s.canRun = false ∧ s.takeDescriptor = none ∧ s.seqReady = true ∧
      s.inputs = [.writeRequest w] ∧ s.reqq.length < s.params.reqDepth) ∧
    (∃ (s : State) (w : Word), s.canRun = false ∧ s.takeDescriptor = none ∧ s.seqReady = true ∧
      s.inputs = [.writeRequest w] ∧ s.params.reqDepth ≤ s.reqq.length) :=
  ⟨⟨{ start [] with reqq := [1, 2, 3, 4], inputs := [.writeRequest 9] }, 9, rfl, rfl, rfl, rfl, by decide⟩,
    ⟨fullWith [.writeRequest 9], 9, rfl, rfl, rfl, rfl, by decide⟩⟩

theorem test_witness_SourceWriteAppendsOrWaits :
    (∃ (s : State) (b : Byte), s.canRun = false ∧ s.takeDescriptor = none ∧ s.inputs = [.writeSource b] ∧
      s.srcq.length < s.params.srcDepth) ∧
    (∃ (s : State) (b : Byte), s.canRun = false ∧ s.takeDescriptor = none ∧ s.inputs = [.writeSource b] ∧
      s.params.srcDepth ≤ s.srcq.length) ∧
    (∃ (s : State) (w : Word) (b : Byte), s.canRun = false ∧ s.takeDescriptor = none ∧
      s.inputs = [.writeRequest w, .writeSource b] ∧ s.params.reqDepth ≤ s.reqq.length ∧
      s.srcq.length < s.params.srcDepth) :=
  ⟨⟨faultedWith [.writeSource 9], 9, rfl, rfl, rfl, by decide⟩,
    ⟨{ start [5] with inputs := [.writeSource 9] }, 9, rfl, rfl, rfl, by decide⟩,
    ⟨fullWith [.writeRequest 8, .writeSource 9], 8, 9, rfl, rfl, rfl, by decide, by decide⟩⟩

theorem test_witness_BootOrder :
    (∃ (s : State) (w : Word), s.canRun = false ∧ s.takeDescriptor = none ∧ s.seqReady = false ∧
      s.reqq.length < s.params.reqDepth ∧ s.inputs = [.writeRequest w]) ∧
    (∃ s : State, s.canRun = false ∧ s.takeDescriptor = none ∧ s.busy = true ∧ s.inputs = [.bootSequencer]) ∧
    (∃ s : State, s.canRun = false ∧ s.takeDescriptor = none ∧ s.busy = false ∧ s.seqReady = true ∧
      s.inputs = [.bootSequencer]) ∧
    (∃ s : State, s.canRun = false ∧ s.takeDescriptor = none ∧ s.busy = false ∧ s.seqReady = false ∧
      s.inputs = [.bootSequencer]) :=
  ⟨⟨{ start [] with seqReady := false, inputs := [.writeRequest 1] }, 1, rfl, rfl, rfl, by decide, rfl⟩,
    ⟨{ start [] with reqq := [1], inputs := [.bootSequencer] }, rfl, rfl, rfl, rfl⟩,
    ⟨{ start [] with inputs := [.bootSequencer] }, rfl, rfl, rfl, rfl, rfl⟩,
    ⟨{ start [] with seqReady := false, inputs := [.bootSequencer] }, rfl, rfl, rfl, rfl, rfl⟩⟩

theorem test_witness_NoOpExactlyOffSurfaceOrEmpty :
    (∀ r ∈ [(240, 0, 1, 1), (0, 320, 1, 1), (0, 0, 0, 1), (0, 0, 1, 0)],
      240 ≤ r.1 ∨ 320 ≤ r.2.1 ∨ r.2.2.1 = 0 ∨ r.2.2.2 = 0) ∧
    ¬(240 ≤ 239 ∨ 320 ≤ 319 ∨ 1 = 0 ∨ 1 = 0) := by decide

theorem test_witness_WindowLiesOnSurface : ∃ x y w h x' y' w' h' : Nat, clip x y w h = .window x' y' w' h' :=
  ⟨239, 319, 65535, 65535, 239, 319, 1, 1, by decide⟩

theorem test_witness_WindowTransactions : clip 0 255 240 65 = .window 0 255 240 65 ∧ clip 239 319 2 2 = .window 239 319 1 1 ∧
    clip 240 319 1 1 = .noOp := by decide

/-- The results of FILL_RECT, DRAW_PIXEL, FILL_SCREEN and DRAW_CHAR ask for nothing but `State.free`. -/
theorem test_witness_FillRectResult : ∃ s : State, s.free := ⟨start [], rfl, rfl, rfl⟩

theorem test_witness_DrawPixelResult : ∃ s : State, s.free ∧ s.srcq = [7] := ⟨start [7], ⟨rfl, rfl, rfl⟩, rfl⟩

theorem test_witness_FillScreenResult : ∃ s : State, s.free ∧ s.dcLevel = .data :=
  ⟨{ start [] with dcLevel := .data }, ⟨rfl, rfl, rfl⟩, rfl⟩

theorem test_witness_DrawCharResult : ∃ s : State, s.free ∧ s.consumer.mode = .write :=
  ⟨{ start [] with consumer := { consumerReset with mode := .write } }, ⟨rfl, rfl, rfl⟩, rfl⟩

/-- Exactly enough bytes, and a rectangle that draws nothing with bytes to drain. -/
theorem test_witness_DrawImageResult : ∀ r ∈ [(239, 1, 2), (240, 1, 2)], ∃ s : State, s.free ∧
    imageNeed r.1 0 r.2.1 1 ≤ r.2.2 ∧ r.2.2 ≤ s.srcq.length := by
  intro r hr
  refine ⟨start [1, 2], ⟨rfl, rfl, rfl⟩, ?_⟩
  revert r
  decide

theorem test_witness_ShortImageRaisesFault : ∃ x y w h len : Nat,
    x < 240 ∧ y < 320 ∧ len < 2 * min w (240 - x) * min h (320 - y) := ⟨239, 319, 5, 5, 1, by decide⟩

theorem test_witness_DrawStringResult : ∃ (len : Nat) (s : State), s.free ∧ len ≤ s.srcq.length :=
  ⟨3, start [0x48, 0x69, 0x21], ⟨rfl, rfl, rfl⟩, by decide⟩

theorem test_witness_FillCounts : clip 230 310 20 20 = .window 230 310 10 10 ∧ clip 240 0 5 5 = .noOp := by decide

theorem test_witness_ImageBytes :
    (clip 0 0 1 1 = .window 0 0 1 1 ∧ imageNeed 0 0 1 1 ≤ ([1, 2] : List Byte).length) ∧
    (clip 0 320 1 1 = .noOp ∧ imageNeed 0 320 1 1 ≤ ([] : List Byte).length) := by decide

theorem test_witness_GlyphCounts : ∃ x y sc : Nat, 1 ≤ sc ∧ x + 5 * sc ≤ 240 ∧ y + 5 * sc ≤ 320 := ⟨190, 270, 10, by decide⟩

theorem test_witness_CursorBounds : ∃ x y sc : Nat, x < 2 ^ 16 ∧ y < 2 ^ 16 ∧ sc < 2 ^ 8 := ⟨65535, 65535, 255, by decide⟩

theorem test_witness_ZeroByteEndsText : ∃ (before after rest : List Byte) (s : State),
    s.free ∧ s.srcq = before ++ 0 :: after ++ rest := ⟨[0x41], [0x42], [0x43], start [0x41, 0, 0x42, 0x43], ⟨rfl, rfl, rfl⟩, rfl⟩

theorem supplied_image : supplied (.drawImage 239 0 1 1 2) (start [1, 2]) := by
  refine ⟨by decide, ?_⟩
  intro x y w h len e
  cases e
  decide

theorem test_witness_CommandsComeAsTriples : ∃ (i : Instr) (s : State), s.free ∧ supplied i s :=
  ⟨.drawImage 239 0 1 1 2, start [1, 2], ⟨rfl, rfl, rfl⟩, supplied_image⟩

theorem test_witness_EngineWaitsForTransport : ∃ s : State, s.engState = .run ∧ s.xferBusy = true ∧ s.credit = some 0 ∧
    s.inputs = [] := ⟨after (.fillScreen 0) { start [] with credit := some 4 }, by decide +kernel⟩

theorem test_witness_ImageWaitsForSource : ∃ (x y w h len x' y' w' h' : Nat) (s : State), s.free ∧
    clip x y w h = .window x' y' w' h' ∧ imageNeed x y w h ≤ len ∧ s.srcq.length < imageNeed x y w h ∧ s.inputs = [] :=
  ⟨239, 319, 1, 1, 2, 239, 319, 1, 1, start [1], ⟨rfl, rfl, rfl⟩, by decide, by decide, by decide, rfl⟩

theorem test_witness_ImageDrainWaitsForSource : ∃ (x y w h len : Nat) (s : State), s.free ∧
    imageNeed x y w h ≤ s.srcq.length ∧ s.srcq.length < len ∧ s.inputs = [] :=
  ⟨239, 319, 1, 1, 3, start [1, 2], ⟨rfl, rfl, rfl⟩, by decide, by decide, rfl⟩

theorem test_witness_StringWaitsForSource : ∃ (len : Nat) (s : State), s.free ∧ s.srcq.length < len ∧ s.inputs = [] :=
  ⟨1, start [], ⟨rfl, rfl, rfl⟩, by decide, rfl⟩

theorem test_witness_PausesChangeNothing :
    ∀ inp ∈ [Input.writeRequest 9, .writeSource 9, .readStatus 0, .readStatus 1], ∃ (i : Instr) (s t u v : State) (n : Nat),
      exec i { s with credit := none } = .next t ∧ t.engState = .idle ∧ exec i { s with credit := some n } = .next u ∧
        u.engState = .run ∧ inp.land u = .next v := by
  have idle : (after (.drawPixel 0 0 0) (start [])).engState = .idle := by decide +kernel
  have run : (after (.drawPixel 0 0 0) { start [] with credit := some 5 }).engState = .run := by decide +kernel
  intro inp hi
  simp only [List.mem_cons, List.not_mem_nil, or_false] at hi
  rcases hi with rfl | rfl | rfl | rfl <;> exact ⟨.drawPixel 0 0 0, start [], _, _, _, 5, rfl, idle, rfl, run, rfl⟩

/-- The clause of PausesChangeNothing about a request that goes on for `m` more micro-operations. -/
theorem test_witness_PausesChangeNothing_longer : ∃ (i : Instr) (s t u v : State) (n m : Nat),
    exec i { s with credit := none } = .next t ∧ t.engState = .idle ∧ exec i { s with credit := some n } = .next u ∧
      exec i { s with credit := some (n + m) } = .next v ∧ u.engState = .run ∧ v.engState = .run ∧ 0 < m :=
  ⟨.drawPixel 0 0 0, start [], _, _, _, 5, 7, rfl, by decide +kernel, rfl, rfl, by decide +kernel, by decide +kernel, by decide⟩

/-- A request that ends after two refills; one that faults; one that waits after all its bunches. -/
theorem test_witness_LateSourceBytesChangeNothing :
    ∀ r ∈ [(Instr.drawImage 0 0 1 1 3, EngState.idle), (.drawImage 0 0 1 1 1, .faulted), (.drawImage 0 0 1 1 4, .run)],
      ∃ (s t u : State) (early : List Byte) (bunches : List (List Byte)),
        s.credit = none ∧ (∀ b ∈ bunches, b ≠ []) ∧ exec r.1 { s with srcq := early ++ bunches.flatten } = .next t ∧
          t.engState = r.2 ∧ exec r.1 { s with srcq := early } = .next u ∧ bunches.length = 2 := by
  intro r h
  simp only [List.mem_cons, List.not_mem_nil, or_false] at h
  rcases h with rfl | rfl | rfl <;>
    exact ⟨start [], _, _, [1], [[2], [3]], rfl, by decide, rfl, by decide +kernel, rfl, rfl⟩

theorem test_witness_HostWritesFeedWaitingRequest : ∃ (i : Instr) (s t u : State) (early late : List Byte) (rest : List Input),
    s.credit = none ∧ s.params.wf ∧ s.inputs = late.map .writeSource ++ rest ∧
      exec i { s with srcq := early ++ late } = .next t ∧ t.srcq = [] ∧ t.engState = .idle ∧
      exec i { s with srcq := early } = .next u ∧ u.engState = .run ∧ late.length = 2 := by
  refine ⟨.drawImage 0 0 1 1 3, { start [] with inputs := [.writeSource 2, .writeSource 3, .reset] }, _, _, [1], [2, 3], [.reset],
    rfl, by decide, rfl, rfl, ?_, ?_, rfl, ?_, rfl⟩ <;> decide +kernel

theorem test_witness_StepKeepsInvariant : ∃ s t : State, s.Inv ∧ step s = .next t ∧ t.reqIndex = 1 := by
  refine ⟨queued sample, _, ⟨by decide, by decide, by decide, by decide, by decide, by decide, by decide, by decide, ?_, by decide,
    by decide⟩, rfl, by decide +kernel⟩
  intro l h
  cases h

theorem test_witness_NothingOpenOutsideRun : ∃ s : State, s.Inv ∧ s.engState ≠ .run ∧ s.reqq ≠ [] := by
  refine ⟨queued sample, ⟨by decide, by decide, by decide, by decide, by decide, by decide, by decide, by decide, ?_, by decide,
    by decide⟩, by decide, by decide⟩
  intro l h
  cases h

theorem test_witness_ParametersNeverChange : ∃ s t : State, step s = .next t ∧ t.reqIndex = 1 :=
  ⟨queued sample, _, rfl, by decide +kernel⟩

theorem test_witness_TraceOnlyGrows : ∃ s t : State, step s = .next t ∧ t.out.length = 1 :=
  ⟨{ faultedWith [.reset] with selOpen := true }, _, rfl, by decide +kernel⟩

theorem test_witness_SourceConsumption :
    (∃ (i : Instr) (s t : State), sourceBytes i = 0 ∧ exec i s = .next t) ∧
    (∃ (i : Instr) (s : State), s.free ∧ supplied i s ∧ sourceBytes i = 2) ∧
    (∃ (i : Instr) (s t : State), exec i s = .next t ∧ t.engState = .faulted) :=
  ⟨⟨sampleInstr, start [], _, rfl, rfl⟩, ⟨.drawImage 239 0 1 1 2, start [1, 2], ⟨rfl, rfl, rfl⟩, supplied_image, rfl⟩,
    ⟨.drawImage 0 0 1 1 1, start [1], _, rfl, rfl⟩⟩

theorem test_witness_RequestFrame : ∃ (i : Instr) (s t : State), exec i s = .next t ∧ t.engState ≠ .faulted :=
  ⟨sampleInstr, start [], _, rfl, by decide +kernel⟩

theorem test_witness_OnlyShortImagesFault : ∃ (i : Instr) (s t : State), exec i s = .next t ∧ t.engState = .faulted :=
  ⟨.drawImage 0 0 2 2 7, start [], _, rfl, rfl⟩

theorem test_witness_WorkingRegistersCarryNothing : ∃ (i : Instr) (s s' : State), s.free ∧ supplied i s ∧
    SameButWorkingRegisters s s' ∧ s.pcnt ≠ s'.pcnt :=
  ⟨.drawImage 239 0 1 1 2, start [1, 2], { start [1, 2] with pcnt := 9, cx := 300, firstg := true }, ⟨rfl, rfl, rfl⟩,
    supplied_image, rfl, by decide⟩

theorem test_witness_FillRectPaintsScreen : ∃ s : State, s.free ∧ s.params.distinctCommands :=
  ⟨start [], ⟨rfl, rfl, rfl⟩, by decide⟩

theorem test_witness_DrawImagePaintsLinearly :
    (∃ (x y w h len : Nat) (s : State), s.free ∧ s.params.distinctCommands ∧ clip x y w h = .window x y 2 2 ∧
      imageNeed x y w h ≤ len ∧ len ≤ s.srcq.length) ∧
    (∃ (x y w h len : Nat) (s : State), s.free ∧ s.params.distinctCommands ∧ clip x y w h = .noOp ∧
      imageNeed x y w h ≤ len ∧ len ≤ s.srcq.length ∧ 0 < len) :=
  ⟨⟨238, 0, 4, 2, 8, start [1, 2, 3, 4, 5, 6, 7, 8], ⟨rfl, rfl, rfl⟩, by decide, by decide, by decide, by decide⟩,
    ⟨240, 0, 1, 1, 1, start [1], ⟨rfl, rfl, rfl⟩, by decide, by decide, by decide, by decide, by decide⟩⟩

theorem test_witness_DrawCharPaintsWholeBox : ∀ chr ∈ [32, 126], ∃ s : State, s.free ∧ s.params.distinctCommands ∧ 32 ≤ chr ∧
    chr < 127 := by
  intro chr h
  simp only [List.mem_cons, List.not_mem_nil, or_false] at h
  exact ⟨start [], ⟨rfl, rfl, rfl⟩, by decide, by omega, by omega⟩

theorem test_witness_ColourRoundTrip : ∃ (v : Color) (r g b : Byte),
    r.toNat / 8 = v.toNat / 2048 ∧ g.toNat / 4 = v.toNat / 32 % 64 ∧ b.toNat / 8 = v.toNat % 32 :=
  ⟨0xFFFF, 255, 253, 249, by decide⟩

theorem test_witness_AssembledLinesAreWellFormed : ∃ name os out, Assembles name os out :=
  ⟨_, _, _, .drawPixel (x := 65535) (y := 0) (by decide) (by decide) (.rgb (r := 255) (g := 0) (b := 0) (by decide) (by decide)
    (by decide))⟩

end Sys2Proof.Tests
end

section
/-! What a request leaves unchanged however it is interrupted (00_scope.md R11): every micro-operation keeps it, so every run
of a request does. -/

namespace Sys2Proof.Machine

/-- What no request changes unless it faults: what no statement changes (SameOutside) but for ENG_STATE, which the request's
end changes (R18), and the schedule's credit, which every micro-operation spends. -/
structure KeptByRequest (s t : State) : Prop where
  params : t.params = s.params
  fcode : t.fcode = s.fcode
  faultW0 : t.faultW0 = s.faultW0
  reqIndex : t.reqIndex = s.reqIndex
  reqq : t.reqq = s.reqq
  req : t.req = s.req
  inputs : t.inputs = s.inputs
  hostReads : t.hostReads = s.hostReads
  seqReady : t.seqReady = s.seqReady
  freeCount : t.freeCount = s.freeCount

theorem KeptByRequest.refl (s : State) : KeptByRequest s s := ⟨rfl, rfl, rfl, rfl, rfl, rfl, rfl, rfl, rfl, rfl⟩

theorem KeptByRequest.trans {s t u : State} (h : KeptByRequest s t) (h' : KeptByRequest t u) : KeptByRequest s u :=
  ⟨h'.params.trans h.params, h'.fcode.trans h.fcode, h'.faultW0.trans h.faultW0, h'.reqIndex.trans h.reqIndex,
    h'.reqq.trans h.reqq, h'.req.trans h.req, h'.inputs.trans h.inputs, h'.hostReads.trans h.hostReads,
    h'.seqReady.trans h.seqReady, h'.freeCount.trans h.freeCount⟩

theorem SameOutside.keptByRequest {s t : State} (h : SameOutside s t) : KeptByRequest s t :=
  ⟨h.params, h.fcode, h.faultW0, h.reqIndex, h.reqq, h.req, h.inputs, h.hostReads, h.seqReady, h.freeCount⟩

theorem State.withTodo_sameOutside (s : State) (ms : List Micro) : SameOutside s (s.withTodo ms) := by constructor <;> rfl

theorem State.withEngState_keptByRequest (s : State) (e : EngState) : KeptByRequest s (s.withEngState e) := by
  constructor <;> rfl

theorem State.spend_keptByRequest (s : State) : KeptByRequest s s.spend := by constructor <;> rfl

theorem State.microStep_keptByRequest (s : State) : KeptByRequest s s.microStep := by
  rcases s.microStep_cases with ⟨-, e⟩ | ⟨-, -, e⟩ | ⟨-, m, rest, -, e⟩ <;> rw [e]
  · exact s.completeXfer_sameOutside.keptByRequest
  · exact s.withEngState_keptByRequest .idle
  · exact ((s.withTodo_sameOutside rest).trans ((s.withTodo rest).micro_sameOutside m)).keptByRequest

theorem State.runFor_keptByRequest (s : State) (n : Nat) : KeptByRequest s (s.runFor n) :=
  State.runFor_induction (P := KeptByRequest s)
    (fun t _ h => (h.trans t.microStep_keptByRequest).trans t.microStep.spend_keptByRequest) (.refl s) n

theorem State.request_keptByRequest (s : State) (program : List Micro) : KeptByRequest s (s.request program) :=
  ((s.withEngState_keptByRequest .run).trans (State.withTodo_sameOutside _ program).keptByRequest).trans
    (State.runFor_keptByRequest _ _)

/-- Settles O46: a request that faults writes only the fault registers and ENG_STATE and empties its program; any other is a
run, of which every micro-operation keeps the frame. -/
theorem requestFrame : Obligations.RequestFrame := by
  unfold Obligations.RequestFrame
  intro i s t ht
  rcases exec_cases i s with ⟨_, _, _, _, _, -, -, he⟩ | ⟨program, he, -⟩ <;> rw [he] at ht <;> injection ht with ht <;> subst ht
  · exact ⟨rfl, rfl, rfl, rfl, rfl, rfl, rfl, rfl, fun h => absurd (s.raiseFault_engState .imageShort) h⟩
  · have k := s.request_keptByRequest program
    exact ⟨k.params, k.reqq, k.reqIndex, k.req, k.inputs, k.hostReads, k.seqReady, k.freeCount, fun _ => ⟨k.fcode, k.faultW0⟩⟩

end Sys2Proof.Machine
end

section
/-! The invariant of the machine: it holds after reset, every micro-operation of a request and every input keeps it, and so does
every step (10_state.md sections 2 to 4; 20_memory.md R47). -/

namespace Sys2Proof.Machine

/-! ### What the invariant says of the brackets -/

/-- A trace that what is left of the program closes has not broken the discipline. -/
theorem State.Inv.bracket_ne_broken {s : State} (h : s.Inv) : bracketOf s.trace ≠ .broken := by
  intro hb
  have hc := h.brackets
  rw [hb] at hc
  exact absurd ((bracketAfter_broken s.todo).symm.trans hc) (by decide)

/-- Outside RUN the trace ends outside a bracket (R29). -/
theorem State.Inv.bracket_closed {s : State} (h : s.Inv) (hr : s.engState ≠ .run) : bracketOf s.trace = .closed := by
  have hc := h.brackets
  rwa [(h.quiet hr).1] at hc

/-- The events that keep the discipline, and where each leads (R47, R159). -/
theorem Bracket.after_cases {b : Bracket} {e : Event} (h : b.after e ≠ .broken) :
    (b = .closed ∧ e = .sel) ∨ (∃ l, b = .selected ∧ e = .dc l) ∨ (b = .selected ∧ e = .desel) ∨
      (∃ l v, b = .framed l ∧ e = .xfer v) ∨ ∃ l, b = .framed l ∧ e = .desel := by
  cases b <;> cases e <;> simp [Bracket.after] at h ⊢

/-- SEL_OPEN follows the bracket position through an event that keeps the discipline (R29). -/
theorem Bracket.isOpen_after {b : Bracket} {e : Event} (h : b.after e ≠ .broken) :
    (b.after e).isOpen = selAfter b.isOpen e := by
  rcases Bracket.after_cases h with ⟨rfl, rfl⟩ | ⟨l, rfl, rfl⟩ | ⟨rfl, rfl⟩ | ⟨l, v, rfl, rfl⟩ | ⟨l, rfl, rfl⟩ <;> rfl

/-- DC_LEVEL is the level of the bracket after an event, when it was that of the bracket before (R29). -/
theorem Bracket.framed_after {b : Bracket} {e : Event} {l d : Level} (hd : ∀ l, b = .framed l → d = l)
    (h : b.after e = .framed l) : levelAfter d e = l := by
  have sound : b.after e ≠ .broken := by rw [h]; nofun
  rcases Bracket.after_cases sound with
    ⟨rfl, rfl⟩ | ⟨_, rfl, rfl⟩ | ⟨rfl, rfl⟩ | ⟨_, _, rfl, rfl⟩ | ⟨_, rfl, rfl⟩ <;> cases h
  · rfl
  · exact hd l rfl

/-- `DESEL` closes an open bracket, framed or not. -/
theorem Bracket.after_desel {b : Bracket} (h : b.isOpen = true) : b.after .desel = .closed := by
  cases b <;> cases h <;> rfl

/-- A trace outside a bracket that has not broken the discipline is closed. -/
theorem Bracket.eq_closed {b : Bracket} (h : b ≠ .broken) (ho : b.isOpen = false) : b = .closed := by
  cases b <;> simp [Bracket.isOpen] at h ho ⊢

/-! ### Micro-operations -/

theorem State.Inv.spend {s : State} (h : s.Inv) : s.spend.Inv := { h with }

theorem State.Inv.completeXfer {s : State} (h : s.Inv) : s.completeXfer.Inv :=
  { h with quiet := fun hr => ⟨(h.quiet hr).1, rfl⟩, exchange := fun hx => by cases hx }

/-- The request in progress ends (R18). -/
theorem State.Inv.ended {s : State} (h : s.Inv) (hr : s.engState = .run) (ht : s.todo = []) (hx : s.xferBusy = false) :
    (s.withEngState .idle).Inv :=
  have hf : s.engState ≠ .faulted := by rw [hr]; decide
  { h with
    quiet := fun _ => ⟨ht, hx⟩
    code := ⟨fun _ => nofun, fun _ => h.code.mpr hf⟩
    w0 := fun _ => h.w0 hf }

/-- The next statement is an event: it is emitted. -/
theorem State.Inv.emitted {s : State} {e : Event} {rest : List Micro} (h : s.Inv) (hr : s.engState = .run)
    (hx : s.xferBusy = false) (ht : s.todo = .emit e :: rest) : ((s.withTodo rest).emit e).Inv := by
  have tr : bracketOf ((s.withTodo rest).emit e).trace = (bracketOf s.trace).after e := by
    rw [State.emit_trace, bracketOf_append, State.withTodo_trace]
  have left : bracketAfter rest ((bracketOf s.trace).after e) = .closed := by
    have hc := h.brackets
    rwa [ht, List.foldl_cons] at hc
  have sound : (bracketOf s.trace).after e ≠ .broken := by
    intro hb
    rw [hb, bracketAfter_broken] at left
    cases left
  exact
    { params := by simpa using h.params
      reqq := by simpa using h.reqq
      srcq := by simpa using h.srcq
      quiet := by simp [hr]
      code := by simpa using h.code
      w0 := by simpa using h.w0
      brackets := by rw [tr, State.emit_todo]; exact left
      selOpen := by rw [tr, Bracket.isOpen_after sound, ← h.selOpen, State.emit_selOpen, State.withTodo_selOpen]
      level := fun l hl => by
        rw [State.emit_dcLevel]
        exact Bracket.framed_after h.level (tr.symm.trans hl)
      exchange := by
        rw [State.emit_xferBusy, State.emit_trace, State.withTodo_xferBusy, hx]
        cases e <;> simp [busyAfter]
      gram := by
        rw [State.emit_consumer]
        exact observe_wf e h.gram }

/-- The next statement is not an event: the output stays as it is, and what is left still closes the brackets. -/
theorem State.Inv.executed {s : State} {m : Micro} {rest : List Micro} (h : s.Inv) (hr : s.engState = .run)
    (hx : s.xferBusy = false) (ht : s.todo = m :: rest) (hm : ∀ e, m ≠ .emit e) : ((s.withTodo rest).micro m).Inv := by
  obtain ⟨out, selOpen, dcLevel, consumer, xferBusy, srcq⟩ := (s.withTodo rest).micro_quiet hm
  have o := (s.withTodo_sameOutside rest).trans ((s.withTodo rest).micro_sameOutside m)
  have trace : ((s.withTodo rest).micro m).trace = s.trace := congrArg List.reverse out
  have left : bracketAfter rest ((bracketOf s.trace).afterMicro m) = .closed := by
    have hc := h.brackets
    rwa [ht, List.foldl_cons] at hc
  exact
    { params := by rw [o.params]; exact h.params
      reqq := by rw [o.reqq, o.params]; exact h.reqq
      srcq := by rw [o.params]; exact srcq.length_le.trans h.srcq
      quiet := fun hn => absurd (o.engState.trans hr) hn
      code := by rw [o.fcode, o.engState]; exact h.code
      w0 := by rw [o.faultW0, o.engState]; exact h.w0
      brackets := by rw [trace]; exact State.micro_brackets (s.withTodo rest) hm left
      selOpen := by rw [selOpen, trace]; exact h.selOpen
      level := by rw [dcLevel, trace]; exact h.level
      exchange := fun hb => by rw [xferBusy, State.withTodo_xferBusy, hx] at hb; cases hb
      gram := by rw [consumer]; exact h.gram }

/-- Every micro-operation of a request in progress keeps the invariant. -/
theorem State.Inv.microStep {s : State} (h : s.Inv) (hr : s.engState = .run) : s.microStep.Inv := by
  rcases s.microStep_cases with ⟨-, e⟩ | ⟨hx, ht, e⟩ | ⟨hx, m, rest, ht, e⟩ <;> rw [e]
  · exact h.completeXfer
  · exact h.ended hr ht hx
  · by_cases hm : ∃ ev, m = .emit ev
    · obtain ⟨ev, rfl⟩ := hm
      exact h.emitted hr hx ht
    · exact h.executed hr hx ht (not_exists.mp hm)

/-- A request in progress that can run is in RUN. -/
theorem State.engState_of_canRun {s : State} (h : s.canRun = true) : s.engState = .run := by
  simp only [State.canRun, Bool.and_eq_true, beq_iff_eq] at h
  exact h.1.1

theorem State.Inv.runFor {s : State} (h : s.Inv) (n : Nat) : (s.runFor n).Inv :=
  State.runFor_induction (fun _ hc h => (h.microStep (State.engState_of_canRun hc)).spend) h n

/-! ### Taking a descriptor -/

/-- A request that begins outside a bracket keeps the invariant. -/
theorem State.Inv.request {s : State} {program : List Micro} (h : s.Inv) (hf : s.engState ≠ .faulted)
    (hb : bracketOf s.trace = .closed) (hp : bracketAfter program .closed = .closed) : (s.request program).Inv := by
  refine State.Inv.runFor (s := (s.withEngState .run).withTodo program) ?_ _
  exact
    { h with
      quiet := fun hn => absurd rfl hn
      code := ⟨fun _ => nofun, fun _ => h.code.mpr hf⟩
      w0 := fun _ => h.w0 hf
      brackets := by rw [State.withTodo_trace, State.withEngState_trace, hb]; exact hp }

/-- A fault raised between requests keeps the invariant (R144). -/
theorem State.Inv.raiseFault {s : State} {code : FaultCode} (h : s.Inv) (hc : code ≠ .none) (hx : s.xferBusy = false)
    (hb : bracketOf s.trace = .closed) : (s.raiseFault code).Inv :=
  { h with
    quiet := fun _ => ⟨rfl, hx⟩
    code := ⟨fun e => absurd e hc, fun hn => absurd rfl hn⟩
    w0 := fun hn => absurd rfl hn
    brackets := hb }

/-- Taking a descriptor keeps the invariant, and the request begins outside a bracket with no exchange in progress (R25). -/
theorem State.Inv.takeDescriptor {s t : State} (h : s.Inv) (ht : s.takeDescriptor = some t) :
    t.Inv ∧ t.engState = .run ∧ t.xferBusy = false ∧ bracketOf t.trace = .closed := by
  obtain ⟨d, rest, he, -, hq, rfl⟩ := State.takeDescriptor_eq_some ht
  have hr : s.engState ≠ .run := by rw [he]; decide
  have hf : s.engState ≠ .faulted := by rw [he]; decide
  have hl : rest.length ≤ s.params.reqDepth := by
    have := h.reqq
    rw [hq, List.length_append] at this
    omega
  refine ⟨?_, rfl, (h.quiet hr).2, h.bracket_closed hr⟩
  exact
    { h with
      reqq := hl
      quiet := fun hn => absurd rfl hn
      code := ⟨fun _ => nofun, fun _ => h.code.mpr hf⟩
      w0 := fun _ => h.w0 hf }

theorem decodeFaultCode_ne_none (e : DecodeFault) : decodeFaultCode e ≠ .none := by cases e <;> decide

/-! ### Inputs -/

/-- The trace after a reset (R159): an open bracket is closed. -/
theorem State.resetBlock_trace (s : State) :
    s.resetBlock.trace = if s.selOpen then s.trace ++ [.desel] else s.trace := by
  unfold State.resetBlock State.freeRegisters
  cases s.selOpen <;> simp [State.trace]

/-- The parameters survive a reset (R160). -/
theorem State.resetBlock_params (s : State) : s.resetBlock.params = s.params := by
  unfold State.resetBlock State.freeRegisters
  cases s.selOpen <;> rfl

/-- A reset leaves the trace outside a bracket (R159). -/
theorem State.Inv.resetBlock_closed {s : State} (h : s.Inv) : bracketOf s.resetBlock.trace = .closed := by
  rw [State.resetBlock_trace]
  split
  · next ho => rw [bracketOf_append, Bracket.after_desel (h.selOpen.symm.trans ho)]
  · next ho => exact Bracket.eq_closed h.bracket_ne_broken (h.selOpen.symm.trans (by simpa using ho))

theorem State.Inv.resetBlock {s : State} (h : s.Inv) : s.resetBlock.Inv :=
  { params := by rw [s.resetBlock_params]; exact h.params
    reqq := Nat.zero_le _
    srcq := Nat.zero_le _
    quiet := fun _ => ⟨rfl, rfl⟩
    code := ⟨fun _ => nofun, fun _ => rfl⟩
    w0 := fun _ => rfl
    brackets := h.resetBlock_closed
    selOpen := by rw [h.resetBlock_closed]; rfl
    level := fun l hl => by rw [h.resetBlock_closed] at hl; cases hl
    exchange := fun hx => by cases hx
    gram := State.wf_resetBlock h.gram }

/-- Every input that does not wait keeps the invariant: a write lands only where there is room (R24, R26). -/
theorem Input.land_inv {s t : State} {i : Input} (h : s.Inv) (hw : i.waits s = false) (ht : i.land s = .next t) : t.Inv := by
  cases i with
  | writeRequest w =>
    simp only [Input.waits, decide_eq_false_iff_not, not_le] at hw
    rw [Input.land] at ht
    split at ht
    · cases ht; exact { h with reqq := by simpa using hw }
    · cases ht
  | writeSource b =>
    simp only [Input.waits, decide_eq_false_iff_not, not_le] at hw
    cases ht; exact { h with srcq := by simpa using hw }
  | readStatus index => cases ht; exact { h with }
  | reset => cases ht; exact h.resetBlock
  | bootSequencer =>
    rw [Input.land] at ht
    split_ifs at ht
    cases ht; exact { h with }
  | resume n => cases ht; exact { h with }

/-! ### Steps -/

/-- Settles O40: nothing is queued, emitted, in progress or faulted after reset. -/
theorem invariantHoldsAtReset : Obligations.InvariantHoldsAtReset := by
  unfold Obligations.InvariantHoldsAtReset
  exact
    { params := ⟨Nat.le_add_left _ _, Nat.le_add_left _ _⟩
      reqq := Nat.zero_le _
      srcq := Nat.zero_le _
      quiet := fun _ => ⟨rfl, rfl⟩
      code := ⟨fun _ => nofun, fun _ => rfl⟩
      w0 := fun _ => rfl
      brackets := rfl
      selOpen := rfl
      level := fun l hl => by cases hl
      exchange := fun hx => by cases hx
      gram := State.wf_reset }

/-- Settles O41, by the cases of a step: a request that goes on, a descriptor taken, an input that lands. -/
theorem stepKeepsInvariant : Obligations.StepKeepsInvariant := by
  unfold Obligations.StepKeepsInvariant
  intro s t h ht
  rcases step_cases ht with ⟨-, rfl⟩ | ⟨-, u, hu, hd⟩ | ⟨-, -, ⟨-, rfl⟩ | ⟨i, rest, hi, hl⟩⟩
  · exact h.runFor _
  · obtain ⟨hu, hr, hx, hb⟩ := h.takeDescriptor hu
    rcases hd with ⟨i, -, he⟩ | ⟨e, -, rfl⟩
    · rcases exec_cases i u with ⟨_, _, _, _, _, -, -, hf⟩ | ⟨program, hp, hc⟩
      · cases hf.symm.trans he
        exact hu.raiseFault (by decide) hx hb
      · cases hp.symm.trans he
        exact hu.request (by rw [hr]; decide) hb hc
    · exact hu.raiseFault (decodeFaultCode_ne_none e) hx hb
  · exact h
  · obtain ⟨hw, -⟩ := nextInput_eq_some hi
    have h' : { s with inputs := rest }.Inv := { h with }
    have hw' : i.waits { s with inputs := rest } = false := by cases i <;> exact hw
    exact Input.land_inv h' hw' hl

end Sys2Proof.Machine
end

section
/-! The ports and the taking of a descriptor as single steps (10_state.md sections 2, 3 and 7): which of its three moves a step
makes, and what the move changes. -/

namespace Sys2Proof.Machine

/-! ### The status port -/

/-- The fields of STATUS (R19). -/
theorem State.status_fields (s : State) :
    s.status.getLsbD 0 = s.busy ∧ s.status.getLsbD 1 = s.faultFlag ∧ s.status.extractLsb' 2 2 = 0 ∧
      s.status.extractLsb' 4 4 = s.fcodeField ∧ s.status.extractLsb' 8 24 = 0 := by
  unfold State.status
  generalize s.fcodeField = code
  generalize s.faultFlag = fault
  generalize s.busy = busy
  revert code fault busy
  decide

/-- BUSY (R20). -/
theorem State.busy_iff (s : State) : s.busy = true ↔ s.engState = .run ∨ s.reqq ≠ [] := by simp [State.busy]

/-- FAULT (R21). -/
theorem State.faultFlag_iff (s : State) : s.faultFlag = true ↔ s.engState = .faulted := by simp [State.faultFlag]

/-- Settles O12: STATUS is a concatenation of its fields, and FCODE's field is shown in FAULTED only. -/
theorem statusFields : Obligations.StatusFields := by
  unfold Obligations.StatusFields
  intro s
  obtain ⟨busy, fault, low, code, high⟩ := s.status_fields
  refine ⟨by rw [busy, s.busy_iff], by rw [fault, s.faultFlag_iff], low, ?_, high, rfl, rfl⟩
  rw [code, State.fcodeField]
  simp only [s.faultFlag_iff]
  cases s.fcode <;> rfl

/-- Settles O42: what is left of the program is empty outside RUN, so the trace itself ends outside a bracket. -/
theorem nothingOpenOutsideRun : Obligations.NothingOpenOutsideRun := by
  unfold Obligations.NothingOpenOutsideRun
  intro s h hr
  obtain ⟨ht, hx⟩ := h.quiet hr
  have hb := h.bracket_closed hr
  refine ⟨by rw [h.selOpen, hb]; rfl, hb, ht, hx, ?_⟩
  rw [s.status_fields.1, s.busy_iff, or_iff_right hr]

/-- Settles O10: each value is the reset state's own. -/
theorem resetValues : Obligations.ResetValues := by
  unfold Obligations.ResetValues
  exact ⟨rfl, by decide, rfl, rfl, rfl, rfl, rfl, rfl⟩

/-! ### The taking of a descriptor -/

theorem State.canRun_of_not_run {s : State} (h : s.engState ≠ .run) : s.canRun = false := by simp [State.canRun, h]

/-- An idle engine that is not held takes the five words at the head of the request queue (R25). -/
theorem State.takeDescriptor_of_words {s : State} {d : Desc} {rest : List Word} (hi : s.engState = .idle)
    (hc : s.credit ≠ some 0) (hq : s.reqq = d.words ++ rest) :
    s.takeDescriptor = some { s.spend with req := d, reqq := rest, reqIndex := s.reqIndex + 1, engState := .run } := by
  have hh : s.held = false := by simpa [State.held] using hc
  simp [State.takeDescriptor, hi, hq, Desc.words, hh]

/-- Fewer than five words are no descriptor yet (R25). -/
theorem State.takeDescriptor_of_short {s : State} (hq : s.reqq.length < 5) : s.takeDescriptor = none := by
  by_contra h
  obtain ⟨t, ht⟩ := Option.ne_none_iff_exists'.mp h
  obtain ⟨d, rest, -, -, he, -⟩ := State.takeDescriptor_eq_some ht
  rw [he, List.length_append] at hq
  exact absurd hq (by simp [Desc.words])

/-- Settles O4: an idle engine goes on with nothing, takes the descriptor and decodes it. -/
theorem stepExecutesDecodedRequest : Obligations.StepExecutesDecodedRequest := by
  unfold Obligations.StepExecutesDecodedRequest
  intro s d rest i hi hc hq hd
  have hr : s.canRun = false := State.canRun_of_not_run (by rw [hi]; decide)
  rw [step, if_neg (by rw [hr]; decide), State.takeDescriptor_of_words hi hc hq]
  simp only [runDescriptor, hd]
  rfl

/-! ### The inputs -/

/-- When neither the request in progress nor a descriptor moves, the step is the next input's. -/
theorem step_landInput {s : State} (hc : s.canRun = false) (ht : s.takeDescriptor = none) : step s = s.landInput := by
  rw [step, if_neg (by rw [hc]; decide), ht]

theorem nextInput_cons {s : State} {i : Input} (is : List Input) (h : i.waits s = false) :
    nextInput s (i :: is) = some (i, is) := by simp [nextInput, h]

/-- A write that waits is passed over. -/
theorem nextInput_cons_of_waits {s : State} {i : Input} (is : List Input) (h : i.waits s = true) :
    nextInput s (i :: is) = (nextInput s is).map fun j => (j.1, i :: j.2) := by
  rw [nextInput, if_pos h]
  cases nextInput s is <;> rfl

/-- The next input lands. -/
theorem State.landInput_of_some {s : State} {i : Input} {rest : List Input} (h : nextInput s s.inputs = some (i, rest)) :
    s.landInput = i.land { s with inputs := rest } := by simp [State.landInput, h]

/-- No input can land: the state stays as it is. -/
theorem State.landInput_of_none {s : State} (h : nextInput s s.inputs = none) : s.landInput = .next s := by
  simp [State.landInput, h]

/-- Settles O5: an idle engine goes on with nothing and has no descriptor to take, so the step is the next input's. -/
theorem incompleteDescriptorWaits : Obligations.IncompleteDescriptorWaits := by
  unfold Obligations.IncompleteDescriptorWaits
  intro s hi hq
  have lands : step s = s.landInput :=
    step_landInput (State.canRun_of_not_run (by rw [hi]; decide)) (State.takeDescriptor_of_short hq)
  exact ⟨lands, fun hn => lands.trans (State.landInput_of_none (by rw [hn]; rfl))⟩

/-- Settles O13: a read of the status port never waits. -/
theorem statusReadHasNoSideEffect : Obligations.StatusReadHasNoSideEffect := by
  unfold Obligations.StatusReadHasNoSideEffect
  intro s index rest hc ht hi
  rw [step_landInput hc ht, State.landInput_of_some (hi ▸ nextInput_cons rest rfl)]
  rfl

theorem Input.writeRequest_waits {s : State} (w : Word) (full : s.params.reqDepth ≤ s.reqq.length) :
    (Input.writeRequest w).waits s = true := by simpa [Input.waits] using full

theorem Input.writeRequest_lands {s : State} (w : Word) (room : s.reqq.length < s.params.reqDepth) :
    (Input.writeRequest w).waits s = false := by simpa [Input.waits] using room

theorem Input.writeSource_waits {s : State} (b : Byte) (full : s.params.srcDepth ≤ s.srcq.length) :
    (Input.writeSource b).waits s = true := by simpa [Input.waits] using full

theorem Input.writeSource_lands {s : State} (b : Byte) (room : s.srcq.length < s.params.srcDepth) :
    (Input.writeSource b).waits s = false := by simpa [Input.waits] using room

/-- Settles O14: the write lands when REQQ has room, and is passed over, with nothing behind it, when REQQ is full. -/
theorem requestWriteAppendsOrWaits : Obligations.RequestWriteAppendsOrWaits := by
  unfold Obligations.RequestWriteAppendsOrWaits
  intro s w rest hc ht hs hi
  rw [step_landInput hc ht]
  refine ⟨fun room => ?_, fun full hn => ?_⟩
  · rw [State.landInput_of_some (hi ▸ nextInput_cons rest (Input.writeRequest_lands w room)), Input.land, if_pos hs]
  · refine State.landInput_of_none ?_
    rw [hi, hn, nextInput_cons_of_waits _ (Input.writeRequest_waits w full)]
    rfl

/-- Settles O15: the source write lands when SRCQ has room, first in the list or behind a request write that waits. -/
theorem sourceWriteAppendsOrWaits : Obligations.SourceWriteAppendsOrWaits := by
  unfold Obligations.SourceWriteAppendsOrWaits
  intro s b rest hc ht
  have lands : s.srcq.length < s.params.srcDepth → nextInput s (.writeSource b :: rest) = some (.writeSource b, rest) :=
    fun room => nextInput_cons rest (Input.writeSource_lands b room)
  rw [step_landInput hc ht]
  refine ⟨fun hi room => ?_, fun hi full => ?_, fun w hi full room => ?_⟩
  · rw [State.landInput_of_some (hi ▸ lands room)]
    rfl
  · refine State.landInput_of_none ?_
    rw [hi, nextInput_cons_of_waits _ (Input.writeSource_waits b full)]
    rfl
  · have passes : nextInput s s.inputs = some (.writeSource b, .writeRequest w :: rest) := by
      rw [hi, nextInput_cons_of_waits _ (Input.writeRequest_waits w full), lands room]
      rfl
    rw [State.landInput_of_some passes]
    rfl

end Sys2Proof.Machine
end

section
/-! Requests that are held, or whose source bytes come late (10_state.md R18, R26, R49; 70_reset_and_hazards.md R167): the run of a
request comes to the same state, whatever holds it on its way and whatever is queued behind it meanwhile. -/

namespace Sys2Proof.Machine

/-! ### Where a run comes to rest -/

/-- A run of `s` comes to `t`, where nothing can run. -/
structure State.RestsIn (s t : State) : Prop where
  reaches : ∃ k, s.runFor k = t
  stopped : t.canRun = false

section
variable {s t : State}

theorem State.RestsIn.eq_of_stopped (h : s.RestsIn t) (hs : s.canRun = false) : s = t := by
  obtain ⟨k, hk⟩ := h.reaches
  rwa [State.runFor_stop s hs] at hk

theorem State.RestsIn.runFor (h : s.RestsIn t) (n : Nat) : (s.runFor n).RestsIn t :=
  let ⟨_, hk⟩ := h.reaches
  ⟨State.runFor_meets hk h.stopped, h.stopped⟩

theorem State.RestsIn.goOn_eq (h : s.RestsIn t) (B : s.Bounded) (hc : s.credit = none) : s.goOn = t :=
  let ⟨_, hk⟩ := h.reaches
  State.goOn_meets B hc hk h.stopped

theorem State.goOn_restsIn (B : s.Bounded) (hc : s.credit = none) : s.RestsIn s.goOn :=
  ⟨⟨_, rfl⟩, State.goOn_ends B hc⟩

/-- A request that comes to an end has not stopped before it. -/
theorem State.RestsIn.canRun (h : s.RestsIn t) (hs : s.engState = .run) (ht : t.engState ≠ .run) : s.canRun = true := by
  by_contra hc
  exact ht (h.eq_of_stopped (by simpa using hc) ▸ hs)

theorem State.RestsIn.endsIn (h : s.RestsIn t) (B : s.Bounded) (hc : s.credit = none) (ht : t.engState ≠ .run) :
    s.endsIn t :=
  ⟨fun hs => by rw [step_goOn (h.canRun hs ht), h.goOn_eq B hc],
    fun hs => h.eq_of_stopped (State.canRun_of_not_run hs)⟩

variable {is : List Input → List Input} {ws : List Word} {bs : List Byte} {rs : List Word}

/-- A run does the same with more queued behind, and rests there too unless what is queued wakes it. -/
theorem State.RestsIn.later (h : s.RestsIn t) (ht : (t.later unheld is ws bs rs).canRun = false) :
    (s.later unheld is ws bs rs).RestsIn (t.later unheld is ws bs rs) := by
  obtain ⟨k, hk⟩ := h.reaches
  refine ⟨?_, ht⟩
  rw [← hk]
  exact State.later_runFor is ws bs rs k s

/-- What a run of `s` with more queued behind comes to, it comes to as well when the rest is queued only after some of the
run. -/
theorem State.RestsIn.runFor_later (h : (s.later unheld is ws bs rs).RestsIn t) (n : Nat) :
    ((s.runFor n).later unheld is ws bs rs).RestsIn t := by
  obtain ⟨k, hk⟩ := State.later_runFor is ws bs rs n s
  rw [← hk]
  exact h.runFor k

theorem State.Bounded.later {c : Option Nat → Option Nat} (B : s.Bounded) : (s.later c is ws bs rs).Bounded :=
  ⟨B.cost, B.last⟩

/-- A request in progress that nothing holds runs with source bytes queued (R41). -/
theorem State.canRun_later (hr : s.engState = .run) (hb : bs ≠ []) : (s.later unheld is ws bs rs).canRun = true := by
  simp [State.canRun, State.held, State.waitsForSource, State.later, hr, hb]

/-- A request in progress that nothing holds stops only where no source byte is queued (R41). -/
theorem State.srcq_of_stopped (hr : s.engState = .run) (hc : s.credit = none) (hs : s.canRun = false) : s.srcq = [] := by
  have hw : s.waitsForSource = true := by simpa [State.canRun, State.held, hr, hc] using hs
  simp only [State.waitsForSource, Bool.and_eq_true, List.isEmpty_iff] at hw
  exact hw.1.1

/-- Nothing but the schedule changed. -/
theorem State.later_credit (c : Option Nat → Option Nat) (s : State) :
    s.later c id [] [] [] = { s with credit := c s.credit } := by
  simp [State.later]

end

/-! ### Requests as runs -/

/-- The state in which a request's program begins (R11). -/
def State.started (program : List Micro) (s : State) : State := (s.withEngState .run).withTodo program

theorem State.request_eq (program : List Micro) (s : State) : s.request program = (s.started program).goOn := rfl

theorem State.later_started {c : Option Nat → Option Nat} {is : List Input → List Input} {ws : List Word} {bs : List Byte}
    {rs : List Word} (program : List Micro) (s : State) :
    (s.started program).later c is ws bs rs = (s.later c is ws bs rs).started program := rfl

/-! ### Holds -/

section
variable {t u : State}

/-- A request that would end unheld ends, and the words, bytes and read values queued during the hold stay queued. -/
theorem State.RestsIn.endsIn_later {ws : List Word} {bs : List Byte} {rs : List Word}
    (h : { u with credit := none }.RestsIn t) (B : u.Bounded) (ht : t.engState ≠ .run) :
    (u.later unheld id ws bs rs).endsIn (t.later unheld id ws bs rs) :=
  have hl : (u.later unheld id ws bs rs).RestsIn (t.later unheld id ws bs rs) :=
    h.later (State.canRun_of_not_run ht)
  hl.endsIn B.later rfl ht

/-- A request in progress that would end unheld goes on whenever the schedule lets it. -/
theorem State.RestsIn.canRun_of_credit (h : { u with credit := none }.RestsIn t) (ht : t.engState ≠ .run)
    (hr : u.engState = .run) {c : Option Nat} (hc : c ≠ some 0) : { u with credit := c }.canRun = true := by
  have unheldRuns := h.canRun hr ht
  have held : (c == some 0) = false := by simpa using hc
  simpa [State.canRun, State.held, State.waitsForSource, hr, held] using unheldRuns

/-- So when it has stopped, it is held. -/
theorem State.RestsIn.held (h : { u with credit := none }.RestsIn t) (ht : t.engState ≠ .run) (hr : u.engState = .run)
    (hs : u.canRun = false) : u.credit = some 0 := by
  by_contra hc
  have runs := h.canRun_of_credit ht hr hc
  exact absurd (runs.symm.trans hs) (by decide)

end

/-- A run on a credit of `n` and then of `m` is a run on a credit of `n + m`. -/
theorem State.goOn_credit_add (m : Nat) {n : Nat} {s u : State} (hc : s.credit = some n) (hu : s.goOn = u)
    (h0 : u.credit = some 0) : { s with credit := some (n + m) }.goOn = { u with credit := some m }.goOn := by
  have hs : s.runFor n = u := by rwa [State.goOn, State.patience, hc] at hu
  have both := State.runFor_credit m hc le_rfl
  rw [State.later_credit, State.later_credit, hc, hs, h0, Option.map_some, Option.map_some, Nat.zero_add] at both
  rw [State.goOn, State.goOn, State.patience, State.patience, State.runFor_add, both]

/-- Settles O38: the held run is a run of the same request, so it rests where that one does; the last clause adds the two
credits of one run. -/
theorem pausesChangeNothing : Obligations.PausesChangeNothing := by
  unfold Obligations.PausesChangeNothing
  intro i s t u n ht hidle hu
  have hend : t.engState ≠ .run := by rw [hidle]; decide
  rcases exec_program i with hf | ⟨program, hp, hB⟩
  · rw [hf] at ht
    cases ht
    cases hidle
  simp only [hp, State.request_eq, Host.Outcome.next.injEq] at ht hu ⊢
  have htc : t.credit = none := ht ▸ State.runFor_unheld rfl _
  have B : u.Bounded := hu ▸ (hB _).runFor _
  have rests : { u with credit := none }.RestsIn t := by
    rw [← State.later_credit unheld u, ← hu, State.goOn]
    refine State.RestsIn.runFor_later ?_ _
    rw [State.later_started, State.later_credit]
    exact ht ▸ State.goOn_restsIn (hB _) rfl
  have ends := fun ws bs rs => rests.endsIn_later (ws := ws) (bs := bs) (rs := rs) B hend
  refine ⟨?_, fun w v hv => ?_, fun b v hv => ?_, fun index v hv => ?_, fun m v hv hr hm => ?_⟩
  · exact rests.endsIn ⟨B.cost, B.last⟩ rfl hend
  · rw [Input.land] at hv
    split at hv
    · cases hv
      simpa [State.later, htc] using ends [w] [] []
    · cases hv
  · cases hv
    simpa [State.later, htc] using ends [] [b] []
  · cases hv
    simpa [State.later, htc, State.statusPort] using ends [] [] [u.statusPort index]
  · have stopped : u.canRun = false := hu ▸ State.runFor_spent rfl
    have h0 := rests.held hend hr stopped
    rw [step_goOn (rests.canRun_of_credit hend hr (by simpa using hm.ne')), ← hv]
    exact congrArg _ (State.goOn_credit_add m rfl hu h0).symm

/-! ### Late source bytes -/

/-- The schedule's inputs make no difference to an engine that nothing holds. -/
theorem State.canRun_later_inputs {s : State} (hc : s.credit = none) (is : List Input → List Input) :
    (s.later unheld is [] [] []).canRun = s.canRun := by
  simp [State.canRun, State.held, State.waitsForSource, State.later, hc]

/-- A request has been run, by nothing held, until it has ended or waits. -/
structure State.Stopped (s : State) : Prop where
  bounded : s.Bounded
  credit : s.credit = none
  canRun : s.canRun = false

theorem State.Bounded.goOn_stopped {s : State} (B : s.Bounded) (hc : s.credit = none) : s.goOn.Stopped :=
  ⟨B.runFor _, State.runFor_unheld hc _, State.goOn_ends B hc⟩

/-- A request that nothing holds stops at its end, at its fault or where it waits. -/
theorem exec_stopped {i : Instr} {s t : State} (hc : s.credit = none) (ht : exec i s = .next t) : t.Stopped := by
  rcases exec_program i with hf | ⟨program, hp, hB⟩
  · cases (hf s).symm.trans ht
    exact ⟨⟨by simp [cost], trivial⟩, hc, State.canRun_of_not_run (by simp)⟩
  · cases (hp s).symm.trans ht
    exact (hB s).goOn_stopped hc

/-- A request that begins with some of its source bytes queued comes, with the others queued where it has stopped, to where
it comes with all of them queued at the start (R167), whatever HOST does later. -/
theorem exec_late {i : Instr} {s t u : State} {early late : List Byte} (hc : s.credit = none)
    (ht : exec i { s with srcq := early ++ late } = .next t) (hu : exec i { s with srcq := early } = .next u)
    (is : List Input → List Input) : (u.later unheld is [] late []).RestsIn (t.later unheld is [] [] []) := by
  have T : t.Stopped := exec_stopped (s := { s with srcq := early ++ late }) hc ht
  have stopped : (t.later unheld is [] [] []).canRun = false := (State.canRun_later_inputs T.credit is).trans T.canRun
  rcases exec_program i with hf | ⟨program, hp, hB⟩
  · rw [hf] at ht hu
    cases ht
    cases hu
    refine ⟨⟨0, ?_⟩, stopped⟩
    simp [State.runFor, State.later, State.raiseFault]
  · simp only [hp, State.request_eq, Host.Outcome.next.injEq] at ht hu
    rw [← hu]
    refine State.RestsIn.runFor_later ?_ _
    have all : (State.started program { s with srcq := early ++ late }).RestsIn t := ht ▸ State.goOn_restsIn (hB _) hc
    have same : State.later unheld is [] late [] { s with srcq := early } =
        State.later unheld is [] [] [] { s with srcq := early ++ late } := by simp [State.later]
    rw [State.later_started, same]
    exact all.later stopped

/-- A request that waits comes with each bunch of source bytes to its end or to where it waits for the next, and with the last
to where it rests with all of them queued (R26, R41). -/
theorem State.RestsIn.refill {t : State} {bunches : List (List Byte)} (hb : ∀ b ∈ bunches, b ≠ []) {u : State}
    (U : u.Stopped) (h : (u.later unheld id [] bunches.flatten []).RestsIn t) : u.refill bunches = .next t := by
  induction bunches generalizing u with
  | nil =>
    rw [List.flatten_nil, State.later_unheld U.credit rfl] at h
    rw [State.refill, h.eq_of_stopped U.canRun]
  | cons b bs ih =>
    have hb' : ∀ b ∈ bs, b ≠ [] := fun c hc => hb c (List.mem_cons_of_mem b hc)
    have fed : { u with srcq := u.srcq ++ b } = u.later unheld id [] b [] := by simp [State.later, U.credit]
    have B : (u.later unheld id [] b []).Bounded := U.bounded.later
    have h' : ((u.later unheld id [] b []).later unheld id [] bs.flatten []).RestsIn t := by
      rw [State.later_later]; exact h
    rw [State.refill, fed]
    split
    · next hr =>
      rw [step_goOn (State.canRun_later hr (hb b (List.mem_cons_self ..)))]
      exact ih hb' (B.goOn_stopped rfl) (h'.runFor_later _)
    · next hr => exact ih hb' ⟨B, rfl, State.canRun_of_not_run hr⟩ h'

/-- Settles O39: the bunches queued one after the other are those queued at the start. -/
theorem lateSourceBytesChangeNothing : Obligations.LateSourceBytesChangeNothing := by
  unfold Obligations.LateSourceBytesChangeNothing
  intro i s t u early bunches hc hb ht hu
  have U : u.Stopped := exec_stopped (s := { s with srcq := early }) hc hu
  have T : t.Stopped := exec_stopped (s := { s with srcq := early ++ bunches.flatten }) hc ht
  have rests := exec_late hc ht hu id
  rw [State.later_unheld T.credit rfl] at rests
  exact rests.refill hb U

/-! ### HOST's source writes -/

/-- The step of a waiting request at which HOST's next source byte lands: SRCQ is empty, so it has room (R26, R41). -/
theorem step_lands_source {u : State} {b : Byte} {rest : List Input} (U : u.Stopped) (hr : u.engState = .run)
    (hp : u.params.wf) (hi : u.inputs = .writeSource b :: rest) :
    step u = .next (u.later unheld (fun _ => rest) [] [b] []) := by
  have room : (Input.writeSource b).waits u = false := by
    refine Input.writeSource_lands b ?_
    rw [State.srcq_of_stopped hr U.credit U.canRun]
    exact hp.2
  rw [step_landInput U.canRun (State.takeDescriptor_of_not_idle (by rw [hr]; decide)),
    State.landInput_of_some (hi ▸ nextInput_cons rest room), Input.land]
  simp [State.later, U.credit]

/-- Two steps for each of HOST's source bytes, one that lands it and one that goes on with it, bring a waiting request to where
it rests with all of them queued, when that leaves none of them over (R18, R26, R41, R59). -/
theorem State.RestsIn.stepsFor {t : State} {late : List Byte} {rest : List Input} (ht : t.srcq = []) {u : State}
    (U : u.Stopped) (hp : u.params.wf) (hi : u.inputs = late.map .writeSource ++ rest)
    (h : (u.later unheld (fun _ => rest) [] late []).RestsIn t) : u.stepsFor (2 * late.length) = .next t := by
  induction late generalizing u with
  | nil =>
    rw [State.later_unheld U.credit hi.symm] at h
    exact congrArg _ (h.eq_of_stopped U.canRun)
  | cons b late ih =>
    have hr : u.engState = .run := by
      by_contra hr
      have e := h.eq_of_stopped (State.canRun_of_not_run hr)
      rw [← e] at ht
      simp [State.later] at ht
    let v := u.later unheld (fun _ => late.map .writeSource ++ rest) [] [b] []
    have lands : step u = .next v := step_lands_source U hr hp hi
    have goesOn : step v = .next v.goOn := step_goOn (State.canRun_later hr (by simp))
    have B : v.Bounded := U.bounded.later
    have kept : KeptByRequest v v.goOn := v.runFor_keptByRequest _
    have h' : (v.later unheld (fun _ => rest) [] late []).RestsIn t := by
      rw [State.later_later]; exact h
    have two : u.stepsFor (2 * (b :: late).length) = v.goOn.stepsFor (2 * late.length) := by
      rw [List.length_cons, Nat.mul_succ, State.stepsFor, lands]
      simp only [State.stepsFor, goesOn]
    rw [two]
    exact ih (B.goOn_stopped rfl) (kept.params ▸ hp) kept.inputs (h'.runFor_later _)

/-- Settles O55: the bytes that HOST writes one by one are those queued at the start, and the frame of a request keeps the
inputs and the queue depths. -/
theorem hostWritesFeedWaitingRequest : Obligations.HostWritesFeedWaitingRequest := by
  unfold Obligations.HostWritesFeedWaitingRequest
  intro i s t u early late rest hc hp hi ht hq hu
  have U : u.Stopped := exec_stopped (s := { s with srcq := early }) hc hu
  have T : t.Stopped := exec_stopped (s := { s with srcq := early ++ late }) hc ht
  obtain ⟨params, -, -, -, inputs, -⟩ := requestFrame i _ u hu
  have rests := exec_late hc ht hu (fun _ => rest)
  have done : t.later unheld (fun _ => rest) [] [] [] = { t with inputs := rest } := by simp [State.later, T.credit]
  rw [done] at rests
  exact State.RestsIn.stepsFor (t := { t with inputs := rest }) hq U (params ▸ hp) (inputs.trans hi) rests

end Sys2Proof.Machine
end

section
/-! What a request that nothing interrupts emits and consumes depends on its operands, the parameters and the source queue
alone, and not on the working registers it finds (10_state.md R28). -/

namespace Sys2Proof.Machine

/-- The events of a request whose source bytes are queued (R104, R106, R108, R111, R126, R131). -/
def requestTrace (p : Params) (q : List Byte) : Instr → List Event
  | .fillRect x y w h c => fillTrace p x y w h c
  | .drawPixel x y c => fillTrace p x y 1 1 c
  | .fillScreen c => fillTrace p 0 0 240 320 c
  | .drawImage x y w h _ => imageTrace p x y w h q
  | .drawChar chr x y fg bg sc => if hasGlyph chr then glyphTrace p chr x y fg bg sc else []
  | .drawString x y fg bg sc len => stringTrace p x y fg bg sc (q.take len)

/-- A program that runs to its end in the patience of a step with `n` source bytes queued, having emitted `es` and left the
source bytes `q`. -/
structure Completes (es : List Event) (q : List Byte) (s t : State) : Prop where
  within : ∃ b, b < 2 ^ 24 * (s.srcq.length + 2) ∧ Within b s t
  todo : t.todo = []
  srcq : t.srcq = q
  laid : Laid es s t

/-! ### An image's stages -/

/-- A window is never empty, so an image that draws needs bytes (R91, R110). -/
theorem imageNeed_pos {x y w h x' y' w' h' : Nat} (hc : clip x y w h = .window x' y' w' h') : 0 < imageNeed x y w h := by
  obtain ⟨-, -, rfl, rfl, hx, hy, hw, hh⟩ := clip_window hc
  rw [imageNeed, hc]
  exact Nat.mul_pos (Nat.mul_pos (by decide) (by omega)) (by omega)

/-- The events are emitted, and the source queue, SREM, PCNT and what is left of the program take values. -/
def State.written (es : List Event) (q : List Byte) (n k : Nat) (ms : List Micro) (s : State) : State :=
  (((s.emitAll es).withSource q n).withTodo ms).withPcnt k

theorem State.written_emitAll (es fs : List Event) (q : List Byte) (n k : Nat) (ms ns : List Micro) (s : State) :
    ((s.written es q n k ms).withTodo ns).emitAll fs = s.written (es ++ fs) q n k ns := by
  simp only [State.written, State.withPcnt_withTodo, State.withTodo_withTodo, State.emitAll_withPcnt, State.emitAll_withTodo,
    State.emitAll_withSource, State.emitAll_append]

theorem Going.written {s : State} (g : Going s) (es : List Event) (q : List Byte) (n k : Nat) (ms : List Micro) :
    Going (s.written es q n k ms) := (((g.emitAll es).withSource q n).withTodo ms).withPcnt k

/-- DRAW_IMAGE's first loop (R111) after events already emitted. -/
theorem Going.imageBytes_written {s : State} (g : Going s) (es : List Event) (bs q : List Byte) (n : Nat)
    (rest : List Micro) :
    Steps (4 * bs.length + 1) (s.written es (bs ++ q) n bs.length (.imageBytes :: rest))
      (s.written (es ++ bs.map .xfer) q (n - bs.length) 0 rest) := by
  have sent := (g.written es (bs ++ q) n bs.length (.imageBytes :: rest)).imageBytes (n := bs.length) (m := n)
    rfl rfl rfl rfl rfl
  have emitted : (s.written es (bs ++ q) n bs.length (.imageBytes :: rest)).emitAll (bs.map .xfer) =
      s.written (es ++ bs.map .xfer) (bs ++ q) n bs.length (.imageBytes :: rest) :=
    State.written_emitAll es _ (bs ++ q) n bs.length (.imageBytes :: rest) _ s
  rw [emitted] at sent
  exact sent

/-- The close of an image's burst and the drain of the bytes after it (R111, R113). -/
theorem Going.imageTail_written {s : State} (g : Going s) (es : List Event) (bs q : List Byte) (k : Nat) :
    Steps (bs.length + 2) (s.written es (bs ++ q) bs.length k imageTail) (s.written (es ++ burstClose) q 0 k []) := by
  have closed := (g.written es (bs ++ q) bs.length k imageTail).emits (es := burstClose) (rest := [.drain]) rfl
  rw [State.written_emitAll] at closed
  have drained := (g.written (es ++ burstClose) (bs ++ q) bs.length k [.drain]).drain (n := bs.length) (bs := bs) (q := q)
    rfl rfl rfl rfl
  have both := closed.trans drained
  rw [show eventsCost burstClose + (bs.length + 1) = bs.length + 2 by
    simp only [eventsCost, burstClose, List.map, eventCost, List.sum_cons, List.sum_nil]; omega] at both
  exact both

/-- Emitting events that end with chip-select deasserted, after a window has been loaded. -/
theorem Going.written_laid {s : State} (g : Going s) (ho : s.selOpen = false) {x y w h : Nat} {es : List Event}
    (he : es.foldl selAfter false = false) (q : List Byte) (n k : Nat) (ms : List Micro) :
    Laid es s ((s.loadWindow x y w h).written es q n k ms) := by
  rw [State.written, State.emitAll_eq es (s.loadWindow x y w h) g.xfer]
  refine ⟨?_, rfl, rfl⟩
  simp only [State.loadWindow, State.withSource, State.withTodo, State.withPcnt, ho, he]

/-! ### The programs -/

section
variable {s : State} (g : Going s) (ho : s.selOpen = false)
include g ho

/-- The program of FILL_RECT, DRAW_PIXEL and FILL_SCREEN (R104, R106, R108). -/
theorem Going.fillRect_completes {x y w h : Nat} {v : Color} (ht : s.todo = [.fillRect x y w h v]) :
    ∃ t, Completes (fillTrace s.params x y w h v) s.srcq s t := by
  have d := (s.painted_drawn x y w h v g.xfer ho).withTodo []
  exact ⟨_, ⟨500000, by omega, g.fillRect ht⟩, rfl, by rw [d.frame], d.laid⟩

/-- DRAW_CHAR's program (R126). -/
theorem Going.drawChar_completes {c x y : Nat} {fg bg : Color} {sc : Nat}
    (ht : s.todo = if hasGlyph c then [.glyph c x y fg bg sc] else []) :
    ∃ t, Completes (if hasGlyph c then glyphTrace s.params c x y fg bg sc else []) s.srcq s t := by
  split_ifs at ht ⊢
  · obtain ⟨t, hw, htodo, d⟩ := g.glyph ho ht
    exact ⟨t, ⟨_, by omega, hw⟩, htodo, by rw [d.frame], d.laid⟩
  · exact ⟨s, ⟨0, by omega, (Steps.refl s).within⟩, ht, rfl, (Drawn.refl s).laid⟩

/-- DRAW_STRING's program (R131), when its characters are queued. -/
theorem Going.drawString_completes {x y len : Nat} {fg bg : Color} {sc : Nat}
    (ht : s.todo = [.beginString x y len, .chars fg bg sc]) (hl : len ≤ s.srcq.length) :
    ∃ t, Completes (stringTrace s.params x y fg bg sc (s.srcq.take len)) (s.srcq.drop len) s t := by
  have one := g.micro ht (by simp [State.waitsForSource, ht])
  have begun : (s.withTodo [.chars fg bg sc]).micro (.beginString x y len) =
      ((s.withSource s.srcq len).withCursor (.start x y)).withTodo [.chars fg bg sc] := rfl
  rw [begun] at one
  have regs := Laid.registers s [.chars fg bg sc] s.srcq len (.start x y)
  obtain ⟨t, hw, htodo, hq, -, -, l⟩ := (regs.going g).chars ho (cs := s.srcq.take len) (q := s.srcq.drop len) rfl
    (List.length_take_of_le hl).symm (List.take_append_drop ..).symm
  refine ⟨t, ⟨_, ?_, one.within.trans hw⟩, htodo, hq, regs.trans l⟩
  rw [List.length_take]
  omega

omit ho in
/-- DRAW_IMAGE's program when it draws nothing: its bytes are drained (R113). -/
theorem Going.imageNoOp_completes {x y w h len : Nat} (ht : s.todo = imageProgram x y w h len)
    (hc : clip x y w h = .noOp) (hl : len ≤ s.srcq.length) :
    ∃ t, Completes (imageTrace s.params x y w h s.srcq) (s.srcq.drop len) s t := by
  rw [imageProgram_noOp (by rw [imageNeed, hc])] at ht
  have one := g.micro ht (by simp [State.waitsForSource, ht])
  have loaded : (s.withTodo [.drain]).micro (.loadSrem len) = (s.withSource s.srcq len).withTodo [.drain] := rfl
  rw [loaded] at one
  have two := ((g.withSource s.srcq len).withTodo [.drain]).drain (n := len) rfl rfl (List.length_take_of_le hl)
    (List.take_append_drop ..).symm
  refine ⟨_, ⟨_, ?_, one.within.trans two.within⟩, rfl, rfl, ?_⟩
  · omega
  · rw [imageTrace, hc]
    exact Laid.registers s [] (s.srcq.drop len) 0 s.cursor

/-- DRAW_IMAGE's program when it draws: the window, one burst of the bytes it needs, and the drain of the rest (R111). -/
theorem Going.imageWindow_completes {x y w h len x' y' w' h' : Nat} (ht : s.todo = imageProgram x y w h len)
    (hc : clip x y w h = .window x' y' w' h') (hn : imageNeed x y w h ≤ len) (hl : len ≤ s.srcq.length) :
    ∃ t, Completes (imageTrace s.params x y w h s.srcq) (s.srcq.drop len) s t := by
  have opened := g.imageOpened ht hc (imageNeed_pos hc)
  have need := imageNeed_le x y w h
  have trace : imageTrace s.params x y w h s.srcq = transactions (windowBytes s.params x' y' w' h') ++ burstOpen ++
      (s.srcq.take (imageNeed x y w h)).map .xfer ++ burstClose := by
    rw [imageTrace, hc]
    simp [burst, burstOpen, burstClose]
  rw [trace]
  clear trace
  generalize transactions (windowBytes s.params x' y' w' h') ++ burstOpen = es at opened ⊢
  generalize imageNeed x y w h = m at hn opened need ⊢
  have hb : (s.srcq.take m).length = m := List.length_take_of_le (hn.trans hl)
  have hd : ((s.srcq.drop m).take (len - m)).length = len - m := List.length_take_of_le (by rw [List.length_drop]; omega)
  have hq : s.srcq.take m ++ ((s.srcq.drop m).take (len - m) ++ s.srcq.drop len) = s.srcq := by
    rw [show s.srcq.drop len = (s.srcq.drop m).drop (len - m) by rw [List.drop_drop, Nat.add_sub_cancel' hn],
      List.take_append_drop, List.take_append_drop]
  generalize s.srcq.take m = bs at *
  generalize (s.srcq.drop m).take (len - m) = ds at *
  generalize s.srcq.drop len = q at *
  have gw : Going (s.loadWindow x' y' w' h') := g.loadWindow ..
  have sent := gw.imageBytes_written es bs (ds ++ q) len imageTail
  have closed := gw.imageTail_written (es ++ bs.map .xfer) ds q 0
  rw [hq, hb] at sent
  rw [hd] at closed
  refine ⟨_, ⟨_, ?_, (opened.trans sent.within).trans closed.within⟩, rfl, rfl, ?_⟩
  · omega
  · refine g.written_laid ho ?_ q 0 0 []
    rw [List.foldl_append]
    rfl

end

/-! ### The requests -/

/-- A program that completes from where a request begins is the request's result. -/
theorem Completes.request {es : List Event} {q : List Byte} {s t : State} {program : List Micro} (hc : s.credit = none)
    (h : Completes es q (s.started program) t) (g : Going (s.started program)) : s.request program = t.withEngState .idle := by
  obtain ⟨b, hb, hw⟩ := h.within
  refine hw.request (h.laid.going g) h.todo ?_
  have hc' : ((s.withEngState .run).withTodo program).credit = none := hc
  rw [State.patience, hc']
  have hb : b < 2 ^ 24 * (((s.withEngState .run).withTodo program).srcq.length + 2) := hb
  dsimp only
  omega

/-- The program of a request that is supplied runs to its end and emits the events of the request. -/
theorem exec_completes {i : Instr} {s : State} (hf : s.free) (hs : supplied i s) :
    ∃ program t, exec i s = .next (s.request program) ∧
      Completes (requestTrace s.params s.srcq i) (s.srcq.drop (sourceBytes i)) (s.started program) t := by
  obtain ⟨hc, hx, ho⟩ := hf
  have g : ∀ program, Going (s.started program) := fun _ => ⟨rfl, hc, hx⟩
  obtain ⟨hl, hn⟩ := hs
  cases i with
  | fillRect x y w h c => exact ⟨_, (g _).fillRect_completes ho rfl |>.imp fun _ h => ⟨rfl, h⟩⟩
  | drawPixel x y c => exact ⟨_, (g _).fillRect_completes ho rfl |>.imp fun _ h => ⟨rfl, h⟩⟩
  | fillScreen c => exact ⟨_, (g [.fillRect 0 0 240 320 c]).fillRect_completes ho rfl |>.imp fun _ h => ⟨rfl, h⟩⟩
  | drawImage x y w h len =>
    have hn := hn x y w h len rfl
    refine ⟨imageProgram x y w h len, ?_⟩
    have run : exec (.drawImage x y w h len) s = .next (s.request (imageProgram x y w h len)) := by
      rw [exec, execDrawImage, if_neg (Nat.not_lt.mpr hn)]
    cases hcl : clip x y w h with
    | noOp => exact ((g _).imageNoOp_completes rfl hcl hl).imp fun _ h => ⟨run, h⟩
    | window => exact ((g _).imageWindow_completes ho rfl hcl hn hl).imp fun _ h => ⟨run, h⟩
  | drawChar chr x y fg bg sc => exact ⟨_, (g _).drawChar_completes ho rfl |>.imp fun _ h => ⟨rfl, h⟩⟩
  | drawString x y fg bg sc len => exact ⟨_, (g _).drawString_completes ho rfl hl |>.imp fun _ h => ⟨rfl, h⟩⟩

/-- A supplied request that nothing interrupts ends in IDLE with its events emitted and its source bytes consumed. -/
theorem exec_result {i : Instr} {s : State} (hf : s.free) (hs : supplied i s) :
    ∃ t, exec i s = .next t ∧ t.engState = .idle ∧ t.trace = s.trace ++ requestTrace s.params s.srcq i ∧
      (t.dcLevel, t.consumer) = s.observed (requestTrace s.params s.srcq i) ∧ t.srcq = s.srcq.drop (sourceBytes i) := by
  obtain ⟨program, t, he, h⟩ := exec_completes hf hs
  refine ⟨t.withEngState .idle, ?_, rfl, ?_, h.laid.seen, h.srcq⟩
  · rw [he, h.request hf.1 ⟨rfl, hf.1, hf.2.1⟩]
  · have out : t.out = (requestTrace s.params s.srcq i).reverse ++ s.out := h.laid.out
    rw [State.withEngState_trace, State.trace, out, List.reverse_append, List.reverse_reverse, State.trace]

/-- STATUS is read from these alone (R19). -/
theorem State.status_congr {s t : State} (he : t.engState = s.engState) (hf : t.fcode = s.fcode) (hq : t.reqq = s.reqq) :
    t.status = s.status := by
  unfold State.status State.fcodeField State.faultFlag State.busy
  rw [he, hf, hq]

/-- Settles O48: what the request emits and consumes is the same, since parameters, source queue, consumer and line level are,
and the rest is kept by every request. -/
theorem workingRegistersCarryNothing : Obligations.WorkingRegistersCarryNothing := by
  unfold Obligations.WorkingRegistersCarryNothing
  intro i s s' hf hs hr
  have hf' : s'.free := by rw [hr]; exact hf
  have hs' : supplied i s' := by rw [hr]; exact hs
  obtain ⟨t, he, hi, htr, hseen, hq⟩ := exec_result hf hs
  obtain ⟨t', he', hi', htr', hseen', hq'⟩ := exec_result hf' hs'
  obtain ⟨-, reqq, reqIndex, -, -, -, -, -, regs⟩ := requestFrame i s t he
  obtain ⟨-, reqq', reqIndex', -, -, -, -, -, regs'⟩ := requestFrame i s' t' he'
  obtain ⟨fcode, faultW0⟩ := regs (by rw [hi]; decide)
  obtain ⟨fcode', faultW0'⟩ := regs' (by rw [hi']; decide)
  have same : (t'.dcLevel, t'.consumer) = (t.dcLevel, t.consumer) := by rw [hseen, hseen', hr]; rfl
  obtain ⟨level, consumer⟩ := Prod.mk.inj same
  refine ⟨t, t', he, he', ?_, level, consumer, ?_, State.status_congr (hi'.trans hi.symm) ?_ ?_, ?_, ?_⟩
  · rw [htr, htr', hr]; rfl
  · rw [hq, hq', hr]
  · rw [fcode, fcode', hr]
  · rw [reqq, reqq', hr]
  · rw [faultW0, faultW0', hr]
  · rw [reqIndex, reqIndex', hr]

end Sys2Proof.Machine
end

section
/-! The trace only grows, and what a request takes from the source queue however it is interrupted (20_memory.md R42, R43). -/

namespace Sys2Proof.Machine

/-! ### The trace -/

/-- A micro-operation takes no event back: an Emit adds its event, any other statement leaves the output alone. -/
theorem State.microStep_trace_prefix (s : State) : s.trace <+: s.microStep.trace := by
  rcases s.microStep_cases with ⟨-, e⟩ | ⟨-, -, e⟩ | ⟨-, m, rest, -, e⟩ <;> rw [e]
  · exact List.prefix_rfl
  · exact List.prefix_rfl
  · by_cases hm : ∃ ev, m = .emit ev
    · obtain ⟨ev, rfl⟩ := hm
      rw [State.micro, State.emit_trace]
      exact List.prefix_append _ _
    · have quiet := (s.withTodo rest).micro_quiet (not_exists.mp hm)
      have trace : ((s.withTodo rest).micro m).trace = s.trace := congrArg List.reverse quiet.out
      rw [trace]

theorem State.runFor_trace_prefix (s : State) (n : Nat) : s.trace <+: (s.runFor n).trace :=
  State.runFor_induction (P := fun t => s.trace <+: t.trace)
    (fun t _ h => h.trans t.microStep_trace_prefix) List.prefix_rfl n

theorem exec_trace_prefix {i : Instr} {s t : State} (h : exec i s = .next t) : s.trace <+: t.trace := by
  rcases exec_cases i s with ⟨_, _, _, _, _, -, -, he⟩ | ⟨program, he, -⟩ <;> cases he.symm.trans h
  · exact List.prefix_rfl
  · exact State.runFor_trace_prefix (s.started program) _

/-- An input takes no event back: a reset may add a `DESEL` (R159), every other input leaves the trace alone. -/
theorem Input.land_trace_prefix {i : Input} {s t : State} (h : i.land s = .next t) : s.trace <+: t.trace := by
  cases i with
  | reset =>
    cases h
    rw [s.resetBlock_trace]
    split
    · exact List.prefix_append _ _
    · exact List.prefix_rfl
  | writeRequest w =>
    rw [Input.land] at h
    split at h <;> cases h
    exact List.prefix_rfl
  | bootSequencer =>
    rw [Input.land] at h
    split_ifs at h
    cases h
    exact List.prefix_rfl
  | _ => cases h; exact List.prefix_rfl

/-- Settles O44, by the cases of a step. -/
theorem traceOnlyGrows : Obligations.TraceOnlyGrows := by
  unfold Obligations.TraceOnlyGrows
  intro s t h
  rcases step_cases h with ⟨-, rfl⟩ | ⟨-, u, hu, hd⟩ | ⟨-, -, ⟨-, rfl⟩ | ⟨i, rest, -, hl⟩⟩
  · exact s.runFor_trace_prefix _
  · have taken : u.trace = s.trace := by
      obtain ⟨_, _, -, -, -, rfl⟩ := State.takeDescriptor_eq_some hu
      rfl
    rw [← taken]
    rcases hd with ⟨i, -, he⟩ | ⟨e, -, rfl⟩
    · exact exec_trace_prefix he
    · exact List.prefix_rfl
  · exact List.prefix_rfl
  · exact Input.land_trace_prefix (s := { s with inputs := rest }) hl

/-! ### The source queue -/

/-- A program that reads no source byte when it begins with SREM at the given value: it has no loop over pixel bytes of an
image, and reaches its other reading loops with SREM at 0. -/
def readsNoSource : List Micro → Nat → Prop
  | [], _ => True
  | .imageBytes :: _, _ => False
  | .drain :: ms, r => r = 0 ∧ readsNoSource ms r
  | .chars .. :: ms, r => r = 0 ∧ readsNoSource ms r
  | .loadSrem n :: ms, _ => readsNoSource ms n
  | .beginString _ _ n :: ms, _ => readsNoSource ms n
  | .imageByteSent :: ms, r => readsNoSource ms (r - 1)
  | _ :: ms, r => readsNoSource ms r

theorem readsNoSource_emits (es : List Event) (ms : List Micro) (r : Nat) :
    readsNoSource (emits es ++ ms) r ↔ readsNoSource ms r := by
  induction es with
  | nil => rfl
  | cons e es ih => exact ih

theorem readsNoSource_fillStream (v : Color) (n : Nat) (ms : List Micro) (r : Nat) :
    readsNoSource (fillStream v n ++ ms) r ↔ readsNoSource ms r := by
  simp only [fillStream, List.append_assoc, readsNoSource_emits, List.cons_append, List.nil_append, readsNoSource]

/-- SetWindow and what follows it reads nothing, whatever it clips to. -/
theorem State.setWindow_readsNoSource {s : State} (x y w h : Nat) {next : Nat → List Micro}
    (hs : readsNoSource s.todo s.srem) (hn : ∀ n, readsNoSource (next n ++ s.todo) s.srem ↔ readsNoSource s.todo s.srem) :
    readsNoSource (s.setWindow x y w h next).todo (s.setWindow x y w h next).srem := by
  unfold State.setWindow
  split
  · exact hs
  · rw [State.push_todo, State.push_srem, List.append_assoc, readsNoSource_emits]
    exact (hn _).mpr hs

theorem State.drain_of_done {s : State} (h : s.srem = 0) : s.drain = s := if_pos h

theorem State.chars_of_done {s : State} {fg bg : Color} {sc : Nat} (h : s.srem = 0) : s.chars fg bg sc = s := if_pos h

/-- The next statement of a program that reads nothing leaves the source queue alone, and what is left reads nothing. -/
theorem State.micro_readsNoSource {s : State} {m : Micro} {rest : List Micro} (h : readsNoSource (m :: rest) s.srem) :
    readsNoSource ((s.withTodo rest).micro m).todo ((s.withTodo rest).micro m).srem ∧
      ((s.withTodo rest).micro m).srcq = s.srcq := by
  cases m with
  | emit e => rw [State.micro, State.emit_todo, State.emit_srem, State.emit_srcq]; exact ⟨h, rfl⟩
  | setWindow x y w hh =>
    rw [State.micro]
    obtain ⟨-, -, srcq⟩ := (s.withTodo rest).setWindow_rest x y w hh fun _ => []
    exact ⟨State.setWindow_readsNoSource x y w hh h fun _ => .rfl, srcq⟩
  | fillRect x y w hh v =>
    rw [State.micro]
    obtain ⟨-, -, srcq⟩ := (s.withTodo rest).setWindow_rest x y w hh (fillStream v)
    exact ⟨State.setWindow_readsNoSource x y w hh h fun n => readsNoSource_fillStream v n _ _, srcq⟩
  | pixels v =>
    simp only [State.micro, State.pixels]
    split <;> exact ⟨h, rfl⟩
  | imageBytes => exact h.elim
  | drain =>
    rw [State.micro, State.drain_of_done (s := s.withTodo rest) h.1]
    exact ⟨h.2, rfl⟩
  | chars fg bg sc =>
    rw [State.micro, State.chars_of_done (s := s.withTodo rest) h.1]
    exact ⟨h.2, rfl⟩
  | _ => exact ⟨h, rfl⟩

/-- The source queue is `q`, and what is left of the program reads nothing from it. -/
structure State.LeavesSource (q : List Byte) (s : State) : Prop where
  reads : readsNoSource s.todo s.srem
  srcq : s.srcq = q

theorem State.LeavesSource.microStep {q : List Byte} {s : State} (h : s.LeavesSource q) : s.microStep.LeavesSource q := by
  rcases s.microStep_cases with ⟨-, e⟩ | ⟨-, -, e⟩ | ⟨-, m, rest, ht, e⟩ <;> rw [e]
  · exact ⟨h.reads, h.srcq⟩
  · exact ⟨h.reads, h.srcq⟩
  · have reads := h.reads
    rw [ht] at reads
    obtain ⟨reads', srcq⟩ := State.micro_readsNoSource reads
    exact ⟨reads', srcq.trans h.srcq⟩

theorem State.LeavesSource.spend {q : List Byte} {s : State} (h : s.LeavesSource q) : s.spend.LeavesSource q :=
  ⟨h.reads, h.srcq⟩

/-- A request whose program reads nothing takes nothing from the source queue, however it is interrupted. -/
theorem State.request_srcq {s : State} {program : List Micro} (h : readsNoSource program s.srem) :
    (s.request program).srcq = s.srcq :=
  have begun : (s.started program).LeavesSource s.srcq := ⟨h, rfl⟩
  (State.runFor_induction (fun _ _ h => h.microStep.spend) begun _).srcq

/-- A request that consumes no source byte raises IMAGE_SHORT or runs a program that reads none. -/
theorem exec_readsNoSource {i : Instr} (hi : sourceBytes i = 0) (s : State) :
    exec i s = .next (s.raiseFault .imageShort) ∨
      ∃ program, exec i s = .next (s.request program) ∧ readsNoSource program s.srem := by
  cases i with
  | fillRect => exact .inr ⟨_, rfl, trivial⟩
  | drawPixel => exact .inr ⟨_, rfl, trivial⟩
  | fillScreen => exact .inr ⟨_, rfl, trivial⟩
  | drawImage x y w h len =>
    obtain rfl : len = 0 := hi
    by_cases hn : 0 < imageNeed x y w h
    · exact .inl (by rw [exec, execDrawImage, if_pos hn])
    · refine .inr ⟨_, by rw [exec, execDrawImage, if_neg hn], ?_⟩
      rw [imageProgram_noOp (by omega)]
      exact ⟨rfl, trivial⟩
  | drawChar => exact .inr ⟨_, rfl, by split <;> trivial⟩
  | drawString x y fg bg sc len => exact .inr ⟨_, rfl, hi, trivial⟩

theorem State.microStep_not_faulted {s : State} (h : s.engState ≠ .faulted) : s.microStep.engState ≠ .faulted := by
  rcases s.microStep_cases with ⟨-, e⟩ | ⟨-, -, e⟩ | ⟨-, m, rest, -, e⟩ <;> rw [e]
  · exact h
  · nofun
  · rw [((s.withTodo rest).micro_sameOutside m).engState]
    exact h

/-- A request that runs does not fault: IMAGE_SHORT comes before any program (R114). -/
theorem State.request_not_faulted (s : State) (program : List Micro) : (s.request program).engState ≠ .faulted :=
  State.runFor_induction (P := fun t => t.engState ≠ .faulted) (fun _ _ h => State.microStep_not_faulted h)
    (s := s.started program) nofun _

/-- Settles O45: a program without bytes to consume reads none, a supplied request's result is known, and a request that faults
runs no program. -/
theorem sourceConsumption : Obligations.SourceConsumption := by
  unfold Obligations.SourceConsumption
  refine ⟨fun i s t hi he => ?_, fun i s hf hs => ?_, fun i s t he ht => ?_⟩
  · rcases exec_readsNoSource hi s with h | ⟨program, h, reads⟩ <;> cases h.symm.trans he
    · rfl
    · exact State.request_srcq reads
  · obtain ⟨t, he, -, -, -, hq⟩ := exec_result hf hs
    exact ⟨t, he, hq⟩
  · rcases exec_cases i s with ⟨_, _, _, _, _, -, -, h⟩ | ⟨program, h, -⟩ <;> cases h.symm.trans he
    · rfl
    · exact absurd ht (s.request_not_faulted program)

end Sys2Proof.Machine
end

section
/-! Where the engine waits (20_memory.md R41, R49; 60_exceptions.md R147): for the transport, or for a source byte, with what the
request has done by then. -/

namespace Sys2Proof.Machine

/-! ### A wait without an input -/

/-- A request in progress that can go no further steps to itself when no input is pending. -/
theorem step_self {s : State} (hr : s.engState = .run) (hc : s.canRun = false) (hi : s.inputs = []) : step s = .next s := by
  rw [step_landInput hc (State.takeDescriptor_of_not_idle (by rw [hr]; decide))]
  exact State.landInput_of_none (by rw [hi]; rfl)

/-- Settles O34: the completion is the only micro-operation, and an engine that is held goes no further. -/
theorem engineWaitsForTransport : Obligations.EngineWaitsForTransport := by
  unfold Obligations.EngineWaitsForTransport
  intro s hr hx
  refine ⟨if_pos hx, fun hc hi => step_self hr ?_ hi⟩
  simp [State.canRun, State.held, hc]

/-! ### Requests that come to wait for a source byte -/

/-- `s` comes to `t`, where the engine waits for a source byte (R41), by way of the events `es`. -/
structure ComesToWait (es : List Event) (s t : State) : Prop where
  within : ∃ b, Within b s t
  waits : t.waitsForSource = true
  trace : t.trace = s.trace ++ es
  outside : SameOutside s t

/-- The engine waits for a source byte only with SRCQ empty and no exchange in progress (R41, R49). -/
theorem State.waitsForSource_quiet {s : State} (h : s.waitsForSource = true) : s.srcq = [] ∧ s.xferBusy = false := by
  simp only [State.waitsForSource, Bool.and_eq_true, List.isEmpty_iff, Bool.not_eq_true'] at h
  exact h.1

theorem State.canRun_of_waits {s : State} (h : s.waitsForSource = true) : s.canRun = false := by simp [State.canRun, h]

section
variable {s : State} {rest : List Micro}

theorem State.waitsForSource_imageBytes (ht : s.todo = .imageBytes :: rest) (hq : s.srcq = []) (hx : s.xferBusy = false)
    (hp : s.pcnt ≠ 0) : s.waitsForSource = true := by simp [State.waitsForSource, ht, hq, hx, hp]

theorem State.waitsForSource_drain (ht : s.todo = .drain :: rest) (hq : s.srcq = []) (hx : s.xferBusy = false)
    (hn : s.srem ≠ 0) : s.waitsForSource = true := by simp [State.waitsForSource, ht, hq, hx, hn]

theorem State.waitsForSource_chars {fg bg : Color} {sc : Nat} (ht : s.todo = .chars fg bg sc :: rest) (hq : s.srcq = [])
    (hx : s.xferBusy = false) (hn : s.srem ≠ 0) : s.waitsForSource = true := by simp [State.waitsForSource, ht, hq, hx, hn]

end

/-- Where the run of a request's program can go no further, the request stops. -/
theorem exec_comesTo {i : Instr} {s t : State} {program : List Micro} (hc : s.credit = none)
    (he : exec i s = .next (s.request program)) (hw : ∃ b, Within b (s.started program) t) (ht : t.canRun = false) :
    exec i s = .next t := by
  obtain ⟨_, k, -, steps⟩ := hw
  obtain ⟨_, hk⟩ := State.runFor_meets (b := (s.started program).patience) (steps.ends le_rfl ht) ht
  have stopped : (s.request program).canRun = false := (exec_stopped hc he).canRun
  rw [← State.goOn, ← State.request_eq, State.runFor_stop _ stopped] at hk
  rw [he, hk]

/-- What is seen of a request that waits for a source byte: ENG_STATE is RUN, BUSY is 1, no fault is recorded, and without an
input it waits for ever (R41, R147). -/
theorem exec_waits {i : Instr} {s t : State} {program : List Micro} {es : List Event} (hc : s.credit = none)
    (he : exec i s = .next (s.request program)) (h : ComesToWait es (s.started program) t) :
    exec i s = .next t ∧ t.trace = s.trace ++ es ∧ t.srcq = [] ∧ t.engState = .run ∧ t.status.getLsbD 0 = true ∧
      t.xferBusy = false ∧ t.fcode = s.fcode ∧ t.faultW0 = s.faultW0 ∧ (s.inputs = [] → step t = .next t) := by
  have stopped := State.canRun_of_waits h.waits
  obtain ⟨srcq, xfer⟩ := State.waitsForSource_quiet h.waits
  have run : t.engState = .run := h.outside.engState
  have busy : t.status.getLsbD 0 = true := by rw [t.status_fields.1, t.busy_iff]; exact .inl run
  exact ⟨exec_comesTo hc he h.within stopped, h.trace, srcq, run, busy, xfer, h.outside.fcode, h.outside.faultW0,
    fun hi => step_self run stopped (h.outside.inputs.trans hi)⟩

theorem Laid.sameOutside {es : List Event} {s t : State} (h : Laid es s t) : SameOutside s t := by
  rw [h.frame]; constructor <;> rfl

theorem Laid.trace {es : List Event} {s t : State} (h : Laid es s t) : t.trace = s.trace ++ es := by
  simp [State.trace, h.out]

/-! ### DRAW_IMAGE in its burst -/

theorem xfers_selOpen (bs : List Byte) (b : Bool) : (bs.map Event.xfer).foldl selAfter b = b := by
  induction bs with
  | nil => rfl
  | cons _ _ ih => exact ih

section
variable {s : State} (g : Going s)
include g

theorem Going.written_trace (es : List Event) (q : List Byte) (n k : Nat) (ms : List Micro) :
    (s.written es q n k ms).trace = s.trace ++ es := by
  have out : (s.written es q n k ms).out = es.reverse ++ s.out := by
    show (s.emitAll es).out = _
    rw [s.emitAll_eq es g.xfer]
  simp [State.trace, out]

theorem Going.written_selOpen (es : List Event) (q : List Byte) (n k : Nat) (ms : List Micro) :
    (s.written es q n k ms).selOpen = es.foldl selAfter s.selOpen := by
  show (s.emitAll es).selOpen = _
  rw [s.emitAll_eq es g.xfer]

omit g in
theorem State.written_sameOutside (es : List Event) (q : List Byte) (n k : Nat) (ms : List Micro) :
    SameOutside s (s.written es q n k ms) :=
  (s.emitAll_sameOutside es).trans (by constructor <;> rfl)

/-- DRAW_IMAGE's first loop (R111) after events already emitted, when it has fewer bytes than it needs. -/
theorem Going.imageBytesSent_written (es : List Event) (bs q : List Byte) (n k : Nat) (hk : bs.length ≤ k)
    (rest : List Micro) :
    Steps (4 * bs.length) (s.written es (bs ++ q) n k (.imageBytes :: rest))
      (s.written (es ++ bs.map .xfer) q (n - bs.length) (k - bs.length) (.imageBytes :: rest)) := by
  have sent := (g.written es (bs ++ q) n k (.imageBytes :: rest)).imageBytesSent (m := n) rfl rfl hk rfl rfl
  have emitted : (s.written es (bs ++ q) n k (.imageBytes :: rest)).emitAll (bs.map .xfer) =
      s.written (es ++ bs.map .xfer) (bs ++ q) n k (.imageBytes :: rest) :=
    State.written_emitAll es _ (bs ++ q) n k (.imageBytes :: rest) _ s
  rw [emitted] at sent
  exact sent

end

/-- The state in which a DRAW_IMAGE waits in its burst. -/
def State.imageWaiting (x y w h need len : Nat) (s : State) : State :=
  (s.loadWindow x y w h).written (transactions (windowBytes s.params x y w h) ++ [.sel, .dc .data] ++ s.srcq.map .xfer) []
    (len - s.srcq.length) (need - s.srcq.length) (.imageBytes :: imageTail)

/-- A DRAW_IMAGE that needs more bytes than are queued sends those that are and waits in SrcRead. -/
theorem Going.image_comesToWait {s : State} (g : Going s) {x y w h len x' y' w' h' : Nat}
    (ht : s.todo = imageProgram x y w h len) (hc : clip x y w h = .window x' y' w' h')
    (hq : s.srcq.length < imageNeed x y w h) :
    ComesToWait (transactions (windowBytes s.params x' y' w' h') ++ [.sel, .dc .data] ++ s.srcq.map .xfer) s
      (s.imageWaiting x' y' w' h' (imageNeed x y w h) len) := by
  have opened := g.imageOpened ht hc (imageNeed_pos hc)
  have gw : Going (s.loadWindow x' y' w' h') := g.loadWindow ..
  have sent := gw.imageBytesSent_written (transactions (windowBytes s.params x' y' w' h') ++ burstOpen) s.srcq [] len
    (imageNeed x y w h) hq.le imageTail
  rw [List.append_nil] at sent
  refine ⟨⟨_, opened.trans sent.within⟩, ?_, gw.written_trace _ _ _ _ _,
    (s.loadWindow_sameOutside x' y' w' h').trans (State.written_sameOutside ..)⟩
  exact State.waitsForSource_imageBytes rfl rfl (gw.written _ _ _ _ _).xfer (Nat.sub_ne_zero_of_lt hq)

/-- Settles O35: the window and the queued bytes are written, and the loop of the burst waits for the next byte. -/
theorem imageWaitsForSource : Obligations.ImageWaitsForSource := by
  unfold Obligations.ImageWaitsForSource
  rintro x y w h len x' y' w' h' s ⟨hc, hx, ho⟩ hcl hn hq
  have g : Going (s.started (imageProgram x y w h len)) := ⟨rfl, hc, hx⟩
  have run : exec (.drawImage x y w h len) s = .next (s.request (imageProgram x y w h len)) := by
    rw [exec, execDrawImage, if_neg (Nat.not_lt.mpr hn)]
  obtain ⟨he, trace, srcq, eng, busy, xfer, fcode, faultW0, waits⟩ := exec_waits hc run (g.image_comesToWait rfl hcl hq)
  refine ⟨_, he, ?_, srcq, rfl, rfl, eng, busy, ?_, xfer, fcode, faultW0, waits⟩
  · rw [trace, List.append_assoc, List.append_assoc, List.append_assoc]
    rfl
  · rw [State.imageWaiting, (g.loadWindow ..).written_selOpen, List.foldl_append, xfers_selOpen, List.foldl_append]
    rfl

/-! ### DRAW_IMAGE in its drain -/

/-- The run of a program that has emitted whole brackets and stands before a statement that waits. -/
theorem Laid.comesToWait {es : List Event} {s t : State} (l : Laid es s t) (hw : ∃ b, Within b s t)
    (ht : t.waitsForSource = true) : ComesToWait es s t := ⟨hw, ht, l.trace, l.sameOutside⟩

theorem imageTrace_noOp {p : Params} {x y w h : Nat} {src : List Byte} (hc : clip x y w h = .noOp) :
    imageTrace p x y w h src = [] := by rw [imageTrace, hc]

theorem imageTrace_window {p : Params} {x y w h x' y' w' h' : Nat} {src : List Byte}
    (hc : clip x y w h = .window x' y' w' h') :
    imageTrace p x y w h src = transactions (windowBytes p x' y' w' h') ++ burstOpen ++
      (src.take (imageNeed x y w h)).map .xfer ++ burstClose := by
  rw [imageTrace, hc]
  simp [burst, burstOpen, burstClose]

/-- The close of an image's burst and the drain of the bytes queued after it, which may be fewer than are to be drained (R111,
R113). -/
theorem Going.imageTail_drained {s : State} (g : Going s) (es : List Event) (bs : List Byte) (n k : Nat)
    (hb : bs.length ≤ n) :
    Steps (1 + bs.length) (s.written es bs n k imageTail) (s.written (es ++ burstClose) [] (n - bs.length) k [.drain]) := by
  have closed := (g.written es bs n k imageTail).emits (es := burstClose) (rest := [.drain]) rfl
  rw [State.written_emitAll] at closed
  have drained := (g.written (es ++ burstClose) bs n k [.drain]).drained (bs := bs) (q := []) rfl rfl hb
    (List.append_nil bs).symm
  exact closed.trans drained

/-- `s` comes, by way of the events `es`, to `t`, where a DRAW_IMAGE stands before its drain with SRCQ empty and `n` bytes still to
read. -/
structure ImageDrains (es : List Event) (n : Nat) (s t : State) : Prop where
  within : ∃ b, Within b s t
  todo : t.todo = [.drain]
  srcq : t.srcq = []
  srem : t.srem = n
  laid : Laid es s t

/-- A DRAW_IMAGE that draws nothing goes straight to its drain (R113). -/
theorem Going.imageNoOp_drains {s : State} (g : Going s) {x y w h len : Nat} (ht : s.todo = imageProgram x y w h len)
    (hc : clip x y w h = .noOp) (hl : s.srcq.length ≤ len) :
    ∃ t, ImageDrains (imageTrace s.params x y w h s.srcq) (len - s.srcq.length) s t := by
  rw [imageProgram_noOp (by rw [imageNeed, hc])] at ht
  have one := g.micro ht (by simp [State.waitsForSource, ht])
  have loaded : (s.withTodo [.drain]).micro (.loadSrem len) = (s.withSource s.srcq len).withTodo [.drain] := rfl
  rw [loaded] at one
  have two := ((g.withSource s.srcq len).withTodo [.drain]).drained (bs := s.srcq) (q := []) rfl rfl hl
    (List.append_nil s.srcq).symm
  refine ⟨_, ⟨_, one.within.trans two.within⟩, rfl, rfl, rfl, ?_⟩
  rw [imageTrace_noOp hc]
  exact Laid.registers s [.drain] [] (len - s.srcq.length) s.cursor

/-- A DRAW_IMAGE whose pixel bytes are queued sends its burst, closes it and goes to its drain (R111). -/
theorem Going.imageWindow_drains {s : State} (g : Going s) (ho : s.selOpen = false) {x y w h len x' y' w' h' : Nat}
    (ht : s.todo = imageProgram x y w h len) (hc : clip x y w h = .window x' y' w' h')
    (hn : imageNeed x y w h ≤ s.srcq.length) (hl : s.srcq.length ≤ len) :
    ∃ t, ImageDrains (imageTrace s.params x y w h s.srcq) (len - s.srcq.length) s t := by
  have opened := g.imageOpened ht hc (imageNeed_pos hc)
  have gw : Going (s.loadWindow x' y' w' h') := g.loadWindow ..
  rw [imageTrace_window hc]
  generalize transactions (windowBytes s.params x' y' w' h') ++ burstOpen = es at opened ⊢
  generalize imageNeed x y w h = m at opened hn ⊢
  have taken : (s.srcq.take m).length = m := List.length_take_of_le hn
  have excess : (s.srcq.drop m).length = s.srcq.length - m := List.length_drop
  have sent := gw.imageBytes_written es (s.srcq.take m) (s.srcq.drop m) len imageTail
  rw [List.take_append_drop, taken] at sent
  have closed := gw.imageTail_drained (es ++ (s.srcq.take m).map .xfer) (s.srcq.drop m) (len - m) 0 (by omega)
  refine ⟨_, ⟨_, (opened.trans sent.within).trans closed.within⟩, rfl, rfl, ?_, ?_⟩
  · show len - m - (s.srcq.drop m).length = _
    omega
  · refine g.written_laid ho ?_ [] _ 0 [.drain]
    rw [List.foldl_append]
    rfl

/-- Settles O36: whether it draws or not, the request comes to its drain with every queued byte read. -/
theorem imageDrainWaitsForSource : Obligations.ImageDrainWaitsForSource := by
  unfold Obligations.ImageDrainWaitsForSource
  rintro x y w h len s ⟨hc, hx, ho⟩ hn hq
  have g : Going (s.started (imageProgram x y w h len)) := ⟨rfl, hc, hx⟩
  have run : exec (.drawImage x y w h len) s = .next (s.request (imageProgram x y w h len)) := by
    rw [exec, execDrawImage, if_neg (Nat.not_lt.mpr (hn.trans hq.le))]
  have drains : ∃ t, ImageDrains (imageTrace s.params x y w h s.srcq) (len - s.srcq.length)
      (s.started (imageProgram x y w h len)) t := by
    cases hcl : clip x y w h with
    | noOp => exact g.imageNoOp_drains rfl hcl hq.le
    | window => exact g.imageWindow_drains ho rfl hcl hn hq.le
  obtain ⟨t, hw, todo, srcq, srem, laid⟩ := drains
  have short : t.srem ≠ 0 := srem ▸ Nat.sub_ne_zero_of_lt hq
  have wait := laid.comesToWait hw (State.waitsForSource_drain todo srcq (laid.going g).xfer short)
  obtain ⟨he, trace, -, eng, busy, xfer, -, -, waits⟩ := exec_waits hc run wait
  exact ⟨t, he, trace, srcq, srem, eng, busy, laid.selOpen.trans ho, xfer, waits⟩

/-! ### DRAW_STRING between characters -/

/-- Settles O37: the characters queued are read and drawn, and the loop waits for the next. -/
theorem stringWaitsForSource : Obligations.StringWaitsForSource := by
  unfold Obligations.StringWaitsForSource
  rintro x y fg bg sc len s ⟨hc, hx, ho⟩ hq
  have g : Going (s.started [.beginString x y len, .chars fg bg sc]) := ⟨rfl, hc, hx⟩
  have begun : Steps 1 (s.started [.beginString x y len, .chars fg bg sc])
      ((((s.withEngState .run).withSource s.srcq len).withCursor (.start x y)).withTodo [.chars fg bg sc]) :=
    g.micro rfl (by simp [State.waitsForSource, State.started])
  have regs := Laid.registers (s.started [.beginString x y len, .chars fg bg sc]) [.chars fg bg sc] s.srcq len (.start x y)
  obtain ⟨t, drawn, todo, srcq, srem, cursor, laid⟩ := (regs.going g).charsDrawn ho (cs := s.srcq) (q := []) rfl rfl hq.le
    (List.append_nil s.srcq).symm
  have all := regs.trans laid
  have short : t.srem ≠ 0 := srem ▸ Nat.sub_ne_zero_of_lt hq
  have wait := all.comesToWait ⟨_, begun.within.trans drawn⟩
    (State.waitsForSource_chars todo srcq (all.going g).xfer short)
  obtain ⟨he, trace, -, eng, busy, xfer, -, -, waits⟩ :=
    exec_waits (i := .drawString x y fg bg sc len) hc rfl wait
  exact ⟨t, he, trace, cursor, srcq, srem, eng, busy, all.selOpen.trans ho, xfer, waits⟩

end Sys2Proof.Machine
end

section
/-! What DRAW_CHAR leaves on the screen (42_glyph.md R122, R125): the 25 filled rectangles of a glyph, one after the other. -/

namespace Sys2Proof.Machine

/-! ### A filled rectangle -/

/-- The pixel lies in the rectangle. -/
abbrev inRect (x y w h col page : Nat) : Prop := x ≤ col ∧ col < x + w ∧ y ≤ page ∧ page < y + h

theorem clip_noOp {x y w h : Nat} (hc : clip x y w h = .noOp) : 240 ≤ x ∨ 320 ≤ y ∨ w = 0 ∨ h = 0 := by
  unfold clip at hc
  split at hc
  · assumption
  · cases hc

/-- The pixels of a burst of one colour have that colour. -/
theorem getD_replicate_area {w h i j : Nat} (hi : i < h) (hj : j < w) (v : Color) :
    (List.replicate (w * h) v).getD (i * w + j) 0 = v := by
  have below : i * w + j < w * h := by
    calc i * w + j < i * w + w := Nat.add_lt_add_left hj _
      _ = (i + 1) * w := (Nat.succ_mul i w).symm
      _ ≤ h * w := Nat.mul_le_mul_right w hi
      _ = w * h := Nat.mul_comm h w
  exact List.getD_replicate v below

section
variable {p : Params} (hp : p.distinctCommands) {col page : Nat} (hcol : col < 240) (hpage : page < 320)
include hp hcol hpage

/-- A filled rectangle paints exactly its part of the array (R100). -/
theorem read_fillTrace (x y w h : Nat) (v : Color) (lc : Level × Consumer) :
    Gram.read ((fillTrace p x y w h v).foldl (observe p) lc).2.gram col page =
      if inRect x y w h col page then v else Gram.read lc.2.gram col page := by
  obtain ⟨l, c⟩ := lc
  rw [fillTrace]
  cases hc : clip x y w h with
  | noOp =>
    have := clip_noOp hc
    rw [if_neg (by omega)]
    rfl
  | window x' y' w' h' =>
    obtain ⟨rfl, rfl, rfl, rfl, hx, hy, -, -⟩ := clip_window hc
    have clipped : inRect x' y' (min w (240 - x')) (min h (320 - y')) col page ↔ inRect x' y' w h col page := by omega
    dsimp only
    rw [pixelBytes_eq, read_window hp (by omega) (by omega) _ List.length_replicate l c hcol]
    simp only [clipped]
    split_ifs with inside
    · exact getD_replicate_area (by omega) (by omega) v
    · rfl

/-! ### Strips side by side -/

omit hp hcol hpage in
/-- A position in the `n`-th of strips of width `k` that begin at `a`. -/
theorem strip_index {a k n i : Nat} (h : a + n * k ≤ i) (h' : i < a + n * k + k) : (i - a) / k = n := by
  refine Nat.div_eq_of_lt_le (by omega) ?_
  rw [Nat.succ_mul]
  omega

omit hp hcol hpage in
/-- Strips of width `k`, painted side by side from `a` on, the `n`-th in the colour `f n`: together they paint the pixel whose
position across the strips is `i`, and whose position along them is `along`, in the colour of the strip it lies in. -/
theorem read_strips {T : Nat → List Event} {f : Nat → Color} {a k i : Nat} {along : Prop} [Decidable along]
    (hT : ∀ n lc, Gram.read ((T n).foldl (observe p) lc).2.gram col page =
      if (a + n * k ≤ i ∧ i < a + n * k + k) ∧ along then f n else Gram.read lc.2.gram col page)
    (n : Nat) (lc : Level × Consumer) :
    Gram.read (((List.range n).flatMap T).foldl (observe p) lc).2.gram col page =
      if (a ≤ i ∧ i < a + n * k) ∧ along then f ((i - a) / k) else Gram.read lc.2.gram col page := by
  induction n with
  | zero =>
    rw [if_neg (by omega)]
    rfl
  | succ n ih =>
    rw [List.range_succ, List.flatMap_append, List.flatMap_singleton, List.foldl_append, hT, ih, Nat.succ_mul]
    by_cases hn : a + n * k ≤ i ∧ i < a + n * k + k
    · have whole : a ≤ i ∧ i < a + (n * k + k) := by omega
      rw [strip_index hn.1 hn.2]
      by_cases ha : along
      · rw [if_pos ⟨hn, ha⟩, if_pos ⟨whole, ha⟩]
      · rw [if_neg (ha ·.2), if_neg (ha ·.2), if_neg (ha ·.2)]
    · have same : (a ≤ i ∧ i < a + n * k) ↔ (a ≤ i ∧ i < a + (n * k + k)) := by omega
      rw [if_neg fun h => hn h.1]
      simp only [same]

/-! ### A glyph -/

/-- A glyph paints every pixel of its box, each in the colour of its cell, and nothing else (R122, R125). -/
theorem read_glyphTrace (c x y : Nat) (fg bg : Color) (sc : Nat) (lc : Level × Consumer) :
    Gram.read ((glyphTrace p c x y fg bg sc).foldl (observe p) lc).2.gram col page =
      if inRect x y (5 * sc) (5 * sc) col page then
        if lit (fontRead p c ((col - x) / sc)) ((page - y) / sc) then fg else bg
      else Gram.read lc.2.gram col page := by
  have cell : ∀ k r lc, Gram.read ((fillTrace p (x + k * sc) (y + r * sc) sc sc
      (if lit (fontRead p c k) r then fg else bg)).foldl (observe p) lc).2.gram col page =
      if (y + r * sc ≤ page ∧ page < y + r * sc + sc) ∧ x + k * sc ≤ col ∧ col < x + k * sc + sc then
        if lit (fontRead p c k) r then fg else bg
      else Gram.read lc.2.gram col page := fun k r lc => by
    rw [read_fillTrace hp hcol hpage]
    exact if_congr (by omega) rfl rfl
  have column : ∀ k lc, Gram.read (((List.range 5).flatMap fun r => fillTrace p (x + k * sc) (y + r * sc) sc sc
      (if lit (fontRead p c k) r then fg else bg)).foldl (observe p) lc).2.gram col page =
      if (x + k * sc ≤ col ∧ col < x + k * sc + sc) ∧ y ≤ page ∧ page < y + 5 * sc then
        if lit (fontRead p c k) ((page - y) / sc) then fg else bg
      else Gram.read lc.2.gram col page := fun k lc => by
    rw [read_strips (f := fun r => if lit (fontRead p c k) r then fg else bg) (cell k)]
    exact if_congr and_comm rfl rfl
  exact (read_strips (f := fun k => if lit (fontRead p c k) ((page - y) / sc) then fg else bg) column 5 lc).trans
    (if_congr and_assoc rfl rfl)

end

/-- Settles O51: the request emits the glyph's trace, whose cells tile the box, and each column of the box reads its own byte of
the font. -/
theorem drawCharPaintsWholeBox : Obligations.DrawCharPaintsWholeBox := by
  unfold Obligations.DrawCharPaintsWholeBox
  intro chr x y fg bg sc s hf hp h32 h127
  have glyph : hasGlyph chr = true := by simp [hasGlyph, h32, h127]
  obtain ⟨t, he, -, -, seen, -⟩ := exec_result (i := .drawChar chr x y fg bg sc) hf ⟨Nat.zero_le _, nofun⟩
  refine ⟨t, he, fun col page hcol hpage => ?_⟩
  have consumer : t.consumer = ((glyphTrace s.params chr x y fg bg sc).foldl (observe s.params) (s.dcLevel, s.consumer)).2 := by
    rw [requestTrace, if_pos glyph] at seen
    exact congrArg Prod.snd seen
  rw [consumer, read_glyphTrace hp hcol hpage]
  by_cases box : inRect x y (5 * sc) (5 * sc) col page
  · have column : (col - x) / sc < 5 := Nat.div_lt_of_lt_mul (by rw [Nat.mul_comm]; omega)
    rw [if_pos box, if_pos box, fontRead_eq s.params h32 h127 column]
    rfl
  · rw [if_neg box, if_neg box]

end Sys2Proof.Machine
end

section
/-! The decoder and the encoder as inverses of each other, and the decoder's faults (30_encoding.md sections 1 to 3): what
decodes, which request a legal descriptor's fields spell, and which fields its encoding has. -/

namespace Sys2Proof

/-! ### What decodes -/

/-- A descriptor decodes exactly when its OP value is an opcode's and that opcode's reserved fields are 0 (R74, R75). -/
theorem decode_eq_ok {d : Desc} {i : Instr} :
    decode d = .ok i ↔
      ∃ o : Opcode, d.fields.op = o.value ∧ d.fields.reservedClear o = true ∧ d.fields.request o = i := by
  simp only [← Opcode.ofValue_eq_some]
  rw [decode]
  cases Opcode.ofValue d.fields.op with
  | none => simp
  | some o => by_cases hc : d.fields.reservedClear o <;> simp [hc]

/-- An OP value that is no opcode's is rejected, whatever the other fields are (R74, R146). -/
theorem decode_of_illegalOp {d : Desc} (h : d.fields.op.toNat = 0 ∨ 6 < d.fields.op.toNat) :
    decode d = .error .illegalOp := by
  rw [decode, Opcode.ofValue_eq_none.mpr h]

/-- A reserved field of a legal opcode that is not 0 is rejected (R75). -/
theorem decode_of_reservedField {d : Desc} {o : Opcode} (h : d.fields.op = o.value)
    (hc : d.fields.reservedClear o = false) : decode d = .error .reservedField := by
  rw [decode, Opcode.ofValue_eq_some.mpr h]
  simp [hc]

/-! ### The fields of a request -/

/-- An encoded request's OP value selects its opcode, and its reserved fields are 0 (R72, R73). -/
theorem encodedFields (i : Instr) : Laws.EncodedFields.Statement i := by
  cases i with
  | fillRect => exact Laws.EncodedFields.fillRect ..
  | drawPixel => exact Laws.EncodedFields.drawPixel ..
  | fillScreen => exact Laws.EncodedFields.fillScreen ..
  | drawImage => exact Laws.EncodedFields.drawImage ..
  | drawChar => exact Laws.EncodedFields.drawChar ..
  | drawString => exact Laws.EncodedFields.drawString ..

/-- The used fields of an encoded request spell the operands they were made of, when those fit (R70, R73). -/
theorem Instr.request_fields {i : Instr} (h : i.wf = true) : i.fields.request i.opcode = i := by
  cases i <;> simp_all [Instr.wf, Instr.fields, Instr.opcode, Fields.request, Nat.mod_eq_of_lt]

/-- The operands that a descriptor's fields spell fit them (R70). -/
theorem Fields.request_wf (f : Fields) (o : Opcode) : (f.request o).wf = true := by
  have fits {w : Nat} (v : BitVec w) : decide (v.toNat < 2 ^ w) = true := decide_eq_true v.isLt
  cases o <;> simp only [Fields.request, Instr.wf, fits, Bool.and_self]

/-- When the OP value is the opcode's and the reserved fields are 0, the request determines every field (R73). -/
theorem Fields.fields_request {f : Fields} {o : Opcode} (h : f.op = o.value) (hc : f.reservedClear o = true) :
    (f.request o).fields = f := by
  obtain ⟨op, scale, chr, rsv0, x, y, w, h, c0, c1, len⟩ := f
  cases o <;> simp_all [Fields.reservedClear, Fields.reserved, Fields.request, Instr.fields, ← BitVec.toNat_inj]

/-! ### The fields as numbers -/

/-- The fields as parts of the words' values (R69). -/
theorem Desc.fields_toNat (d : Desc) :
    d.fields.op.toNat = d.w0.toNat % 256 ∧ d.fields.scale.toNat = d.w0.toNat / 256 % 256 ∧
      d.fields.chr.toNat = d.w0.toNat / 65536 % 256 ∧ d.fields.rsv0.toNat = d.w0.toNat / 16777216 % 256 ∧
      d.fields.x.toNat = d.w1.toNat % 65536 ∧ d.fields.y.toNat = d.w1.toNat / 65536 % 65536 ∧
      d.fields.w.toNat = d.w2.toNat % 65536 ∧ d.fields.h.toNat = d.w2.toNat / 65536 % 65536 ∧
      d.fields.c0.toNat = d.w3.toNat % 65536 ∧ d.fields.c1.toNat = d.w3.toNat / 65536 % 65536 ∧
      d.fields.len.toNat = d.w4.toNat := by
  simp [Desc.fields, Nat.shiftRight_eq_div_pow]

/-- The table of R73 read from the words, and the one read from the fields, name the same bits. -/
theorem Desc.reservedNonzero_iff {d : Desc} {o : Opcode} (h : d.fields.op = o.value) :
    Machine.reservedNonzero d ↔ d.fields.reservedClear o = false := by
  have zero (n : Word) : n = 0 ↔ n.toNat = 0 := BitVec.toNat_inj.symm
  have op : o.value.toNat = d.w0.toNat % 256 := h ▸ d.fields_toNat.1
  cases o <;>
  · simp only [Opcode.value, BitVec.ofNat_eq_ofNat, BitVec.toNat_ofNat] at op
    simp only [Machine.reservedNonzero, zero, Fields.reservedClear, Fields.reserved, List.all_cons, List.all_nil,
      Bool.and_true, Bool.and_eq_false_iff, beq_eq_false_iff_ne, ne_eq, d.fields_toNat]
    omega

/-- An OP value from 1 to 6 is an opcode's (R72). -/
theorem Desc.exists_opcode {d : Desc} (h1 : 1 ≤ d.w0.toNat % 256) (h6 : d.w0.toNat % 256 ≤ 6) :
    ∃ o : Opcode, d.fields.op = o.value := by
  cases h : Opcode.ofValue d.fields.op with
  | none =>
    rw [Opcode.ofValue_eq_none, d.fields_toNat.1] at h
    omega
  | some o => exact ⟨o, Opcode.ofValue_eq_some.mp h⟩

/-- Only a legal opcode has reserved fields (R73). -/
theorem Desc.op_of_reservedNonzero {d : Desc} (h : Machine.reservedNonzero d) :
    1 ≤ d.w0.toNat % 256 ∧ d.w0.toNat % 256 ≤ 6 := by
  unfold Machine.reservedNonzero at h
  omega

namespace Machine

/-- Settles O2: the encoding's fields are the request's (`Fields.fields_desc`), and they spell its operands. -/
theorem encodedRequestDecodesBack : Obligations.EncodedRequestDecodesBack := by
  unfold Obligations.EncodedRequestDecodesBack
  intro i h
  obtain ⟨op, clear⟩ := encodedFields i
  refine decode_eq_ok.mpr ⟨i.opcode, Opcode.ofValue_eq_some.mp op, clear, ?_⟩
  rw [encode, Fields.fields_desc, Instr.request_fields h]

/-- Settles O3: the request determines the fields, and the fields are the whole descriptor (`Desc.desc_fields`). -/
theorem decodedDescriptorEncodesBack : Obligations.DecodedDescriptorEncodesBack := by
  unfold Obligations.DecodedDescriptorEncodesBack
  intro d i hd
  obtain ⟨o, op, clear, rfl⟩ := decode_eq_ok.mp hd
  exact ⟨by rw [encode, Fields.fields_request op clear, Desc.desc_fields], Fields.request_wf _ o⟩

/-- Settles O8: its OP value is an opcode's, and that opcode's reserved fields are 0. -/
theorem everyOtherDescriptorIsLegal : Obligations.EveryOtherDescriptorIsLegal := by
  unfold Obligations.EveryOtherDescriptorIsLegal
  intro d h1 h6 hr
  obtain ⟨o, op⟩ := Desc.exists_opcode h1 h6
  rw [Desc.reservedNonzero_iff op, Bool.not_eq_false] at hr
  exact ⟨_, decode_eq_ok.mpr ⟨o, op, hr, rfl⟩⟩

/-! ### The faults of the decoder -/

/-- The step that takes a rejected descriptor raises its fault and does nothing else (R78, R144). -/
theorem step_of_decode_error {s : State} {d : Desc} {rest : List Word} {e : DecodeFault} (hi : s.engState = .idle)
    (hc : s.credit ≠ some 0) (hq : s.reqq = d.words ++ rest) (hd : decode d = .error e) :
    step s = .next { s with
      req := d, reqq := rest, reqIndex := s.reqIndex + 1, credit := s.credit.map (· - 1)
      engState := .faulted, fcode := decodeFaultCode e, faultW0 := d.w0, todo := [] } := by
  have hr : s.canRun = false := State.canRun_of_not_run (by rw [hi]; decide)
  rw [step, if_neg (by rw [hr]; decide), State.takeDescriptor_of_words hi hc hq]
  simp only [runDescriptor, hd]
  rfl

/-- Settles O6: the decoder rejects the OP value first. -/
theorem illegalOpRaisesFault : Obligations.IllegalOpRaisesFault := by
  unfold Obligations.IllegalOpRaisesFault
  intro s d rest hi hc hq hop
  rw [← d.fields_toNat.1] at hop
  exact step_of_decode_error hi hc hq (decode_of_illegalOp hop)

/-- Settles O7: the OP value is an opcode's, one of whose reserved fields is not 0. -/
theorem reservedFieldRaisesFault : Obligations.ReservedFieldRaisesFault := by
  unfold Obligations.ReservedFieldRaisesFault
  intro s d rest hi hc hq hr
  obtain ⟨h1, h6⟩ := Desc.op_of_reservedNonzero hr
  obtain ⟨o, op⟩ := Desc.exists_opcode h1 h6
  exact step_of_decode_error hi hc hq (decode_of_reservedField op ((Desc.reservedNonzero_iff op).mp hr))

/-- Settles O1: the eight words of the test vectors, evaluated. -/
theorem specDescriptorsDecode : Obligations.SpecDescriptorsDecode := by
  unfold Obligations.SpecDescriptorsDecode
  decide

end Machine

end Sys2Proof
end

section
/-! The colour format and the assembler's lines (30_encoding.md sections 4 and 5). -/

namespace Sys2Proof.Machine

/-! ### RGB565 -/

/-- The colour of three bytes as a number (R84). -/
theorem rgb565_eq (r g b : Byte) :
    rgb565 r g b = BitVec.ofNat 16 (r.toNat / 8 * 2048 + g.toNat / 4 * 32 + b.toNat / 8) := by
  simpa using rgb565_ofNat r.isLt g.isLt b.isLt

/-- The channels of a colour as numbers (R85). -/
theorem rgb565Decode_eq (v : Color) :
    rgb565Decode v = (BitVec.ofNat 8 (v.toNat / 2048 * 8), BitVec.ofNat 8 (v.toNat / 32 % 64 * 4),
      BitVec.ofNat 8 (v.toNat % 32 * 8)) := by
  simp only [rgb565Decode, Prod.mk.injEq, ← BitVec.toNat_inj, BitVec.toNat_append, BitVec.extractLsb'_toNat,
    BitVec.toNat_ofNat, Nat.zero_mod, Nat.or_zero, Nat.shiftRight_eq_div_pow, Nat.shiftLeft_eq]
  omega

/-- Three bytes whose top 5, 6 and 5 bits are a colour's channels encode to it (R85). -/
theorem rgb565_of_channels {v : Color} {r g b : Byte} (hr : r.toNat / 8 = v.toNat / 2048)
    (hg : g.toNat / 4 = v.toNat / 32 % 64) (hb : b.toNat / 8 = v.toNat % 32) : rgb565 r g b = v := by
  have sum : v.toNat / 2048 * 2048 + v.toNat / 32 % 64 * 32 + v.toNat % 32 = v.toNat := by omega
  rw [rgb565_eq, hr, hg, hb, sum, BitVec.ofNat_toNat, BitVec.setWidth_eq]

/-- Settles O52: the decoded channels keep the colour's bits, so encoding gives it back. -/
theorem colourRoundTrip : Obligations.ColourRoundTrip := by
  unfold Obligations.ColourRoundTrip
  refine ⟨rgb565_eq, rgb565Decode_eq, fun v => ?_, fun v r g b => rgb565_of_channels⟩
  have lt := v.isLt
  rw [rgb565Decode_eq]
  apply rgb565_of_channels <;> rw [BitVec.toNat_ofNat] <;> omega

/-! ### The assembler's lines -/

section
variable {name : List Char} {os : List Operand} {out : AsmOutput}

/-! Reading a line gives what the line spells, by the number of its operands. -/

/-- A `.src` line is one of the assembler's lines (R82). -/
theorem Assembles.of_srcLine (h : assembleLine.srcLine name os = some out) : Assembles name os out := by
  obtain ⟨rfl, ns, hn, hb, rfl, rfl⟩ := srcLine_eq_some.mp h
  exact .src hn hb

/-- A line of one operand is a FILL_SCREEN, a `.word` or a `.src`. -/
theorem Assembles.of_oneOperand {c : Operand} (h : assembleLine name [c] = some out) : Assembles name [c] out := by
  simp only [assembleLine, Option.bind_eq_bind, Option.pure_def] at h
  split at h
  · next hn =>
    simp only [Option.bind_eq_some_iff, colorIn_eq_some, Option.some.injEq] at h
    obtain ⟨v, hc, rfl⟩ := h
    exact hn ▸ .fillScreen hc
  · split at h
    · next hn =>
      simp only [Option.bind_eq_some_iff, numIn_eq_some, Option.some.injEq] at h
      obtain ⟨v, ⟨rfl, hv⟩, rfl⟩ := h
      exact hn ▸ .word hv
    · exact .of_srcLine h

/-- A line of three operands is a DRAW_PIXEL or a `.src`. -/
theorem Assembles.of_threeOperands {x y c : Operand} (h : assembleLine name [x, y, c] = some out) :
    Assembles name [x, y, c] out := by
  simp only [assembleLine, Option.bind_eq_bind, Option.pure_def] at h
  split at h
  · next hn =>
    simp only [Option.bind_eq_some_iff, numIn_eq_some, colorIn_eq_some, Option.some.injEq] at h
    obtain ⟨x, ⟨rfl, hx⟩, y, ⟨rfl, hy⟩, v, hc, rfl⟩ := h
    exact hn ▸ .drawPixel hx hy hc
  · exact .of_srcLine h

/-- A line of four operands is an HLINE, a VLINE or a `.src`. -/
theorem Assembles.of_fourOperands {x y len c : Operand} (h : assembleLine name [x, y, len, c] = some out) :
    Assembles name [x, y, len, c] out := by
  simp only [assembleLine, Option.bind_eq_bind, Option.pure_def] at h
  split at h
  · next hn =>
    simp only [Option.bind_eq_some_iff, numIn_eq_some, colorIn_eq_some, Option.some.injEq] at h
    obtain ⟨x, ⟨rfl, hx⟩, y, ⟨rfl, hy⟩, len, ⟨rfl, hl⟩, v, hc, rfl⟩ := h
    exact hn ▸ .hline hx hy hl hc
  · split at h
    · next hn =>
      simp only [Option.bind_eq_some_iff, numIn_eq_some, colorIn_eq_some, Option.some.injEq] at h
      obtain ⟨x, ⟨rfl, hx⟩, y, ⟨rfl, hy⟩, len, ⟨rfl, hl⟩, v, hc, rfl⟩ := h
      exact hn ▸ .vline hx hy hl hc
    · exact .of_srcLine h

/-- A line of five operands is a FILL_RECT, a DRAW_IMAGE, whose last operand lists bytes, or a `.src`. -/
theorem Assembles.of_fiveOperands {x y w h c : Operand} (hl : assembleLine name [x, y, w, h, c] = some out) :
    Assembles name [x, y, w, h, c] out := by
  simp only [assembleLine, Option.bind_eq_bind, Option.pure_def] at hl
  split at hl
  · next hn =>
    simp only [Option.bind_eq_some_iff, numIn_eq_some, colorIn_eq_some, Option.some.injEq] at hl
    obtain ⟨x, ⟨rfl, hx⟩, y, ⟨rfl, hy⟩, w, ⟨rfl, hw⟩, h, ⟨rfl, hh⟩, v, hc, rfl⟩ := hl
    exact hn ▸ .fillRect hx hy hw hh hc
  · split at hl
    · next hn =>
      split at hl
      · simp only [Option.bind_eq_some_iff, byteList_eq_some, Option.ite_none_right_eq_some, numIn_eq_some,
          Option.some.injEq] at hl
        obtain ⟨bs, ⟨hb, rfl⟩, hlen, x, ⟨rfl, hx⟩, y, ⟨rfl, hy⟩, w, ⟨rfl, hw⟩, h, ⟨rfl, hh⟩, rfl⟩ := hl
        rw [List.length_map] at hlen ⊢
        exact hn ▸ .drawImage hx hy hw hh hb hlen
      · cases hl
    · exact .of_srcLine hl

/-- A line of six operands is a DRAW_CHAR, a DRAW_STRING, whose first operand is a text, or a `.src`. -/
theorem Assembles.of_sixOperands {c x y fg bg sc : Operand} (h : assembleLine name [c, x, y, fg, bg, sc] = some out) :
    Assembles name [c, x, y, fg, bg, sc] out := by
  simp only [assembleLine, Option.bind_eq_bind, Option.pure_def] at h
  split at h
  · next hn =>
    simp only [Option.bind_eq_some_iff, numIn_eq_some, colorIn_eq_some, charIn_eq_some, Option.some.injEq] at h
    obtain ⟨k, hk, x, ⟨rfl, hx⟩, y, ⟨rfl, hy⟩, f, hf, b, hb, sc, ⟨rfl, hs⟩, rfl⟩ := h
    exact hn ▸ .drawChar hk hx hy hf hb hs
  · split at h
    · next hn =>
      split at h
      · simp only [Option.ite_none_right_eq_some, Option.bind_eq_some_iff, numIn_eq_some, colorIn_eq_some,
          Option.some.injEq] at h
        obtain ⟨hl, x, ⟨rfl, hx⟩, y, ⟨rfl, hy⟩, f, hf, b, hb, sc, ⟨rfl, hs⟩, rfl⟩ := h
        exact hn ▸ .drawString hl hx hy hf hb hs
      · cases h
    · exact .of_srcLine h

/-- What the assembler yields for a line, the line spells: by the number of its operands. -/
theorem Assembles.of_assembleLine (h : assembleLine name os = some out) : Assembles name os out :=
  match os, h with
  | [_], h => .of_oneOperand h
  | [_, _, _], h => .of_threeOperands h
  | [_, _, _, _], h => .of_fourOperands h
  | [_, _, _, _, _], h => .of_fiveOperands h
  | [_, _, _, _, _, _], h => .of_sixOperands h
  | [], h | [_, _], h | _ :: _ :: _ :: _ :: _ :: _ :: _ :: _, h => .of_srcLine h

/-! What a line spells is what reading it gives. -/

/-- A number that fits is read as itself (R80). -/
theorem numIn_num {width n : Nat} (h : n < 2 ^ width) : numIn width (.num n) = some n := numIn_eq_some.mpr ⟨rfl, h⟩

/-- `.src` is no other line's name. -/
theorem assembleLine_src (os : List Operand) :
    assembleLine ".src".toList os = assembleLine.srcLine ".src".toList os := by
  unfold assembleLine
  split <;> simp

/-- Each of the assembler's lines is read as what it yields. -/
theorem Assembles.assembleLine_eq (h : Assembles name os out) : assembleLine name os = some out := by
  cases h with
  | fillRect hx hy hw hh hc => simp [assembleLine, numIn_num, colorIn_eq_some.mpr hc, requestOutput, *]
  | drawPixel hx hy hc => simp [assembleLine, numIn_num, colorIn_eq_some.mpr hc, requestOutput, *]
  | fillScreen hc => simp [assembleLine, colorIn_eq_some.mpr hc, requestOutput]
  | drawImage hx hy hw hh hb hl =>
    simp [assembleLine, numIn_num, byteList_eq_some.mpr ⟨hb, rfl⟩, requestOutput, show _ < 4294967296 from hl, *]
  | drawChar hk hx hy hf hb hs =>
    simp [assembleLine, numIn_num, colorIn_eq_some.mpr hf, colorIn_eq_some.mpr hb, charIn_eq_some.mpr hk, requestOutput, *]
  | drawString hl hx hy hf hb hs =>
    simp [assembleLine, numIn_num, colorIn_eq_some.mpr hf, colorIn_eq_some.mpr hb, requestOutput,
      show _ < 4294967296 from hl, *]
  | hline hx hy hl hc => simp [assembleLine, numIn_num, colorIn_eq_some.mpr hc, requestOutput, Machine.hline, *]
  | vline hx hy hl hc => simp [assembleLine, numIn_num, colorIn_eq_some.mpr hc, requestOutput, Machine.vline, *]
  | src hn hb => exact (assembleLine_src _).trans (srcLine_eq_some.mpr ⟨rfl, _, hn, hb, rfl, rfl⟩)
  | word hv => simp [assembleLine, numIn_num hv]

theorem CharOperand.lt {o : Operand} {k : Nat} (h : CharOperand o k) : k < 256 := by cases h <;> assumption

/-- A line yields a well-formed request's words and source bytes, or is a `.word` or a `.src`. -/
theorem Assembles.wellFormed (h : Assembles name os out) :
    (∃ i : Instr, i.wf = true ∧ out.words = (encode i).words ∧ out.bytes.length = sourceBytes i) ∨
      (name = ".word".toList ∧ out.bytes = []) ∨ (name = ".src".toList ∧ out.words = []) := by
  cases h with
  | src hn hb => exact .inr (.inr ⟨rfl, rfl⟩)
  | word hv => exact .inr (.inl ⟨rfl, rfl⟩)
  | drawImage hx hy hw hh hb hl =>
    exact .inl ⟨_, by simp [Instr.wf, show _ < 4294967296 from hl, *], rfl, List.length_map ..⟩
  | drawString hl hx hy hf hb hs => exact .inl ⟨_, by simp [Instr.wf, show _ < 4294967296 from hl, *], rfl, rfl⟩
  | drawChar hk hx hy hf hb hs => exact .inl ⟨_, by simp [Instr.wf, hk.lt, *], rfl, rfl⟩
  | _ => exact .inl ⟨_, by simp [Instr.wf, *], rfl, rfl⟩

end

/-- Settles O54: the lines read are those that `Assembles` lists, each of which yields a request's words or is raw. -/
theorem assembledLinesAreWellFormed : Obligations.AssembledLinesAreWellFormed := by
  unfold Obligations.AssembledLinesAreWellFormed
  exact fun name os =>
    ⟨fun out => ⟨Assembles.of_assembleLine, Assembles.assembleLine_eq⟩, fun out => Assembles.wellFormed⟩

/-- Settles O53: the extent 1 is read as itself, by `numIn_num`. -/
theorem linesAssembleToFillRect : Obligations.LinesAssembleToFillRect := by
  unfold Obligations.LinesAssembleToFillRect
  intro x y len c
  have one : numIn 16 (.num 1) = some 1 := numIn_num (by decide)
  constructor <;> simp [assembleLine, one, hline, vline]

end Sys2Proof.Machine
end

section
/-! The address window clipper (40_clipper.md): when SetWindow returns NoOp, where its window lies, and what it sends. -/

namespace Sys2Proof.Machine

/-! ### The clip -/

/-- The clip of a rectangle that is neither off the surface nor empty (R90, R93). -/
theorem clip_of_drawable {x y w h : Nat} (hn : ¬(240 ≤ x ∨ 320 ≤ y ∨ w = 0 ∨ h = 0)) :
    clip x y w h = .window x y (min w (240 - x)) (min h (320 - y)) := if_neg hn

theorem clip_eq_noOp_iff {x y w h : Nat} : clip x y w h = .noOp ↔ 240 ≤ x ∨ 320 ≤ y ∨ w = 0 ∨ h = 0 :=
  ⟨clip_noOp, fun off => if_pos off⟩

/-! ### The call -/

theorem State.micro_setWindow (x y w h : Nat) (s : State) :
    s.micro (.setWindow x y w h) = s.setWindow x y w h fun _ => [] := rfl

theorem State.setWindow_noOp {x y w h : Nat} (hc : clip x y w h = .noOp) (next : Nat → List Micro) (s : State) :
    s.setWindow x y w h next = s := by rw [State.setWindow, hc]

theorem State.setWindow_window {x y w h x' y' w' h' : Nat} (hc : clip x y w h = .window x' y' w' h')
    (next : Nat → List Micro) (s : State) :
    s.setWindow x y w h next =
      (s.loadWindow x' y' w' h').push
        (Machine.emits (transactions (windowBytes s.params x' y' w' h')) ++ next (w' * h')) := by
  rw [State.setWindow, hc, ← windowEvents_eq]

/-- Settles O17: the two sides of the clip's own test, and the call follows the clip. -/
theorem noOpExactlyOffSurfaceOrEmpty : Obligations.NoOpExactlyOffSurfaceOrEmpty := by
  unfold Obligations.NoOpExactlyOffSurfaceOrEmpty
  refine fun x y w h s => ⟨clip_eq_noOp_iff, fun off => ?_, clip_of_drawable⟩
  rw [State.micro_setWindow, State.setWindow_noOp (clip_eq_noOp_iff.mpr off)]

/-- Settles O18: the extents are cut to the distance from the origin to the surface's edge, by `clip_window`. -/
theorem windowLiesOnSurface : Obligations.WindowLiesOnSurface := by
  unfold Obligations.WindowLiesOnSurface
  intro x y w h x' y' w' h' hc
  obtain ⟨hx', hy', hw', hh', hx, hy, hw, hh⟩ := clip_window hc
  omega

/-! ### Transactions -/

/-- A one-byte transaction has four events (R45). -/
theorem transactions_length (bs : List (Level × Byte)) : (transactions bs).length = 4 * bs.length := by
  simp [transactions, List.length_flatMap, Nat.mul_comm]

/-- Transactions transfer their bytes in order, whatever the framing (R48). -/
theorem transferred_transactions (bs : List (Level × Byte)) : transferred (transactions bs) = bs.map Prod.snd := by
  induction bs with
  | nil => rfl
  | cons b bs ih => rw [List.map_cons, ← ih]; rfl

/-- The high byte of a column is 0 (R92). -/
theorem hi8_of_lt {v : Nat} (hv : v < 256) : hi8 v = 0 := by rw [hi8, Nat.div_eq_of_lt hv]; rfl

/-- Settles O19: the bytes are those of `windowBytes`, and by
`windowLiesOnSurface` no column reaches 256 and no page 512. -/
theorem windowTransactions : Obligations.WindowTransactions := by
  unfold Obligations.WindowTransactions
  intro x y w h s
  rw [State.micro_setWindow]
  refine ⟨fun x' y' w' h' hc => ?_, fun hc => by rw [State.setWindow_noOp hc]⟩
  obtain ⟨rfl, rfl, hx, hy, -, -, -, -, -, -, lastColumn, lastPage⟩ := windowLiesOnSurface x y w h x' y' w' h' hc
  refine ⟨?_, transactions_length _, ?_, by omega, by omega⟩
  · rw [State.setWindow_window hc, List.append_nil]
    rfl
  · have startHigh : hi8 x' = 0 := hi8_of_lt (by omega)
    have endHigh : hi8 (x' + w' - 1) = 0 := hi8_of_lt (by omega)
    rw [transferred_transactions, windowBytes, startHigh, endHigh]
    rfl

/-! ### The command bytes of a trace -/

/-- The command bytes of two traces one after the other: the second begins with the framing the first ends with. -/
theorem commandBytes_append (es fs : List Event) (l : Level) :
    commandBytes l (es ++ fs) = commandBytes l es ++ commandBytes (es.foldl levelAfter l) fs := by
  induction es generalizing l with
  | nil => rfl
  | cons e es ih => cases e <;> cases l <;> simp [commandBytes, levelAfter, ih]

/-- Bytes sent with framing DATA are no command bytes. -/
theorem commandBytes_xfers (bs : List Byte) (es : List Event) :
    commandBytes .data (bs.map .xfer ++ es) = commandBytes .data es := by
  induction bs with
  | nil => rfl
  | cons b bs ih => exact ih

/-- A pixel burst is framed DATA from its first byte (R46), so it has no command byte. -/
theorem commandBytes_burst (bs : List Byte) (l : Level) : commandBytes l (burst bs) = [] := by
  cases l <;> exact commandBytes_xfers bs [.desel]

/-- A window's command bytes are its three commands (R90). -/
theorem commandBytes_window (p : Params) (x y w h : Nat) (l : Level) :
    commandBytes l (transactions (windowBytes p x y w h)) = [p.cmdCaset, p.cmdPaset, p.cmdRamwr] := by
  cases l <;> rfl

/-! ### Triples -/

/-- The command bytes of the trace are triples CASET, PASET, RAMWR, whatever the framing before it (R98). -/
def InTriples (p : Params) (es : List Event) : Prop :=
  ∀ l, ∃ n, commandBytes l es = (List.replicate n [p.cmdCaset, p.cmdPaset, p.cmdRamwr]).flatten

section
variable {p : Params}

theorem InTriples.nil : InTriples p [] := fun _ => ⟨0, rfl⟩

theorem InTriples.append {es fs : List Event} (he : InTriples p es) (hf : InTriples p fs) : InTriples p (es ++ fs) := by
  intro l
  obtain ⟨n, hn⟩ := he l
  obtain ⟨m, hm⟩ := hf (es.foldl levelAfter l)
  exact ⟨n + m, by rw [commandBytes_append, hn, hm, List.replicate_add, List.flatten_append]⟩

theorem InTriples.flatMap {α : Type} {f : α → List Event} (hf : ∀ a, InTriples p (f a)) (as : List α) :
    InTriples p (as.flatMap f) := by
  induction as with
  | nil => exact .nil
  | cons a as ih => exact (hf a).append ih

/-- A window and the burst into it: one triple. -/
theorem InTriples.windowBurst {x y w h : Nat} {bs : List Byte} :
    InTriples p (transactions (windowBytes p x y w h) ++ burst bs) :=
  .append (fun l => ⟨1, commandBytes_window p x y w h l⟩) fun l => ⟨0, commandBytes_burst bs l⟩

theorem fillTrace_inTriples {x y w h : Nat} {v : Color} : InTriples p (fillTrace p x y w h v) := by
  unfold fillTrace
  split
  · exact .nil
  · exact .windowBurst

theorem imageTrace_inTriples {x y w h : Nat} {src : List Byte} : InTriples p (imageTrace p x y w h src) := by
  unfold imageTrace
  split
  · exact .nil
  · exact .windowBurst

theorem glyphTrace_inTriples {c x y : Nat} {fg bg : Color} {sc : Nat} :
    InTriples p (glyphTrace p c x y fg bg sc) :=
  .flatMap (fun _ => .flatMap (fun _ => fillTrace_inTriples) _) _

theorem stringTrace_inTriples {x y : Nat} {fg bg : Color} {sc : Nat} {cs : List Byte} :
    InTriples p (stringTrace p x y fg bg sc cs) := .flatMap (fun _ => glyphTrace_inTriples) _

/-- Every request's trace is made of windows, each with its burst. -/
theorem requestTrace_inTriples (q : List Byte) (i : Instr) : InTriples p (requestTrace p q i) := by
  cases i with
  | fillRect | drawPixel | fillScreen => rw [requestTrace]; exact fillTrace_inTriples
  | drawImage => exact imageTrace_inTriples
  | drawChar =>
    rw [requestTrace]
    split
    · exact glyphTrace_inTriples
    · exact .nil
  | drawString => exact stringTrace_inTriples

end

/-- Settles O33: the request emits its trace, by `exec_result`, whose command bytes are triples. -/
theorem commandsComeAsTriples : Obligations.CommandsComeAsTriples := by
  unfold Obligations.CommandsComeAsTriples
  intro i s hf hs
  obtain ⟨t, he, -, trace, -⟩ := exec_result hf hs
  obtain ⟨n, triples⟩ := requestTrace_inTriples (p := s.params) s.srcq i .data
  exact ⟨t, _, n, he, trace, triples⟩

end Sys2Proof.Machine
end

section
/-! The filled rectangles and images of the pixel stream writer (41_pixel_stream.md): FILL_RECT, DRAW_PIXEL, FILL_SCREEN and
DRAW_IMAGE from beginning to end, the bytes they transfer and what they leave on the screen. -/

namespace Sys2Proof.Machine

/-! ### The filled rectangles -/

/-- The program of a filled rectangle (R102) runs to its end and changes only the output and the working registers of the
clipper and of the pixel stream. -/
theorem State.request_fillRect {s : State} (hf : s.free) (x y w h : Nat) (v : Color) :
    FillFrame s (s.request [.fillRect x y w h v]) ∧
      (s.request [.fillRect x y w h v]).trace = s.trace ++ fillTrace s.params x y w h v ∧
      ((s.request [.fillRect x y w h v]).dcLevel, (s.request [.fillRect x y w h v]).consumer) =
        s.observed (fillTrace s.params x y w h v) := by
  obtain ⟨hc, hx, ho⟩ := hf
  have g : Going (s.started [.fillRect x y w h v]) := ⟨rfl, hc, hx⟩
  have painted := State.painted_drawn x y w h v (s.started [.fillRect x y w h v]) hx ho
  obtain ⟨col, row, gb⟩ := State.painted_col x y w h v (s.started [.fillRect x y w h v]) hx
  have completes : Completes (fillTrace s.params x y w h v) s.srcq (s.started [.fillRect x y w h v])
      (((s.started [.fillRect x y w h v]).painted x y w h v).withTodo []) :=
    ⟨⟨500000, by omega, g.fillRect rfl⟩, rfl, by rw [painted.frame]; rfl, (painted.withTodo []).laid⟩
  rw [completes.request hc g]
  refine ⟨?_, completes.laid.trace, completes.laid.seen⟩
  have frame := painted.frame
  simp only [col, row, gb] at frame
  exact congrArg (fun t => (t.withTodo []).withEngState .idle) frame

/-- Settles O20: the request is the program of the filled rectangle. -/
theorem fillRectResult : Obligations.FillRectResult := by
  unfold Obligations.FillRectResult
  exact fun x y w h c s hf => ⟨_, rfl, s.request_fillRect hf x y w h c⟩

/-- Settles O21: the request is the program of the 1 x 1 rectangle. -/
theorem drawPixelResult : Obligations.DrawPixelResult := by
  unfold Obligations.DrawPixelResult
  exact fun x y c s hf => ⟨_, rfl, s.request_fillRect hf x y 1 1 c⟩

/-- Settles O22: the request is the program of the whole surface's rectangle. -/
theorem fillScreenResult : Obligations.FillScreenResult := by
  unfold Obligations.FillScreenResult
  exact fun c s hf => ⟨_, rfl, s.request_fillRect hf 0 0 240 320 c⟩

/-! ### The byte count of an image -/

theorem imageNeed_noOp {x y w h : Nat} (hc : clip x y w h = .noOp) : imageNeed x y w h = 0 := by rw [imageNeed, hc]

theorem imageNeed_window {x y w h x' y' w' h' : Nat} (hc : clip x y w h = .window x' y' w' h') :
    imageNeed x y w h = 2 * w' * h' := by rw [imageNeed, hc]

/-- Settles O24: a need that exceeds LEN is not 0, so the rectangle is drawn and its need is twice the clipped area. -/
theorem shortImageRaisesFault : Obligations.ShortImageRaisesFault := by
  unfold Obligations.ShortImageRaisesFault
  intro x y w h len s hx hy short
  have drawable : ¬(240 ≤ x ∨ 320 ≤ y ∨ w = 0 ∨ h = 0) := by
    rintro (off | off | rfl | rfl)
    · omega
    · omega
    · simp at short
    · simp at short
  rw [exec, execDrawImage, if_pos (imageNeed_window (clip_of_drawable drawable) ▸ short)]
  rfl

/-! ### DRAW_IMAGE -/

theorem imageTrace_closed (p : Params) (x y w h : Nat) (src : List Byte) :
    (imageTrace p x y w h src).foldl selAfter false = false := by
  unfold imageTrace
  split
  · rfl
  · rw [List.foldl_append, burst_closed]

section
variable {s : State} (g : Going s) {x y w h : Nat}
include g

/-- DRAW_IMAGE's program when it draws nothing (R113): the state at its end. -/
theorem Going.imageNoOp_written {len : Nat} (ht : s.todo = imageProgram x y w h len) (hc : clip x y w h = .noOp)
    (hl : len ≤ s.srcq.length) :
    Within (len + 2) s (s.written (imageTrace s.params x y w h s.srcq) (s.srcq.drop len) 0 s.pcnt []) := by
  rw [imageProgram_noOp (imageNeed_noOp hc)] at ht
  have loaded : Steps 1 s ((s.withSource s.srcq len).withTodo [.drain]) :=
    g.micro ht (by simp [State.waitsForSource, ht])
  have drained := ((g.withSource s.srcq len).withTodo [.drain]).drain (n := len) rfl rfl
    (List.length_take_of_le hl) (List.take_append_drop ..).symm
  rw [imageTrace_noOp hc]
  exact (loaded.trans drained).within.mono (by omega)

/-- DRAW_IMAGE's program when it draws (R111), with the bytes `bs` to send and `ds` to discard queued: the state at its end. -/
theorem Going.imageWindow_written {x' y' w' h' : Nat} {bs ds q : List Byte}
    (ht : s.todo = imageProgram x y w h (bs.length + ds.length)) (hc : clip x y w h = .window x' y' w' h')
    (hb : bs.length = imageNeed x y w h) (hq : s.srcq = bs ++ (ds ++ q)) :
    Within (60 + (4 * bs.length + 1) + (ds.length + 2)) s
      ((s.loadWindow x' y' w' h').written (imageTrace s.params x y w h s.srcq) q 0 0 []) := by
  have gw : Going (s.loadWindow x' y' w' h') := g.loadWindow ..
  have opened := g.imageOpened ht hc (imageNeed_pos hc)
  have sent := gw.imageBytes_written (transactions (windowBytes s.params x' y' w' h') ++ burstOpen) bs (ds ++ q)
    (bs.length + ds.length) imageTail
  have closed := gw.imageTail_written (transactions (windowBytes s.params x' y' w' h') ++ burstOpen ++ bs.map .xfer) ds q 0
  rw [imageTrace_window hc, hq, ← hb, List.take_left]
  rw [← hb, hq] at opened
  rw [Nat.add_sub_cancel_left] at sent
  exact (opened.trans sent.within).trans closed.within

/-- DRAW_IMAGE's program (R111), when its bytes are queued: the state at its end. -/
theorem Going.image_written {len : Nat} (ht : s.todo = imageProgram x y w h len) (hn : imageNeed x y w h ≤ len)
    (hl : len ≤ s.srcq.length) :
    ∃ wx wy ww wh k, Within (4 * len + 63) s
      ((s.loadWindow wx wy ww wh).written (imageTrace s.params x y w h s.srcq) (s.srcq.drop len) 0 k []) := by
  cases hc : clip x y w h with
  | noOp => exact ⟨s.wx, s.wy, s.ww, s.wh, s.pcnt, (g.imageNoOp_written ht hc hl).mono (by omega)⟩
  | window x' y' w' h' =>
    have sends : (s.srcq.take (imageNeed x y w h)).length = imageNeed x y w h := List.length_take_of_le (hn.trans hl)
    have discards : ((s.srcq.take len).drop (imageNeed x y w h)).length = len - imageNeed x y w h := by
      rw [List.length_drop, List.length_take_of_le hl]
    have queued : s.srcq = s.srcq.take (imageNeed x y w h) ++
        ((s.srcq.take len).drop (imageNeed x y w h) ++ s.srcq.drop len) := by
      rw [← List.append_assoc, ← Nat.min_eq_left hn, ← List.take_take, Nat.min_eq_left hn, List.take_append_drop,
        List.take_append_drop]
    have run := g.imageWindow_written (by rw [sends, discards, Nat.add_sub_cancel' hn]; exact ht) hc sends queued
    exact ⟨x', y', w', h', 0, run.mono (by omega)⟩

end

/-- The end of an image's run differs from its beginning in the output and the image's registers. -/
theorem State.written_imageFrame {s : State} (hx : s.xferBusy = false) (ho : s.selOpen = false) {program : List Micro}
    {x y w h : Nat} {es : List Event} (he : es.foldl selAfter false = false) (q : List Byte) (n k : Nat) :
    ImageFrame s ((((s.started program).loadWindow x y w h).written es q n k []).withEngState .idle) := by
  rw [State.written, State.emitAll_eq es ((s.started program).loadWindow x y w h) hx]
  simp only [ImageFrame, State.started, State.loadWindow, State.withSource, State.withTodo, State.withPcnt,
    State.withEngState, ho, he]

/-- Settles O23: the program runs to its end, `Going.image_written`, which differs from its beginning by
`State.written_imageFrame`. -/
theorem drawImageResult : Obligations.DrawImageResult := by
  unfold Obligations.DrawImageResult
  rintro x y w h len s ⟨hc, hx, ho⟩ hn hl
  have g : Going (s.started (imageProgram x y w h len)) := ⟨rfl, hc, hx⟩
  obtain ⟨wx, wy, ww, wh, k, run⟩ := g.image_written rfl hn hl
  have closed := imageTrace_closed s.params x y w h s.srcq
  have laid := g.written_laid ho (x := wx) (y := wy) (w := ww) (h := wh) closed (s.srcq.drop len) 0 k []
  have completes : Completes (imageTrace s.params x y w h s.srcq) (s.srcq.drop len) (s.started (imageProgram x y w h len)) _ :=
    ⟨⟨4 * len + 63, by show _ < 2 ^ 24 * (s.srcq.length + 2); omega, run⟩, rfl, rfl, laid⟩
  refine ⟨_, ?_, State.written_imageFrame hx ho closed _ 0 k, laid.trace, laid.seen, rfl, rfl⟩
  rw [exec, execDrawImage, if_neg (Nat.not_lt.mpr hn)]
  exact congrArg Host.Outcome.next (completes.request hc g)

/-! ### Counts -/

theorem transferred_append (es fs : List Event) : transferred (es ++ fs) = transferred es ++ transferred fs := by
  induction es with
  | nil => rfl
  | cons e es ih => cases e <;> simp [transferred, ih]

/-- A burst transfers its bytes in order (R46, R48). -/
theorem transferred_burst (bs : List Byte) : transferred (burst bs) = bs := by
  rw [burst, transferred_append, transferred_append]
  induction bs with
  | nil => rfl
  | cons b bs ih => exact congrArg (b :: ·) ih

/-- A burst has three events beside its bytes (R46). -/
theorem burst_length (bs : List Byte) : (burst bs).length = bs.length + 3 := by simp [burst]

/-- A burst is one bracket (R46). -/
theorem burst_brackets (bs : List Byte) : (burst bs).count .sel = 1 := by
  induction bs with
  | nil => rfl
  | cons b bs ih => simpa [burst, List.count_cons] using ih

/-- Every transaction is one bracket (R45). -/
theorem transactions_count_sel (bs : List (Level × Byte)) : (transactions bs).count .sel = bs.length := by
  induction bs with
  | nil => rfl
  | cons b bs ih => simpa [transactions, List.count_cons] using ih

/-- A pixel has two bytes (R51). -/
theorem pixelBytes_length (n : Nat) (v : Color) : (pixelBytes n v).length = 2 * n := by
  induction n with
  | zero => rfl
  | succ n ih => rw [pixelBytes_succ, List.length_cons, List.length_cons, ih]; omega

theorem fillTrace_noOp {p : Params} {x y w h : Nat} {v : Color} (hc : clip x y w h = .noOp) : fillTrace p x y w h v = [] := by
  rw [fillTrace, hc]

theorem fillTrace_window {p : Params} {x y w h x' y' w' h' : Nat} {v : Color} (hc : clip x y w h = .window x' y' w' h') :
    fillTrace p x y w h v = transactions (windowBytes p x' y' w' h') ++ burst (pixelBytes (w' * h') v) := by
  rw [fillTrace, hc]

/-- Settles O27: the window's eleven transactions and one burst of its area. -/
theorem fillCounts : Obligations.FillCounts := by
  unfold Obligations.FillCounts
  refine fun p x y w h c => ⟨fun x' y' w' h' hc => ?_, fillTrace_noOp⟩
  have windowLength : (windowBytes p x' y' w' h').length = 11 := rfl
  rw [fillTrace_window hc]
  refine ⟨?_, ?_, ?_⟩
  · rw [List.length_append, transactions_length, burst_length, pixelBytes_length, windowLength]
    omega
  · rw [transferred_append, transferred_transactions, transferred_burst, List.length_append, List.length_map, windowLength,
      pixelBytes_length]
  · rw [List.count_append, transactions_count_sel, burst_brackets, windowLength]

/-- Settles O28: the window's eleven bytes, and then the burst's, which are the source bytes that the clipped area needs. -/
theorem imageBytes : Obligations.ImageBytes := by
  unfold Obligations.ImageBytes
  refine fun p x y w h src hn => ⟨fun x' y' w' h' hc => ?_, imageTrace_noOp⟩
  rw [imageNeed_window hc] at hn
  have bytes : transferred (imageTrace p x y w h src) =
      (windowBytes p x' y' w' h').map Prod.snd ++ src.take (2 * w' * h') := by
    rw [imageTrace, hc, imageNeed_window hc, transferred_append, transferred_transactions, transferred_burst]
  rw [bytes]
  refine ⟨?_, rfl⟩
  rw [List.length_append, List.length_take_of_le hn]
  rfl

/-! ### What they leave on the screen -/

/-- Settles O49: the request emits the rectangle's trace, which `read_fillTrace` reads. -/
theorem fillRectPaintsScreen : Obligations.FillRectPaintsScreen := by
  unfold Obligations.FillRectPaintsScreen
  intro x y w h c s hf hp
  obtain ⟨t, he, -, -, seen⟩ := fillRectResult x y w h c s hf
  refine ⟨t, he, fun col page hcol hpage => ?_⟩
  have consumer : t.consumer = (s.observed (fillTrace s.params x y w h c)).2 := congrArg Prod.snd seen
  rw [consumer, State.observed, read_fillTrace hp hcol hpage]

/-- The first `n` pixels of the source bytes, each high byte first (R112). -/
def sourcePixels (src : List Byte) (n : Nat) : List Color :=
  (List.range n).map fun k => src.getD (2 * k) 0 ++ src.getD (2 * k + 1) 0

theorem sourcePixels_length (src : List Byte) (n : Nat) : (sourcePixels src n).length = n := by simp [sourcePixels]

theorem sourcePixels_getD {src : List Byte} {n k : Nat} (hk : k < n) :
    (sourcePixels src n).getD k 0 = src.getD (2 * k) 0 ++ src.getD (2 * k + 1) 0 := by
  simp [sourcePixels, List.getD, hk]

/-- A colour put together from two bytes is sent as these bytes (R51). -/
theorem bytes_of_color (hi lo : Byte) : colorHi (hi ++ lo) = hi ∧ colorLo (hi ++ lo) = lo :=
  ⟨BitVec.extractLsb'_append_eq_left, BitVec.extractLsb'_append_eq_right⟩

theorem sourcePixels_succ (src : List Byte) (n : Nat) :
    sourcePixels src (n + 1) = sourcePixels src n ++ [src.getD (2 * n) 0 ++ src.getD (2 * n + 1) 0] := by
  simp [sourcePixels, List.range_succ]

/-- The bytes of the source's pixels are the source's bytes. -/
theorem colorBytes_sourcePixels {src : List Byte} {n : Nat} (hn : 2 * n ≤ src.length) :
    colorBytes (sourcePixels src n) = src.take (2 * n) := by
  induction n with
  | zero => rfl
  | succ n ih =>
    have high : src[2 * n]? = some (src.getD (2 * n) 0) := by simp [show 2 * n < src.length by omega]
    have low : src[2 * n + 1]? = some (src.getD (2 * n + 1) 0) := by simp [show 2 * n + 1 < src.length by omega]
    calc colorBytes (sourcePixels src (n + 1))
        = colorBytes (sourcePixels src n) ++ [src.getD (2 * n) 0, src.getD (2 * n + 1) 0] := by
          obtain ⟨hi, lo⟩ := bytes_of_color (src.getD (2 * n) 0) (src.getD (2 * n + 1) 0)
          rw [sourcePixels_succ, colorBytes, List.flatMap_append, List.flatMap_singleton, hi, lo]
          rfl
      _ = src.take (2 * (n + 1)) := by
          rw [ih (by omega), Nat.mul_succ, List.take_add_one, List.take_add_one, high, low, List.append_assoc]
          rfl

/-- A pixel of a `w` x `h` window lies among its `w * h` pixels, counted along its columns first. -/
theorem index_lt_area {w h i j : Nat} (hi : i < h) (hj : j < w) : i * w + j < w * h := by
  have rows : w * (i + 1) ≤ w * h := Nat.mul_le_mul_left w hi
  rw [Nat.mul_succ, Nat.mul_comm w i] at rows
  omega

/-- An image paints its clipped window with the source's pixels in linear order, and nothing else (R112). -/
theorem read_imageTrace {p : Params} (hp : p.distinctCommands) {col page : Nat} (hcol : col < 240) (hpage : page < 320)
    {x y w h : Nat} {src : List Byte} (hn : imageNeed x y w h ≤ src.length) (lc : Level × Consumer) :
    Gram.read ((imageTrace p x y w h src).foldl (observe p) lc).2.gram col page =
      if inRect x y w h col page then
        src.getD (2 * ((page - y) * min w (240 - x) + (col - x))) 0 ++
          src.getD (2 * ((page - y) * min w (240 - x) + (col - x)) + 1) 0
      else Gram.read lc.2.gram col page := by
  obtain ⟨l, c⟩ := lc
  cases hc : clip x y w h with
  | noOp =>
    have off := clip_noOp hc
    rw [imageTrace_noOp hc, if_neg (by omega)]
    rfl
  | window x' y' w' h' =>
    have need := imageNeed_window hc
    rw [Nat.mul_assoc] at need
    rw [imageTrace, hc]
    obtain ⟨rfl, rfl, rfl, rfl, hx, hy, -, -⟩ := clip_window hc
    have clipped : inRect x' y' (min w (240 - x')) (min h (320 - y')) col page ↔ inRect x' y' w h col page := by omega
    dsimp only
    rw [need, ← colorBytes_sourcePixels (need ▸ hn),
      read_window hp (by omega) (by omega) _ (sourcePixels_length ..) l c hcol]
    simp only [clipped]
    split_ifs with inside
    · exact sourcePixels_getD (index_lt_area (by omega) (by omega))
    · rfl

/-- Settles O50: the request emits the image's trace, which `read_imageTrace` reads and which is empty for a NoOp. -/
theorem drawImagePaintsLinearly : Obligations.DrawImagePaintsLinearly := by
  unfold Obligations.DrawImagePaintsLinearly
  intro x y w h len s hf hp hn hl
  obtain ⟨t, he, -, trace, seen, srcq, -⟩ := drawImageResult x y w h len s hf hn hl
  have consumer : t.consumer = (s.observed (imageTrace s.params x y w h s.srcq)).2 := congrArg Prod.snd seen
  refine ⟨t, he, srcq, fun hc => ?_, fun col page hcol hpage => ?_⟩
  · rw [imageTrace_noOp hc] at trace consumer
    exact ⟨trace.trans (List.append_nil _), consumer⟩
  · rw [consumer, State.observed, read_imageTrace hp hcol hpage (hn.trans hl)]

end Sys2Proof.Machine
end

section
/-! DRAW_CHAR and DRAW_STRING from beginning to end, the counts of a glyph, and the line layout of a string: where it stops,
what it skips and how far its cursor goes (42_glyph.md). -/

namespace Sys2Proof.Machine

/-! ### The requests -/

theorem hasGlyph_iff {c : Nat} : hasGlyph c = true ↔ 32 ≤ c ∧ c < 127 := by simp [hasGlyph]

/-- A drawing that ends the program of a request changes the output and the registers of the clipper, the pixel stream and the
glyph only. -/
theorem Drawn.glyphFrame {es : List Event} {s t : State} {program : List Micro} (d : Drawn es (s.started program) t)
    (ht : t.todo = []) : GlyphFrame s (t.withEngState .idle) := by
  have frame := d.frame
  rw [ht] at frame
  exact congrArg (State.withEngState .idle) frame

/-- A layout that ends the program of a request changes, besides, the source queue, SREM and the cursor registers only. -/
theorem Laid.stringFrame {es : List Event} {s t : State} {program : List Micro} (l : Laid es (s.started program) t)
    (ht : t.todo = []) : StringFrame s (t.withEngState .idle) := by
  have frame := l.frame
  rw [ht] at frame
  exact congrArg (State.withEngState .idle) frame

section
variable {s : State} (g : Going s) (ho : s.selOpen = false)
include g ho

/-- DRAW_CHAR's program (R126) draws the glyph, if there is one. -/
theorem Going.drawChar_drawn {c x y : Nat} {fg bg : Color} {sc : Nat}
    (ht : s.todo = if hasGlyph c then [.glyph c x y fg bg sc] else []) :
    ∃ t, Within 12500031 s t ∧ t.todo = [] ∧ Drawn (if hasGlyph c then glyphTrace s.params c x y fg bg sc else []) s t := by
  split_ifs at ht ⊢
  · exact g.glyph ho ht
  · exact ⟨s, (Steps.refl s).within.mono (Nat.zero_le _), ht, .refl s⟩

/-- DRAW_STRING's program (R131), when its characters are queued, draws their layout and leaves its cursor. -/
theorem Going.drawString_laid {x y len : Nat} {fg bg : Color} {sc : Nat}
    (ht : s.todo = [.beginString x y len, .chars fg bg sc]) (hl : len ≤ s.srcq.length) :
    ∃ t, Within (12500033 * len + 2) s t ∧ t.todo = [] ∧ t.srcq = s.srcq.drop len ∧ t.srem = 0 ∧
      t.cursor = (Cursor.start x y).afterAll sc (s.srcq.take len) ∧
      Laid (stringTrace s.params x y fg bg sc (s.srcq.take len)) s t := by
  have taken : (s.srcq.take len).length = len := List.length_take_of_le hl
  have begun : Steps 1 s (((s.withSource s.srcq len).withCursor (.start x y)).withTodo [.chars fg bg sc]) :=
    g.micro ht (by simp [State.waitsForSource, ht])
  have regs := Laid.registers s [.chars fg bg sc] s.srcq len (.start x y)
  obtain ⟨t, hw, todo, srcq, srem, cursor, laid⟩ := (regs.going g).chars ho (cs := s.srcq.take len)
    (q := s.srcq.drop len) rfl taken.symm (List.take_append_drop ..).symm
  rw [taken] at hw
  exact ⟨t, (begun.within.trans hw).mono (by omega), todo, srcq, srem, cursor, regs.trans laid⟩

end

/-- Settles O25: the request is its program, which draws the glyph if there is one. -/
theorem drawCharResult : Obligations.DrawCharResult := by
  unfold Obligations.DrawCharResult
  rintro chr x y fg bg sc s ⟨hc, hx, ho⟩
  have g : Going (s.started (if hasGlyph chr then [.glyph chr x y fg bg sc] else [])) := ⟨rfl, hc, hx⟩
  obtain ⟨t, run, todo, drawn⟩ := g.drawChar_drawn ho rfl
  have completes : Completes _ t.srcq (s.started _) t := ⟨⟨_, by omega, run⟩, todo, rfl, drawn.laid⟩
  refine ⟨t.withEngState .idle, congrArg Host.Outcome.next (completes.request hc g), drawn.glyphFrame todo, ?_⟩
  simp only [← hasGlyph_iff]
  exact ⟨drawn.laid.trace, drawn.seen⟩

/-- Settles O26: the request is its program, which draws the layout of the characters queued. -/
theorem drawStringResult : Obligations.DrawStringResult := by
  unfold Obligations.DrawStringResult
  rintro x y fg bg sc len s ⟨hc, hx, ho⟩ hl
  have g : Going (s.started [.beginString x y len, .chars fg bg sc]) := ⟨rfl, hc, hx⟩
  obtain ⟨t, run, todo, srcq, srem, cursor, laid⟩ := g.drawString_laid ho rfl hl
  have completes : Completes _ t.srcq (s.started _) t :=
    ⟨⟨_, by show _ < 2 ^ 24 * (s.srcq.length + 2); omega, run⟩, todo, rfl, laid⟩
  exact ⟨t.withEngState .idle, congrArg Host.Outcome.next (completes.request hc g), laid.stringFrame todo, laid.trace,
    laid.seen, srcq, srem, cursor⟩

/-! ### Counts -/

theorem clip_inside {x y w h : Nat} (hw : 1 ≤ w) (hh : 1 ≤ h) (hx : x + w ≤ 240) (hy : y + h ≤ 320) :
    clip x y w h = .window x y w h := by
  rw [clip_of_drawable (by omega), Nat.min_eq_left (by omega), Nat.min_eq_left (by omega)]

theorem transferred_flatMap {α : Type} (f : α → List Event) (l : List α) :
    transferred (l.flatMap f) = l.flatMap fun a => transferred (f a) := by
  induction l with
  | nil => rfl
  | cons a l ih => rw [List.flatMap_cons, transferred_append, ih, List.flatMap_cons]

/-- A list made of equally long parts. -/
theorem length_flatMap_of_forall {α β : Type} {f : α → List β} {l : List α} {n : Nat} (h : ∀ a ∈ l, (f a).length = n) :
    (l.flatMap f).length = l.length * n := by
  rw [List.length_flatMap, List.map_congr_left h, List.map_const', List.sum_replicate_nat]

/-- What 25 equally long cells, columns outer and rows inner (R124), come to. -/
theorem length_flatMap_cells {β : Type} {f : Nat → Nat → List β} {n : Nat}
    (h : ∀ k ∈ [0, 1, 2, 3, 4], ∀ r ∈ [0, 1, 2, 3, 4], (f k r).length = n) :
    ([0, 1, 2, 3, 4].flatMap fun k => [0, 1, 2, 3, 4].flatMap (f k)).length = 25 * n :=
  (length_flatMap_of_forall fun k hk => length_flatMap_of_forall (h k hk)).trans (Nat.mul_assoc 5 5 n).symm

/-- A cell of a glyph that lies on the surface is a filled rectangle of `sc ^ 2` pixels (R103, R122). -/
theorem fillTrace_cell_counts {x y sc : Nat} (hs : 1 ≤ sc) (hx : x + 5 * sc ≤ 240) (hy : y + 5 * sc ≤ 320) {k r : Nat}
    (hk : k ∈ [0, 1, 2, 3, 4]) (hr : r ∈ [0, 1, 2, 3, 4]) (p : Params) (v : Color) :
    (fillTrace p (x + k * sc) (y + r * sc) sc sc v).length = 2 * sc ^ 2 + 47 ∧
      (transferred (fillTrace p (x + k * sc) (y + r * sc) sc sc v)).length = 11 + 2 * sc ^ 2 := by
  have hk : k * sc ≤ 4 * sc := Nat.mul_le_mul_right sc (by simp at hk; omega)
  have hr : r * sc ≤ 4 * sc := Nat.mul_le_mul_right sc (by simp at hr; omega)
  obtain ⟨events, bytes, -⟩ := (fillCounts p (x + k * sc) (y + r * sc) sc sc v).1 _ _ _ _
    (clip_inside hs hs (by omega) (by omega))
  rw [pow_two]
  exact ⟨events, bytes⟩

theorem glyphTrace_scale_zero (p : Params) (c x y : Nat) (fg bg : Color) : glyphTrace p c x y fg bg 0 = [] := by
  have cell : ∀ a b v, fillTrace p a b 0 0 v = [] := fun _ _ _ => fillTrace_noOp (clip_eq_noOp_iff.mpr (by simp))
  simp [glyphTrace, cell]

/-- Settles O29: each of the 25 cells of a glyph on the surface is a filled rectangle of `sc ^ 2` pixels; at scale 0 it is
empty; with both colours equal the font's bit makes no difference to it. -/
theorem glyphCounts : Obligations.GlyphCounts := by
  unfold Obligations.GlyphCounts
  refine fun p c x y fg bg sc => ⟨fun hs hx hy => ?_, glyphTrace_scale_zero p c x y fg bg, fun font c' => ?_⟩
  · simp only [glyphTrace, transferred_flatMap]
    exact ⟨length_flatMap_cells fun k hk r hr => (fillTrace_cell_counts hs hx hy hk hr ..).1,
      length_flatMap_cells fun k hk r hr => (fillTrace_cell_counts hs hx hy hk hr ..).2⟩
  · simp only [glyphTrace, ite_self]
    rfl

/-! ### One character of the layout -/

theorem Cursor.draws_eq_true {sc : Nat} {k : Cursor} {c : Byte} :
    k.draws sc c = true ↔ k.stopped = false ∧ c ≠ 0 ∧ hasGlyph c.toNat = true ∧ k.stops sc = false := by
  simp [Cursor.draws, and_assoc]

theorem Cursor.after_of_stopped {sc : Nat} {k : Cursor} (h : k.stopped = true) (c : Byte) : k.after sc c = k := if_pos h

/-- 0x00 ends the text (R136). -/
theorem Cursor.after_zero (sc : Nat) (k : Cursor) : (k.after sc 0).stopped = true := by
  cases h : k.stopped with
  | true => rw [Cursor.after_of_stopped h, h]
  | false => rw [Cursor.after, if_neg (by simp [h]), if_pos rfl]

/-- A character without a glyph leaves the cursor as it is (R135). -/
theorem Cursor.after_of_noGlyph {sc : Nat} {k : Cursor} {c : Byte} (h0 : c ≠ 0) (hg : hasGlyph c.toNat = false) :
    k.after sc c = k := by
  rw [Cursor.after, if_neg h0, hg, Bool.not_false, if_pos rfl, ite_self]

/-- A character that is not drawn leaves the cursor as it is, but that the text may stop there (R136), or stops the text with a
wrap (R133). -/
theorem Cursor.after_of_not_draws {sc : Nat} {k : Cursor} {c : Byte} (h : k.draws sc c = false) :
    k.after sc c = k ∨ k.after sc c = { k with stopped := true } ∨
      k.stopped = false ∧ k.after sc c = { k.wrapped sc with stopped := true } := by
  rw [Cursor.after]
  split_ifs with h1 h2 h3 h4
  · exact .inl rfl
  · exact .inr (.inl rfl)
  · exact .inl rfl
  · exact .inr (.inr ⟨by simpa using h1, rfl⟩)
  · exact absurd (Cursor.draws_eq_true.mpr ⟨by simpa using h1, h2, by simpa using h3, by simpa using h4⟩) (by simp [h])

/-! ### The layout -/

theorem layout_cons_of_not_draws {sc : Nat} {k : Cursor} {c : Byte} (h : k.draws sc c = false) (cs : List Byte) :
    layout sc k (c :: cs) = layout sc (k.after sc c) cs := by simp [layout, h]

theorem layout_append (sc : Nat) (k : Cursor) (as bs : List Byte) :
    layout sc k (as ++ bs) = layout sc k as ++ layout sc (k.afterAll sc as) bs := by
  induction as generalizing k with
  | nil => rfl
  | cons a as ih =>
    rw [List.cons_append, layout, layout, ih, Cursor.afterAll, Cursor.afterAll, List.foldl_cons]
    split <;> rfl

/-- After a stop nothing is drawn (R137). -/
theorem layout_of_stopped {sc : Nat} {k : Cursor} (h : k.stopped = true) (cs : List Byte) : layout sc k cs = [] := by
  induction cs with
  | nil => rfl
  | cons c cs ih => rw [layout_cons_of_not_draws (by simp [Cursor.draws, h]), Cursor.after_of_stopped h, ih]

/-- Nothing is drawn from a 0x00 on (R136). -/
theorem layout_zero (sc : Nat) (k : Cursor) (cs : List Byte) : layout sc k (0 :: cs) = [] := by
  rw [layout_cons_of_not_draws (by simp [Cursor.draws]), layout_of_stopped (k.after_zero sc)]

/-- Settles O31: by `layout_zero` the layout of the string is that of the bytes before the 0x00. -/
theorem zeroByteEndsText : Obligations.ZeroByteEndsText := by
  unfold Obligations.ZeroByteEndsText
  intro x y fg bg sc before after rest s hf hq
  have len : (before ++ 0 :: after).length = before.length + 1 + after.length := by simp; omega
  obtain ⟨t, he, -, trace, -, srcq, -⟩ := drawStringResult x y fg bg sc (before ++ 0 :: after).length s hf (by simp [hq])
  rw [hq, List.take_left, stringTrace, layout_append, layout_zero, List.append_nil] at trace
  rw [hq, List.drop_left] at srcq
  exact ⟨t, len ▸ he, trace, srcq⟩

/-- A character without a glyph, 0x00 apart, can be taken out of a string (R135). -/
theorem layout_filter (sc : Nat) (k : Cursor) (cs : List Byte) :
    layout sc k cs = layout sc k (cs.filter fun c => c == 0 || hasGlyph c.toNat) ∧
      k.afterAll sc cs = k.afterAll sc (cs.filter fun c => c == 0 || hasGlyph c.toNat) := by
  induction cs generalizing k with
  | nil => exact ⟨rfl, rfl⟩
  | cons c cs ih =>
    obtain ⟨drawn, left⟩ := ih (k.after sc c)
    by_cases keep : (c == 0 || hasGlyph c.toNat) = true
    · rw [List.filter_cons, if_pos keep, layout, layout, drawn]
      exact ⟨rfl, left⟩
    · rw [List.filter_cons, if_neg keep]
      simp only [Bool.or_eq_true, beq_iff_eq, not_or, Bool.not_eq_true] at keep
      obtain ⟨h0, hg⟩ := keep
      have same : k.after sc c = k := Cursor.after_of_noGlyph h0 hg
      rw [layout_cons_of_not_draws (by simp [Cursor.draws, hg]), Cursor.afterAll, List.foldl_cons, same]
      rw [same] at drawn left
      exact ⟨drawn, left⟩

/-- Settles O32: by `layout_filter`, from the cursor at the start. -/
theorem noGlyphCharactersAreSkipped : Obligations.NoGlyphCharactersAreSkipped := by
  unfold Obligations.NoGlyphCharactersAreSkipped
  exact fun x y sc cs => layout_filter sc (.start x y) cs

/-! ### Cursor bounds -/

/-- Where the cursor of a string at `(x, y)` can be after any number of characters (R138). -/
structure Cursor.InBounds (x y sc : Nat) (k : Cursor) : Prop where
  /-- X0 is the origin. -/
  x0 : k.x0 = x
  /-- Until the first glyph is drawn the cursor is in the origin's column. -/
  first : k.firstg = true → k.cx = x
  /-- CX is at most one advance past the origin or past a glyph that was not wrapped. -/
  cx : k.cx ≤ x + (5 * sc + 1) ∨ k.cx < 320
  /-- While characters are drawn, CY is the origin's or less than the stop bound. -/
  cy : k.stopped = false → k.cy = y ∨ k.cy < 240
  /-- A stop leaves CY at most one advance further. -/
  cyMax : k.cy ≤ y + (5 * sc + 2) ∨ k.cy < 240 + (5 * sc + 2)

theorem Cursor.start_inBounds (x y sc : Nat) : (Cursor.start x y).InBounds x y sc :=
  ⟨rfl, fun _ => rfl, .inl (Nat.le_add_right ..), fun _ => .inl rfl, .inl (Nat.le_add_right ..)⟩

/-- The wrap test (R132) keeps the cursor or takes it to the origin's column and down by one advance. -/
theorem Cursor.wrapped_cases (sc : Nat) (k : Cursor) :
    (k.firstg = true ∨ k.cx + (5 * sc + 1) < 320) ∧ k.wrapped sc = k ∨
      (k.stops sc = true ↔ 240 ≤ k.cy + (5 * sc + 2)) ∧ k.firstg = false ∧
        k.wrapped sc = { k with cx := k.x0, cy := k.cy + (5 * sc + 2) } := by
  rw [Cursor.wrapped]
  split_ifs with h
  · simp only [Bool.and_eq_true, Bool.not_eq_true', decide_eq_true_eq] at h
    exact .inr ⟨by simp [Cursor.stops, h], h.1, rfl⟩
  · refine .inl ⟨?_, rfl⟩
    cases hf : k.firstg with
    | true => exact .inl rfl
    | false => exact .inr (by simpa [hf] using h)

section
variable {x y sc : Nat} {k : Cursor} (b : k.InBounds x y sc)
include b

/-- Where a glyph is drawn (R138). -/
theorem Cursor.InBounds.origin (hs : k.stopped = false) (h : k.stops sc = false) :
    ((k.wrapped sc).cx = x ∨ (k.wrapped sc).cx + (5 * sc + 1) < 320) ∧
      ((k.wrapped sc).cy = y ∨ (k.wrapped sc).cy < 240) := by
  obtain ⟨hc, e⟩ | ⟨hc, -, e⟩ := k.wrapped_cases sc <;> rw [e]
  · exact ⟨hc.imp_left b.first, b.cy hs⟩
  · rw [h] at hc
    exact ⟨.inl b.x0, .inr (by simpa using hc)⟩

/-- A wrap leaves the cursor in bounds once the text stops there. -/
theorem Cursor.InBounds.wrapped_stopped (hs : k.stopped = false) :
    Cursor.InBounds x y sc { k.wrapped sc with stopped := true } := by
  obtain ⟨-, e⟩ | ⟨-, hf, e⟩ := k.wrapped_cases sc <;> rw [e]
  · exact ⟨b.x0, b.first, b.cx, nofun, b.cyMax⟩
  · refine ⟨b.x0, fun _ => b.x0, .inl (b.x0.le.trans (Nat.le_add_right ..)), nofun, ?_⟩
    obtain cy | cy := b.cy hs
    · exact .inl (Nat.add_le_add_right cy.le _)
    · exact .inr (Nat.add_lt_add_right cy _)

/-- Every character keeps the cursor in bounds. -/
theorem Cursor.InBounds.after (c : Byte) : (k.after sc c).InBounds x y sc := by
  cases hd : k.draws sc c with
  | false =>
    obtain e | e | ⟨hs, e⟩ := Cursor.after_of_not_draws hd <;> rw [e]
    · exact b
    · exact ⟨b.x0, b.first, b.cx, nofun, b.cyMax⟩
    · exact b.wrapped_stopped hs
  | true =>
    rw [Cursor.after_of_draws hd]
    obtain ⟨hs, -, -, ht⟩ := Cursor.draws_eq_true.mp hd
    obtain ⟨hx, hy⟩ := b.origin hs ht
    have x0 : (k.wrapped sc).x0 = x := by obtain ⟨-, e⟩ | ⟨-, -, e⟩ := k.wrapped_cases sc <;> rw [e] <;> exact b.x0
    refine ⟨x0, nofun, ?_, fun _ => hy, ?_⟩
    · exact hx.imp (fun e => (congrArg (· + advX sc) e).le) id
    · exact hy.imp (fun e => e.le.trans (Nat.le_add_right ..)) fun lt => lt.trans_le (Nat.le_add_right ..)

theorem Cursor.InBounds.afterAll (cs : List Byte) : (k.afterAll sc cs).InBounds x y sc := by
  induction cs generalizing k with
  | nil => exact b
  | cons c cs ih => exact ih (b.after c)

/-- Every glyph of a layout has its origin in bounds. -/
theorem Cursor.InBounds.layout (cs : List Byte) :
    ∀ g ∈ layout sc k cs, (g.2.1 = x ∨ g.2.1 + (5 * sc + 1) < 320) ∧ (g.2.2 = y ∨ g.2.2 < 240) := by
  induction cs generalizing k with
  | nil => nofun
  | cons c cs ih =>
    rw [Machine.layout]
    split_ifs with hd
    · obtain ⟨hs, -, -, ht⟩ := Cursor.draws_eq_true.mp hd
      exact List.forall_mem_cons.mpr ⟨b.origin hs ht, ih (b.after c)⟩
    · exact ih (b.after c)

end

/-- Settles O30: the cursor is in bounds at the start, and each character keeps it there. -/
theorem cursorBounds : Obligations.CursorBounds := by
  unfold Obligations.CursorBounds
  intro x y sc cs hx hy hs
  have b := Cursor.start_inBounds x y sc
  obtain ⟨-, -, cx, -, cy⟩ := b.afterAll cs
  refine ⟨fun g hg => ?_, by omega, by omega⟩
  obtain ⟨gx, gy⟩ := b.layout cs g hg
  exact ⟨by omega, by omega, gx, gy⟩

end Sys2Proof.Machine
end

section
/-! Faults (60_exceptions.md): what lands in FAULTED, the only way out of it, and the only fault of a legal request. -/

namespace Sys2Proof.Machine

/-! ### In FAULTED -/

/-- What every input but a reset leaves as it is; the queues may grow at their ends (R24, R26). -/
structure KeptByInput (s t : State) : Prop where
  engState : t.engState = s.engState
  fcode : t.fcode = s.fcode
  faultW0 : t.faultW0 = s.faultW0
  trace : t.trace = s.trace
  reqIndex : t.reqIndex = s.reqIndex
  consumer : t.consumer = s.consumer
  reqq : s.reqq <+: t.reqq
  srcq : s.srcq <+: t.srcq

theorem KeptByInput.refl (s : State) : KeptByInput s s :=
  ⟨rfl, rfl, rfl, rfl, rfl, rfl, List.prefix_rfl, List.prefix_rfl⟩

theorem Input.land_keptByInput {i : Input} {s t : State} (hi : i ≠ .reset) (h : i.land s = .next t) : KeptByInput s t := by
  cases i with
  | writeRequest w =>
    rw [Input.land] at h
    split at h <;> cases h
    exact { KeptByInput.refl s with reqq := List.prefix_append _ _ }
  | writeSource b => cases h; exact { KeptByInput.refl s with srcq := List.prefix_append _ _ }
  | readStatus index => cases h; exact { KeptByInput.refl s with }
  | reset => exact absurd rfl hi
  | bootSequencer =>
    rw [Input.land] at h
    split_ifs at h
    cases h
    exact { KeptByInput.refl s with }
  | resume n => cases h; exact { KeptByInput.refl s with }

/-- In FAULTED the engine neither goes on nor takes a descriptor (R144), so a step is the next input's. -/
theorem step_of_faulted {s : State} (hf : s.engState = .faulted) : step s = s.landInput :=
  step_landInput (State.canRun_of_not_run (by rw [hf]; decide)) (State.takeDescriptor_of_not_idle (by rw [hf]; decide))

/-- Settles O9: the step is the next input's, and every input but a reset keeps the fault. -/
theorem onlyResetLeavesFaulted : Obligations.OnlyResetLeavesFaulted := by
  unfold Obligations.OnlyResetLeavesFaulted
  intro s t hf ht
  rw [step_of_faulted hf] at ht
  refine ⟨fun rest hr => ?_, fun hn => ?_⟩
  · rw [State.landInput_of_some hr] at ht
    cases ht
    rfl
  · have kept : KeptByInput s t := by
      cases pending : nextInput s s.inputs with
      | none =>
        cases (State.landInput_of_none pending).symm.trans ht
        exact .refl s
      | some landing =>
        obtain ⟨i, rest⟩ := landing
        have hi : i ≠ .reset := by rintro rfl; exact hn rest pending
        rw [State.landInput_of_some pending] at ht
        exact { Input.land_keptByInput hi ht with }
    exact ⟨kept.engState.trans hf, kept.fcode, kept.faultW0, kept.trace, kept.reqIndex, kept.consumer, kept.reqq, kept.srcq⟩

/-! ### The fault of a legal request -/

/-- Settles O47: a request that runs its program never faults, so one that faults is an image that is too short, and the fault
comes before any effect. -/
theorem onlyShortImagesFault : Obligations.OnlyShortImagesFault := by
  unfold Obligations.OnlyShortImagesFault
  intro i s t he hf
  rcases exec_cases i s with ⟨x, y, w, h, len, hi, short, e⟩ | ⟨program, e, -⟩ <;> cases e.symm.trans he
  · exact ⟨⟨x, y, w, h, len, hi, short⟩, rfl, rfl, rfl, rfl⟩
  · exact absurd hf (s.request_not_faulted program)

end Sys2Proof.Machine
end

section
/-! The reset, the boot order and the parameters (70_reset_and_hazards.md sections 1 and 2): which input lands first in a machine
that nothing else moves, and what no input changes. -/

namespace Sys2Proof.Machine

/-! ### The next input -/

/-- When neither the request in progress nor a descriptor moves, the oldest input lands, unless it waits. -/
theorem step_land {s : State} {i : Input} {rest : List Input} (hc : s.canRun = false) (ht : s.takeDescriptor = none)
    (hi : s.inputs = i :: rest) (hw : i.waits s = false) : step s = i.land { s with inputs := rest } := by
  rw [step_landInput hc ht, State.landInput_of_some (hi ▸ nextInput_cons rest hw)]

/-! ### The reset -/

/-- A reset between requests leaves the consumer alone (log entry 18). -/
theorem State.resetBlock_consumer {s : State} (hx : s.xferBusy = false) (hr : s.engState ≠ .run) :
    s.resetBlock.consumer = s.consumer := by simp [State.resetBlock, hx, hr]

/-- A reset that interrupts no exchange leaves the pixel memory alone (log entry 7). -/
theorem State.resetBlock_gram {s : State} (hx : s.xferBusy = false) : s.resetBlock.consumer.gram = s.consumer.gram := by
  by_cases hr : s.engState = .run
  · simp [State.resetBlock, hx, hr]
  · rw [State.resetBlock_consumer hx hr]

/-- STATUS reads 0 after a reset (R159): the engine is idle, no word is queued and no fault is raised. -/
theorem State.resetBlock_status (s : State) : s.resetBlock.status = 0 := by
  rw [State.status_congr (t := s.resetBlock) (s := State.reset) rfl rfl rfl]
  decide

/-- Settles O11: the registers and queues are cleared by the reset itself, and a reset never waits to land. -/
theorem resetEffect : Obligations.ResetEffect := by
  unfold Obligations.ResetEffect
  intro s
  exact ⟨s.resetBlock_trace, rfl, rfl, rfl, rfl, s.resetBlock_status, rfl, rfl, rfl, rfl, s.resetBlock_params,
    State.resetBlock_consumer, State.resetBlock_gram, fun _ hc ht hi => step_land hc ht hi rfl⟩

/-! ### The boot order -/

theorem Input.land_writeRequest_of_not_ready {s : State} (w : Word) (hs : s.seqReady = false) :
    (Input.writeRequest w).land s = .refused .descriptorBeforeReady := by simp [Input.land, hs]

theorem Input.land_bootSequencer_of_busy {s : State} (hb : s.busy = true) :
    Input.bootSequencer.land s = .refused .sequencerWhileBusy := by simp [Input.land, hb]

theorem Input.land_bootSequencer_of_ready {s : State} (hb : s.busy = false) (hs : s.seqReady = true) :
    Input.bootSequencer.land s = .refused .sequencerTwice := by simp [Input.land, hb, hs]

theorem Input.land_bootSequencer_of_not_ready {s : State} (hb : s.busy = false) (hs : s.seqReady = false) :
    Input.bootSequencer.land s = .next { s with seqReady := true } := by simp [Input.land, hb, hs]

/-- Settles O16: the input lands, and BUSY and `Ready`, which its leaving the list of inputs does not change, decide what it
does (R162, R164). -/
theorem bootOrder : Obligations.BootOrder := by
  unfold Obligations.BootOrder
  intro s rest hc ht
  refine ⟨fun w hs room hi => ?_, fun hb hi => ?_, fun hb hs hi => ?_, fun hb hs hi => ?_⟩
  · exact (step_land hc ht hi (Input.writeRequest_lands w room)).trans (Input.land_writeRequest_of_not_ready w hs)
  · exact (step_land hc ht hi rfl).trans (Input.land_bootSequencer_of_busy hb)
  · exact (step_land hc ht hi rfl).trans (Input.land_bootSequencer_of_ready hb hs)
  · exact (step_land hc ht hi rfl).trans (Input.land_bootSequencer_of_not_ready hb hs)

/-! ### The parameters -/

theorem State.takeDescriptor_params {s t : State} (h : s.takeDescriptor = some t) : t.params = s.params := by
  obtain ⟨_, _, -, -, -, rfl⟩ := State.takeDescriptor_eq_some h
  rfl

/-- No input writes the parameters, a reset included (R160). -/
theorem Input.land_params {i : Input} {s t : State} (h : i.land s = .next t) : t.params = s.params := by
  cases i with
  | reset => cases h; exact s.resetBlock_params
  | writeRequest w =>
    rw [Input.land] at h
    split at h <;> cases h
    rfl
  | bootSequencer =>
    rw [Input.land] at h
    split_ifs at h
    cases h
    rfl
  | _ => cases h; rfl

/-- Settles O43, by the cases of a step: a request keeps its frame, and no input writes the parameters. -/
theorem parametersNeverChange : Obligations.ParametersNeverChange := by
  unfold Obligations.ParametersNeverChange
  intro s t h
  rcases step_cases h with ⟨-, rfl⟩ | ⟨-, u, hu, hd⟩ | ⟨-, -, ⟨-, rfl⟩ | ⟨i, rest, -, hl⟩⟩
  · exact (s.runFor_keptByRequest _).params
  · rw [← State.takeDescriptor_params hu]
    rcases hd with ⟨i, -, he⟩ | ⟨e, -, rfl⟩
    · exact (requestFrame i u t he).1
    · exact u.raiseFault_params _
  · rfl
  · exact Input.land_params (s := { s with inputs := rest }) hl

end Sys2Proof.Machine
end
